-- ==== Sys2Proof/Word.lean ====
section
/-! DEFINITION. The plain value types of the block: bytes, 32-bit operands, 22-bit device addresses, and the transport
error values, which the block never looks into. -/

namespace Sys2Proof

/-- A byte is 8 bits (00_scope.md R7). -/
abbrev Byte := BitVec 8

/-- A 32-bit unsigned operand or command word (30_encoding.md R109). -/
abbrev Word := BitVec 32

/-- A 22-bit device address (20_memory.md R60, 90_conflicts.md C1). -/
abbrev DevAddr := BitVec 22

/-- The number of device addresses, `2^22` (20_memory.md R60). -/
abbrev addrLimit : Nat := 4194304

/-- An opaque transport error value: recorded, never read (60_exceptions.md R201). DESIGN CHOICE (safe): a natural
number stands for it, log 19. -/
abbrev TxError := Nat

end Sys2Proof
end

