-- ==== Sys2Proof/Config.lean ====
section
/-! DEFINITION. The construction parameters of the block (00_scope.md R5), the answers the environment draws, and the
uninterpreted constants that stand for every value the spec leaves free. -/

namespace Sys2Proof

/-- The four operands of the text command, named for a packing (30_encoding.md R116). -/
inductive TextField
  | x
  | y
  | font
  | options
  deriving DecidableEq, Repr, Inhabited

/-- One operand word of a packing: two operands side by side, or any function of the four operands (log 15). -/
inductive PackWord
  /-- `(hi[15:0] << 16) | lo[15:0]`, the form of 93_implementation_defined.md K4. -/
  | pair (hi lo : TextField)
  /-- The function named `id`, which nothing constrains. -/
  | free (id : Nat)
  deriving DecidableEq, Repr, Inhabited

/-- The parameter `PACK_TEXT`, a function held as data (00_scope.md R5, log 15). -/
inductive PackText
  /-- The same number of words for every argument. -/
  | fixed (ws : List PackWord)
  /-- A function whose number of words may vary: check CHK7 refuses it (70_reset_and_hazards.md R220). -/
  | varying (id : Nat)
  deriving DecidableEq, Repr, Inhabited

/-- The configuration bank `CFG` (00_scope.md R5, 10_state.md R34). -/
structure Cfg where
  dummyBytes : Nat
  dummyValue : Byte
  fifoBase : Nat
  fifoCap : Nat
  dlBase : Nat
  dlCap : Option Nat
  regRP : Nat
  regWP : Nat
  ptrWidth : Nat
  textOpcode : Word
  packText : PackText
  maxTextLen : Nat
  atomicPtrRead : Bool
  deriving DecidableEq, Repr

/-- What the environment draws for one transport call (20_memory.md R61, R86, R87, R91). -/
structure CallDraw where
  /-- `none`: the call returns `ok`; `some e`: it returns `err(e)`. -/
  fails : Option TxError
  /-- If the call fails in a write transaction: how many payload bytes the device has committed (R87). -/
  commit : Nat
  /-- For `TxRead(n)`: `some k` with `k < n` returns only `k` bytes, without an error. -/
  count : Option Nat
  /-- For a `TxRead` that returns `ok`: the values of unwritten bytes, by position; past its end `Config.unwrittenByte` (R86).
  For one that returns `err(e)`: the bytes it returns beside the error, of which the first `n` count (00_scope.md R10). -/
  fill : List Byte
  /-- For a pointer read that may tear: the consumer's moves within the call (R91). -/
  during : List Nat
  /-- For a pointer read that may tear: which consumer state each byte comes from (R91). -/
  picks : List Nat
  deriving DecidableEq, Repr, Inhabited

/-- What the environment draws when a wait tests its bound (43_fifo_sync.md R191): how far the clock has moved since its
last reading, which makes it never decrease, and whether `cancel` is asserted. -/
structure TickDraw where
  tick : Nat
  cancel : Bool
  deriving DecidableEq, Repr, Inhabited

/-- The consumer's next move, when State lists none (20_memory.md R88): a free value (log 4). -/
opaque Config.move : Nat → Nat

/-- The transport's next answer, when State lists none (20_memory.md R61): a free value (log 4). -/
opaque Config.callDraw : Nat → CallDraw

/-- The clock's and the cancel input's next answer, when State lists none (43_fifo_sync.md R191): a free value (log 4). -/
opaque Config.tickDraw : Nat → TickDraw

/-- The value of byte `k` of the read made by call number `n`, when that byte is unwritten (20_memory.md R86): a free value
(log 5). -/
opaque Config.unwrittenByte : Nat → Nat → Byte

/-- The value of read number `n` of a FIFO byte by the consumer after a hazard, when State lists none (70_reset_and_hazards.md
R232, 93_implementation_defined.md I7): a free value (log 25). -/
opaque Config.consumedByte : Nat → Byte

/-- The word a `PackWord.free` stands for, as a function of its name and `x`, `y`, `font`, `options` (30_encoding.md R116): a
free value (log 15). -/
opaque Config.packWord : Nat → BitVec 16 → BitVec 16 → BitVec 16 → BitVec 16 → Word

/-- The words a `PackText.varying` stands for (log 15). -/
opaque Config.packVarying : Nat → BitVec 16 → BitVec 16 → BitVec 16 → BitVec 16 → List Word

end Sys2Proof
end

