-- ==== Sys2Proof/Machine/Ring.lean ====
section
/-! DEFINITION. Ring helpers over the command FIFO (00_scope.md R6, R9). -/

namespace Sys2Proof.Machine

/-- `red(o) = o mod FIFO_CAP` (00_scope.md R9). -/
def red (cfg : Cfg) (o : Nat) : Nat := o % cfg.fifoCap

/-- `dist(a, b) = (b - a) mod FIFO_CAP`, the non-negative remainder (00_scope.md R9). -/
def dist (cfg : Cfg) (a b : Nat) : Nat := (b + (cfg.fifoCap - a % cfg.fifoCap)) % cfg.fifoCap

/-- `inRing(o, a, b)` holds when `dist(a, o) < dist(a, b)` (00_scope.md R9). -/
def inRing (cfg : Cfg) (o a b : Nat) : Bool := decide (dist cfg a o < dist cfg a b)

/-- The offsets `a, a+1, ..., b-1` taken mod `FIFO_CAP`: those of which `inRing` is true (00_scope.md R9). -/
def ringOffsets (cfg : Cfg) (a b : Nat) : List Nat :=
  (List.range (dist cfg a b)).map fun i => red cfg (a + i)

end Sys2Proof.Machine
end

