-- ==== Sys2Proof/Machine/Bytes.lean ====
section
/-! DEFINITION. Little-endian byte lists (00_scope.md R8). -/

namespace Sys2Proof.Machine

/-- `LE_n(v)`: byte `k` is `v[8k+7:8k]` (00_scope.md R8). -/
def leBytes : Nat → Nat → List Byte
  | 0, _ => []
  | n + 1, v => BitVec.ofNat 8 v :: leBytes n (v / 256)

/-- `fromLE(bs)`, the sum over `k` of `bs[k] * 2^(8k)` (00_scope.md R8). -/
def fromLE : List Byte → Nat
  | [] => 0
  | b :: bs => b.toNat + 256 * fromLE bs

end Sys2Proof.Machine
end

