-- ==== Sys2Proof/Syntax.lean ====
section
/-! DEFINITION. The sixteen operations of the block, one constructor per row of the opcode table (30_encoding.md R110),
and the request record of the request port (R109). -/

namespace Sys2Proof

/-- One operation with its operands (30_encoding.md R109, R110). An absent optional operand takes the default of R112
when the operation runs. -/
inductive Instr
  /-- `RD8 addr` (40_transactions.md R142). -/
  | rd8 (addr : Word)
  /-- `RD16 addr` (R143). -/
  | rd16 (addr : Word)
  /-- `RD32 addr` (R144). -/
  | rd32 (addr : Word)
  /-- `WR8 addr, val` (R145). -/
  | wr8 (addr data : Word)
  /-- `WR16 addr, val` (R146). -/
  | wr16 (addr data : Word)
  /-- `WR32 addr, val` (R147). -/
  | wr32 (addr data : Word)
  /-- `HOSTCMD code` (R148). -/
  | hostcmd (code : Word)
  /-- `ERRQ` (R149). -/
  | errq
  /-- `ERRCLR` (R150). -/
  | errclr
  /-- `DLAPPEND off, word` (41_display_list.md R160). -/
  | dlappend (off word : Word)
  /-- `FIFO_WORD [@off,] word` (42_fifo_writer.md R171). -/
  | fifoWord (off : Option Word) (word : Word)
  /-- `FIFO_CMD [@off,] opcode {, field}` (R172). -/
  | fifoCmd (off : Option Word) (opcode : Word) (words : List Word)
  /-- `FIFO_TEXT [@off,] x, y, font, options, "text"` (R173). -/
  | fifoText (off : Option Word) (x y : Int) (font options : Nat) (text : List Byte)
  /-- `FIFO_PUBLISH [v]` (R174). -/
  | fifoPublish (value : Option Word)
  /-- `FIFO_WAIT_EMPTY [deadline=T]` (43_fifo_sync.md R192). -/
  | fifoWaitEmpty (deadline : Option Nat)
  /-- `FIFO_WAIT_OFFSET [expected] [deadline=T]` (R193). -/
  | fifoWaitOffset (expected : Option Word) (deadline : Option Nat)
  deriving DecidableEq, Repr

/-- The record on the request port (30_encoding.md R109). Operands an operation does not use are ignored. `x`, `y`,
`font` and `options` are held unbounded, because R113 refuses a request whose value is too wide for its field. -/
structure Request where
  op : BitVec 5
  addr : Word
  data : Option Word
  off : Option Word
  words : List Word
  x : Int
  y : Int
  font : Nat
  options : Nat
  text : List Byte
  deadline : Option Nat
  deriving DecidableEq, Repr

end Sys2Proof
end

