-- ==== Sys2Proof/WellFormed.lean ====
section
/-! DEFINITION. The operand checks that do not depend on the configuration (30_encoding.md R113). A request that fails one
is refused before any step; the checks that depend on the configuration are faults, made by the operations. -/

namespace Sys2Proof

/-- `v < 2^bits` (30_encoding.md R113). -/
def fitsBits (bits v : Nat) : Bool := decide (v < 2 ^ bits)

/-- `v` is an `Int16`, two's complement (00_scope.md R7, 30_encoding.md R109). -/
def isInt16 (v : Int) : Bool := decide (-32768 ≤ v) && decide (v ≤ 32767)

/-- The well-formedness checks of 30_encoding.md R113. -/
def Instr.wellFormed : Instr → Bool
  | .rd8 _ => true
  | .rd16 _ => true
  | .rd32 _ => true
  | .wr8 _ data => fitsBits 8 data.toNat
  | .wr16 _ data => fitsBits 16 data.toNat
  | .wr32 _ _ => true
  | .hostcmd code => fitsBits 8 code.toNat
  | .errq => true
  | .errclr => true
  | .dlappend _ _ => true
  | .fifoWord _ _ => true
  | .fifoCmd _ _ _ => true
  | .fifoText _ x y font options _ => isInt16 x && isInt16 y && fitsBits 16 font && fitsBits 16 options
  | .fifoPublish _ => true
  | .fifoWaitEmpty _ => true
  | .fifoWaitOffset _ _ => true

end Sys2Proof
end

