-- ==== Sys2Proof/Decode.lean ====
section
/-! DEFINITION. Both encodings of the block: requests on the request port (30_encoding.md R109 to R113) and transactions on
the wire (R100 to R108), each with its decoder, total and rejecting by name, and its encoder. -/

namespace Sys2Proof

/-! ## Requests -/

/-- Why a request is refused at decode (30_encoding.md R111, R113). -/
inductive Reject
  /-- The op code is one of `0x10` to `0x1F` (R111). -/
  | reservedOp (op : BitVec 5)
  /-- An operand fails a well-formedness check of R113. -/
  | operandTooWide
  /-- A required operand is absent. DESIGN CHOICE (safe), log 17. -/
  | missingOperand
  deriving DecidableEq, Repr

/-- An operand the operation requires. -/
def required (v : Option Word) : Except Reject Word :=
  match v with
  | some w => .ok w
  | none => .error .missingOperand

/-- The operation a request names and its operands, by op code (30_encoding.md R109, R110, R111). -/
def decodeOp (r : Request) : Except Reject Instr :=
  match r.op.toNat with
  | 0x00 => .ok (.rd8 r.addr)
  | 0x01 => .ok (.rd16 r.addr)
  | 0x02 => .ok (.rd32 r.addr)
  | 0x03 => (required r.data).map fun d => .wr8 r.addr d
  | 0x04 => (required r.data).map fun d => .wr16 r.addr d
  | 0x05 => (required r.data).map fun d => .wr32 r.addr d
  | 0x06 => (required r.data).map fun d => .hostcmd d
  | 0x07 => .ok .errq
  | 0x08 => .ok .errclr
  | 0x09 => (required r.off).bind fun o => (required r.data).map fun d => .dlappend o d
  | 0x0A => (required r.data).map fun d => .fifoWord r.off d
  | 0x0B => (required r.data).map fun d => .fifoCmd r.off d r.words
  | 0x0C => .ok (.fifoText r.off r.x r.y r.font r.options r.text)
  | 0x0D => .ok (.fifoPublish r.data)
  | 0x0E => .ok (.fifoWaitEmpty r.deadline)
  | 0x0F => .ok (.fifoWaitOffset r.data r.deadline)
  | _ => .error (.reservedOp r.op)

/-- Refuse an operation that fails a check of 30_encoding.md R113. -/
def checkOperands (i : Instr) : Except Reject Instr :=
  if i.wellFormed then .ok i else .error .operandTooWide

/-- The decoder of the request port (30_encoding.md R109 to R113). -/
def decode (r : Request) : Except Reject Instr := (decodeOp r).bind checkOperands

/-- The request all of whose operand fields are zero, empty or, where the field is optional and `required` asks for it, a
present zero. -/
def Request.zero (op : BitVec 5) : Request :=
  { op := op, addr := 0, data := some 0, off := some 0, words := [], x := 0, y := 0, font := 0, options := 0,
    text := [], deadline := none }

/-- The request whose fields are all absent, zero or empty. -/
def Request.blank (op : BitVec 5) : Request :=
  { op := op, addr := 0, data := none, off := none, words := [], x := 0, y := 0, font := 0, options := 0,
    text := [], deadline := none }

/-- The op code of an operation (30_encoding.md R110). -/
def Instr.opcode : Instr → BitVec 5
  | .rd8 _ => 0x00
  | .rd16 _ => 0x01
  | .rd32 _ => 0x02
  | .wr8 _ _ => 0x03
  | .wr16 _ _ => 0x04
  | .wr32 _ _ => 0x05
  | .hostcmd _ => 0x06
  | .errq => 0x07
  | .errclr => 0x08
  | .dlappend _ _ => 0x09
  | .fifoWord _ _ => 0x0A
  | .fifoCmd _ _ _ => 0x0B
  | .fifoText _ _ _ _ _ _ => 0x0C
  | .fifoPublish _ => 0x0D
  | .fifoWaitEmpty _ => 0x0E
  | .fifoWaitOffset _ _ => 0x0F

/-- The request record of an operation: its op code and exactly the fields it uses (30_encoding.md R109). -/
def encode (i : Instr) : Request :=
  match i with
  | .rd8 a => { Request.blank i.opcode with addr := a }
  | .rd16 a => { Request.blank i.opcode with addr := a }
  | .rd32 a => { Request.blank i.opcode with addr := a }
  | .wr8 a d => { Request.blank i.opcode with addr := a, data := some d }
  | .wr16 a d => { Request.blank i.opcode with addr := a, data := some d }
  | .wr32 a d => { Request.blank i.opcode with addr := a, data := some d }
  | .hostcmd c => { Request.blank i.opcode with data := some c }
  | .errq => Request.blank i.opcode
  | .errclr => Request.blank i.opcode
  | .dlappend o w => { Request.blank i.opcode with off := some o, data := some w }
  | .fifoWord o w => { Request.blank i.opcode with off := o, data := some w }
  | .fifoCmd o c ws => { Request.blank i.opcode with off := o, data := some c, words := ws }
  | .fifoText o x y f opt t =>
    { Request.blank i.opcode with off := o, x := x, y := y, font := f, options := opt, text := t }
  | .fifoPublish v => { Request.blank i.opcode with data := v }
  | .fifoWaitEmpty t => { Request.blank i.opcode with deadline := t }
  | .fifoWaitOffset e t => { Request.blank i.opcode with data := e, deadline := t }

/-- The request that a word of the opcode table stands for: `op` is the word's bits 4 to 0, the only bits of a request to
which the spec gives a place, and every operand is zero. DESIGN CHOICE (safe), log 2. -/
def Request.ofTableWord (_nbits w : Nat) : Request := Request.zero (BitVec.ofNat 5 w)

/-- What the decoder reads from a word of the opcode table (log 2). -/
def decodeTableWord (nbits w : Nat) : Option Instr :=
  match decode (Request.ofTableWord nbits w) with
  | .ok i => some i
  | .error _ => none

/-! ## Transactions on the wire -/

/-- The intent of a memory access (30_encoding.md R101). -/
inductive Intent
  | read
  | write
  deriving DecidableEq, Repr

/-- `INTENT_READ = 0b00`, `INTENT_WRITE = 0b10` (30_encoding.md R101). -/
def Intent.code : Intent → BitVec 2
  | .read => 0b00
  | .write => 0b10

/-- Why the wire decoder refuses a byte list. -/
inductive WireReject
  /-- The intent bits are `0b01` or `0b11` (30_encoding.md R102, R104). -/
  | reservedIntent (code : BitVec 2)
  /-- Zero or two bytes: neither a host command nor a header (R108). DESIGN CHOICE (safe), log 23. -/
  | truncated
  deriving DecidableEq, Repr

/-- The intent of two code bits; `0b01` and `0b11` are reserved (30_encoding.md R102). -/
def decodeIntent (c : BitVec 2) : Except WireReject Intent :=
  match c.toNat with
  | 0 => .ok .read
  | 2 => .ok .write
  | _ => .error (.reservedIntent c)

/-- Header byte 0: `(intent << 6) | addr[21:16]` (30_encoding.md R100, 90_conflicts.md C1). -/
def headerByte0 (a : DevAddr) (i : Intent) : Byte := i.code ++ a.extractLsb' 16 6

/-- Header byte 1: `addr[15:8]` (30_encoding.md R100). -/
def headerByte1 (a : DevAddr) : Byte := a.extractLsb' 8 8

/-- Header byte 2: `addr[7:0]` (30_encoding.md R100). -/
def headerByte2 (a : DevAddr) : Byte := a.extractLsb' 0 8

/-- `hdr(addr, intent)`, most significant byte first (30_encoding.md R103). Its fault on a wider address is raised before,
by the operation (60_exceptions.md R205), so the address here has 22 bits. -/
def hdr (a : DevAddr) (i : Intent) : List Byte := [headerByte0 a i, headerByte1 a, headerByte2 a]

/-- `unhdr([b0, b1, b2])` (30_encoding.md R104). -/
def unhdr (b0 b1 b2 : Byte) : Except WireReject (Intent × DevAddr) :=
  (decodeIntent (b0.extractLsb' 6 2)).map fun i => (i, b0.extractLsb' 0 6 ++ b1 ++ b2)

/-- A transaction as the device reads it from the bytes sent (30_encoding.md R105 to R108). -/
inductive Transaction
  /-- One byte, no header (R107). -/
  | hostCommand (code : Byte)
  /-- A read header and the bytes after it, which the device ignores (R105). -/
  | readAccess (addr : DevAddr) (dummies : List Byte)
  /-- A write header and its payload (R106). -/
  | writeAccess (addr : DevAddr) (payload : List Byte)
  deriving DecidableEq, Repr

/-- The decoder of the wire: the kind comes from the length and from byte 0's intent bits (30_encoding.md R108). -/
def decodeTransaction : List Byte → Except WireReject Transaction
  | [] => .error .truncated
  | [b] => .ok (.hostCommand b)
  | [_, _] => .error .truncated
  | b0 :: b1 :: b2 :: rest =>
    match unhdr b0 b1 b2 with
    | .error e => .error e
    | .ok (.read, a) => .ok (.readAccess a rest)
    | .ok (.write, a) => .ok (.writeAccess a rest)

/-- The bytes of a transaction (30_encoding.md R105, R106, R107). -/
def encodeTransaction : Transaction → List Byte
  | .hostCommand c => [c]
  | .readAccess a ds => hdr a .read ++ ds
  | .writeAccess a p => hdr a .write ++ p

/-- The read header with its dummy bytes, sent in one `TxWrite` (30_encoding.md R105, 40_transactions.md R140). -/
def readRequestBytes (cfg : Cfg) (a : DevAddr) : List Byte :=
  hdr a .read ++ List.replicate cfg.dummyBytes cfg.dummyValue

end Sys2Proof
end

