-- ==== Sys2Proof/Machine/Memory.lean ====
section
/-! DEFINITION. The device memory `DEV` (10_state.md R40, 20_memory.md R60): the written bytes, listed by strictly rising
address. An unlisted address is an unwritten byte, which reads as no value of its own (R86, log 5). -/

namespace Sys2Proof.Machine

/-- The written bytes of the device address space. -/
abbrev Memory := List Host.Cell

namespace Memory

/-- Byte `a` of the device, `none` where it is unwritten (10_state.md R40). -/
def read : Memory → Nat → Option Byte
  | [], _ => none
  | (a', b) :: m, a => if a = a' then some b else read m a

/-- Put byte `b` at address `a`, keeping the addresses strictly rising. -/
def insert : Memory → Nat → Byte → Memory
  | [], a, b => [(a, b)]
  | (a', b') :: m, a, b =>
    if a < a' then (a, b) :: (a', b') :: m
    else if a = a' then (a, b) :: m
    else (a', b') :: insert m a b

/-- `DEV[a] <- b`. There is no byte at or above `2^22` (20_memory.md R60), so a write there changes nothing (log 20). -/
def write (m : Memory) (a : Nat) (b : Byte) : Memory :=
  if a < addrLimit then insert m a b else m

/-- `DEV[a + k] <- bs[k]` for every `k` (20_memory.md R86). -/
def writeBytes : Memory → Nat → List Byte → Memory
  | m, _, [] => m
  | m, a, b :: bs => writeBytes (write m a b) (a + 1) bs

/-- The bytes `a .. a+n-1`, `none` where one is unwritten. -/
def readBytes (m : Memory) (a : Nat) : Nat → List (Option Byte)
  | 0 => []
  | n + 1 => read m a :: readBytes m (a + 1) n

/-- The little-endian value of the `n` bytes at `a` (20_memory.md R66), `none` if one of them is unwritten. -/
def readLE (m : Memory) (a : Nat) : Nat → Option Nat
  | 0 => some 0
  | n + 1 =>
    match read m a, readLE m (a + 1) n with
    | some b, some v => some (b.toNat + 256 * v)
    | _, _ => none

/-- The addresses of `m` rise strictly, start at `lo` or above and stay below `2^22`. -/
def wfFrom : Nat → Memory → Bool
  | _, [] => true
  | lo, (a, _) :: m => decide (lo ≤ a) && decide (a < addrLimit) && wfFrom (a + 1) m

/-- The canonical form of a memory. -/
def wf (m : Memory) : Bool := wfFrom 0 m

end Memory

end Sys2Proof.Machine
end

