-- ==== Sys2Proof/Machine/Setup.lean ====
section
/-! DEFINITION. The construction checks (70_reset_and_hazards.md R220), the device memory the launch premise CLEAN_CHIP
assumes (R222), and the spec's example configuration EX (95_test_vectors.md, Conventions). -/

namespace Sys2Proof.Machine

/-- The labels of the construction checks (70_reset_and_hazards.md R220, 90_conflicts.md C7). -/
inductive Chk
  | chk1
  | chk2
  | chk3
  | chk4
  | chk5
  | chk6
  | chk7
  deriving DecidableEq, Repr

/-- `n` is a power of two (00_scope.md R6). -/
def isPowerOfTwo (n : Nat) : Bool := decide (n ≠ 0) && decide (2 ^ n.log2 = n)

/-- The device ranges `[b, b + n)` share no address. -/
def disjoint (r q : Nat × Nat) : Bool :=
  decide (r.2 = 0) || decide (q.2 = 0) || decide (r.1 + r.2 ≤ q.1) || decide (q.1 + q.2 ≤ r.1)

/-- The device ranges are pairwise disjoint. -/
def pairwiseDisjoint : List (Nat × Nat) → Bool
  | [] => true
  | r :: rs => rs.all (disjoint r) && pairwiseDisjoint rs

/-- The display-list region, when `DL_CAP` is given (20_memory.md R74). -/
def dlRegion (cfg : Cfg) : List (Nat × Nat) :=
  match cfg.dlCap with
  | some n => [(cfg.dlBase, n)]
  | none => []

/-- The regions check CHK5 keeps apart (70_reset_and_hazards.md R220). -/
def regions (cfg : Cfg) : List (Nat × Nat) :=
  (cfg.fifoBase, cfg.fifoCap) :: (cfg.regRP, 4) :: (cfg.regWP, 4) :: dlRegion cfg

/-- CHK1: `FIFO_CAP` is a power of two and at least 4. -/
def chk1 (cfg : Cfg) : Bool := isPowerOfTwo cfg.fifoCap && decide (4 ≤ cfg.fifoCap)

/-- CHK2: `FIFO_BASE + FIFO_CAP <= 2^22`. -/
def chk2 (cfg : Cfg) : Bool := decide (cfg.fifoBase + cfg.fifoCap ≤ addrLimit)

/-- CHK3: `DL_BASE < 2^22`, and `DL_BASE + DL_CAP <= 2^22` when `DL_CAP` is given. -/
def chk3 (cfg : Cfg) : Bool :=
  decide (cfg.dlBase < addrLimit) && (dlRegion cfg).all fun r => decide (r.1 + r.2 ≤ addrLimit)

/-- CHK4: `REG_RP + 3 < 2^22` and `REG_WP + 3 < 2^22`. -/
def chk4 (cfg : Cfg) : Bool := decide (cfg.regRP + 3 < addrLimit) && decide (cfg.regWP + 3 < addrLimit)

/-- CHK5: the regions are pairwise disjoint. -/
def chk5 (cfg : Cfg) : Bool := pairwiseDisjoint (regions cfg)

/-- CHK6: `PTR_WIDTH = 32`. -/
def chk6 (cfg : Cfg) : Bool := decide (cfg.ptrWidth = 32)

/-- CHK7: `PACK_TEXT` returns the same number of words for every argument. -/
def chk7 (cfg : Cfg) : Bool :=
  match cfg.packText with
  | .fixed _ => true
  | .varying _ => false

/-- The first construction check that fails, in the order of 70_reset_and_hazards.md R220. -/
def failedCheck (cfg : Cfg) : Option Chk :=
  if !chk1 cfg then some .chk1
  else if !chk2 cfg then some .chk2
  else if !chk3 cfg then some .chk3
  else if !chk4 cfg then some .chk4
  else if !chk5 cfg then some .chk5
  else if !chk6 cfg then some .chk6
  else if !chk7 cfg then some .chk7
  else none

/-- The chip under the launch premise CLEAN_CHIP: RP and WP hold 0, every other byte is unwritten
(70_reset_and_hazards.md R222, 10_state.md R40). -/
def cleanChip (cfg : Cfg) : Memory :=
  Memory.writeBytes (Memory.writeBytes [] cfg.regRP (leBytes 4 0)) cfg.regWP (leBytes 4 0)

/-- The example configuration EX of 95_test_vectors.md. PRESUMED (unsafe), log 1: the spec leaves these parameters open and
takes the values from general knowledge of the FT81x chips (93_implementation_defined.md K1, K2, K4). -/
def exampleCfg : Cfg :=
  { dummyBytes := 1
    dummyValue := 0x00
    fifoBase := 0x308000
    fifoCap := 4096
    dlBase := 0x300000
    dlCap := some 8192
    regRP := 0x3020F8
    regWP := 0x3020FC
    ptrWidth := 32
    textOpcode := 0xFFFFFF0C
    packText := .fixed [.pair .y .x, .pair .options .font]
    maxTextLen := 255
    atomicPtrRead := true }

end Sys2Proof.Machine
end

