-- ==== Sys2Proof/Machine/State.lean ====
section
/-! DEFINITION. The state of the block, its ghost state, its environment and its request port (10_state.md), the reasons a
step can stop, and the state right after reset (70_reset_and_hazards.md R220). -/

namespace Sys2Proof.Machine

/-! ## Values of the registers and of the result record -/

/-- Why an operation failed (60_exceptions.md R201). -/
inductive Reason
  /-- `E_WRITE(e)`: `TxWrite` returned `err(e)`. -/
  | eWrite (e : TxError)
  /-- `E_READ(e)`: `TxRead` returned `err(e)`. -/
  | eRead (e : TxError)
  /-- `E_SHORT_READ`: `TxRead(n)` returned fewer than `n` bytes and no error. -/
  | eShortRead
  /-- `E_FLUSH(e)`: `TxFlush` returned `err(e)`. -/
  | eFlush (e : TxError)
  deriving DecidableEq, Repr

/-- The error register's value (10_state.md R32). -/
inductive Err
  | ok
  | failed (r : Reason)
  deriving DecidableEq, Repr

/-- A fault kind with the `info` recorded beside it (60_exceptions.md R200). -/
inductive FaultRec
  /-- `F_ADDR_RANGE`: address and length of the transfer. -/
  | addrRange (addr n : Nat)
  /-- `F_OFFSET_RANGE`: the operand. -/
  | offsetRange (v : Nat)
  /-- `F_TEXT_TOO_LONG`: the text's length. -/
  | textTooLong (len : Nat)
  /-- `F_CONFIG`: the failing construction check. -/
  | config (chk : Chk)
  deriving DecidableEq, Repr

/-- The status of a returned operation (60_exceptions.md R202). -/
inductive Status
  | ok
  | err (r : Reason)
  | timeout
  deriving DecidableEq, Repr

/-- The value of a result record (10_state.md R36). -/
inductive Value
  /-- The value a read returns, zero-extended to 32 bits. -/
  | word (v : Word)
  /-- The new offset an append returns. -/
  | offset (o : Nat)
  /-- The content of the error register. -/
  | error (e : Err)
  /-- No value. -/
  | absent
  deriving DecidableEq, Repr

/-- The result record on the request port (10_state.md R36). -/
structure Response where
  status : Status
  value : Value
  deriving DecidableEq, Repr

/-! ## Ghost state (10_state.md R38) -/

/-- The hazard names. -/
inductive Hazard
  | overrun
  | full
  | unwritten
  | rpUnexpected
  | wpReadback
  | ptrAliased
  | dlOverflow
  deriving DecidableEq, Repr

/-- The set `G.haz`, one flag per hazard name. -/
structure Hazards where
  overrun : Bool
  full : Bool
  unwritten : Bool
  rpUnexpected : Bool
  wpReadback : Bool
  ptrAliased : Bool
  dlOverflow : Bool
  deriving DecidableEq, Repr

/-- No hazard has been recorded. -/
def Hazards.none : Hazards := ⟨false, false, false, false, false, false, false⟩

/-- The bookkeeping only the model keeps (10_state.md R38). `dirty` lists the set bits, rising. -/
structure Ghost where
  pubOff : Nat
  lastRP : Nat
  dirty : List Nat
  span : Nat
  haz : Hazards
  deriving DecidableEq, Repr

/-! ## Environment (10_state.md R40) -/

/-- One call on the transport port with its answer (20_memory.md R61). -/
inductive TxCall
  /-- `TxWrite(bs)`. -/
  | write (bs : List Byte) (fails : Option TxError)
  /-- `TxRead(n)` and the bytes it returned. -/
  | read (n : Nat) (got : List Byte) (fails : Option TxError)
  /-- `TxFlush()`. -/
  | flush (fails : Option TxError)
  /-- `TxIrq()`, which the transport offers and no operation calls (20_memory.md R61, 60_exceptions.md R204). -/
  | irq (asserted : Bool) (fails : Option TxError)
  deriving DecidableEq, Repr

/-- What the consumer has read, and what it will read where nothing constrains it (20_memory.md R89, 70_reset_and_hazards.md
R232). -/
structure ConsumerReads where
  /-- The FIFO bytes the consumer has read, with their offsets; `none` is an unwritten byte (log 13). -/
  log : List (Nat × Option Byte)
  /-- The next bytes the consumer reads after a hazard, and the number of bytes drawn (log 25). -/
  draws : List Byte
  drawNo : Nat
  deriving DecidableEq, Repr

/-- What the block meets outside itself: the device memory, the open transaction, the clock, the lists of what the
environment will answer, and the model's logs of what has happened there. -/
structure Env where
  /-- `DEV`. -/
  mem : Memory
  /-- `TX`: the bytes handed to the transport since the last `TxFlush`. -/
  tx : List Byte
  /-- `TX`: whether a failure has occurred in it. -/
  txFailed : Bool
  /-- The last reading of the external clock (43_fifo_sync.md R191). DESIGN CHOICE (safe): a natural number, log 14. -/
  clock : Nat
  /-- What the consumer reads (log 13, log 25). -/
  reads : ConsumerReads
  /-- The transport calls made so far (log 13). -/
  wire : List TxCall
  /-- The consumer's next moves, and the number of moves drawn (log 4). -/
  moves : List Nat
  moveNo : Nat
  /-- The transport's next answers, and the number of calls made (log 4). -/
  calls : List CallDraw
  callNo : Nat
  /-- The next answers of clock and cancel input, and the number drawn (log 4). -/
  ticks : List TickDraw
  tickNo : Nat
  deriving DecidableEq, Repr

/-- The request port (10_state.md R35, R36, R37). -/
structure Port where
  /-- The caller's requests that have not returned; the head is the one on the port. -/
  pending : List Request
  /-- The result records returned so far (log 13). -/
  results : List Response
  deriving DecidableEq, Repr

/-! ## The state -/

/-- Everything the spec gives the machine (10_state.md R43). -/
structure State where
  /-- `CFG`. -/
  cfg : Cfg
  /-- `WOFF`. -/
  woff : Nat
  /-- `ERR`. -/
  err : Err
  /-- `FAULT`. -/
  fault : Option FaultRec
  /-- `REQ_IDX`. -/
  reqIdx : Nat
  /-- `G`. -/
  ghost : Ghost
  /-- The environment. -/
  env : Env
  /-- The request port. -/
  port : Port
  deriving DecidableEq, Repr

/-! ## How a step can stop -/

/-- Why the machine stops. -/
inductive Fault
  /-- The block was halted by an earlier fault and takes no further request (60_exceptions.md R205 item 2, R206). Raised by
  `step`, never by a meaning. Safe: the spec gives a halted block no step. -/
  | halted (f : FaultRec)
  deriving DecidableEq, Repr

/-- Why a request is refused. -/
inductive Refusal
  /-- An instruction that has no meaning yet. Raised by the arms of `exec`. Safe. -/
  | notModelled (mnemonic : String)
  /-- A reserved op code (30_encoding.md R111). Raised by `step`. Safe: the spec refuses it. -/
  | reservedOp (op : BitVec 5)
  /-- An operand too wide for its field (30_encoding.md R113). Raised by `step`. Safe: the spec refuses it. -/
  | operandTooWide
  /-- A required operand is absent. Raised by `step`. Safe: the machine stops (log 17). -/
  | missingOperand
  deriving DecidableEq, Repr

/-! ## Reset -/

/-- The ghost reset values (10_state.md R39). -/
def Ghost.reset : Ghost := { pubOff := 0, lastRP := 0, dirty := [], span := 0, haz := Hazards.none }

/-- The consumer has read nothing (log 13, log 25). -/
def ConsumerReads.reset : ConsumerReads := { log := [], draws := [], drawNo := 0 }

/-- The environment at reset around a given device memory: `TX` empty (10_state.md R40); the clock and the model's lists at
the values of log 4, log 13, log 14 and log 25. -/
def Env.reset (mem : Memory) : Env :=
  { mem := mem, tx := [], txFailed := false, clock := 0, reads := ConsumerReads.reset, wire := [],
    moves := [], moveNo := 0, calls := [], callNo := 0, ticks := [], tickNo := 0 }

/-- Construction, the only reset of the block (70_reset_and_hazards.md R220). It does not touch the chip (R221): `mem` is the
device memory it finds. Where a check fails, the registers R220 then leaves unset hold their reset values all the same
(log 16). -/
def State.construct (cfg : Cfg) (mem : Memory) : State :=
  { cfg := cfg
    woff := 0
    err := .ok
    fault := (failedCheck cfg).map FaultRec.config
    reqIdx := 0
    ghost := Ghost.reset
    env := Env.reset mem
    port := { pending := [], results := [] } }

/-- The machine right after reset: the block constructed with the example configuration (log 1) on a chip that meets the
launch premise CLEAN_CHIP (70_reset_and_hazards.md R222). -/
def State.reset : State := State.construct exampleCfg (cleanChip exampleCfg)

end Sys2Proof.Machine
end

