-- ==== Sys2Proof/Machine/Operands.lean ====
section
/-! DEFINITION. Operand forms: address range (20_memory.md R71), defaults (30_encoding.md R112), and the words of the text
command (R115, R116). -/

namespace Sys2Proof.Machine

/-- The address check of every transfer: the fault if the last of the `n` bytes at `addr` is not below `2^22`
(20_memory.md R71, 40_transactions.md R140). -/
def addrFault (addr n : Nat) : Option FaultRec :=
  if addrLimit ≤ addr + n - 1 then some (.addrRange addr n) else none

/-- The check of an offset operand against the capacity (60_exceptions.md R200). -/
def offsetFault (cfg : Cfg) (v : Nat) : Option FaultRec :=
  if cfg.fifoCap ≤ v then some (.offsetRange v) else none

/-- The check of a text's length (42_fifo_writer.md R173). -/
def textFault (cfg : Cfg) (text : List Byte) : Option FaultRec :=
  if cfg.maxTextLen < text.length then some (.textTooLong text.length) else none

/-- An optional operand that defaults to `WOFF` (30_encoding.md R112). -/
def operandOr (woff : Nat) (v : Option Word) : Nat :=
  match v with
  | some w => w.toNat
  | none => woff

/-- The access width of the pointers in bytes, `PTR_WIDTH / 8` (00_scope.md R5). -/
def ptrBytes (cfg : Cfg) : Nat := cfg.ptrWidth / 8

/-- `textBytes(t)`: the text, then zero bytes up to the smallest multiple of 4 that exceeds its length
(30_encoding.md R115). -/
def textBytes (t : List Byte) : List Byte :=
  t ++ List.replicate (4 * (t.length / 4 + 1) - t.length) 0x00

/-- The words `fromLE(bs[4g .. 4g+3])` of the groups of four bytes (30_encoding.md R115). A last group of fewer bytes, which
`textBytes` never leaves, is dropped. -/
def wordsOfBytes : List Byte → List Word
  | b0 :: b1 :: b2 :: b3 :: rest => BitVec.ofNat 32 (fromLE [b0, b1, b2, b3]) :: wordsOfBytes rest
  | _ => []

/-- The operand a packing names, as 16 bits (30_encoding.md R109, 93_implementation_defined.md K4). -/
def textField (x y : Int) (font options : Nat) : TextField → BitVec 16
  | .x => BitVec.ofInt 16 x
  | .y => BitVec.ofInt 16 y
  | .font => BitVec.ofNat 16 font
  | .options => BitVec.ofNat 16 options

/-- One word of a packing (log 15). -/
def packWord (x y : Int) (font options : Nat) : PackWord → Word
  | .pair hi lo => textField x y font options hi ++ textField x y font options lo
  | .free id =>
    Config.packWord id (textField x y font options .x) (textField x y font options .y)
      (textField x y font options .font) (textField x y font options .options)

/-- `PACK_TEXT(x, y, font, options)` (30_encoding.md R116, log 15). -/
def packText (cfg : Cfg) (x y : Int) (font options : Nat) : List Word :=
  match cfg.packText with
  | .fixed ws => ws.map (packWord x y font options)
  | .varying id =>
    Config.packVarying id (textField x y font options .x) (textField x y font options .y)
      (textField x y font options .font) (textField x y font options .options)

/-- The words of the text command: opcode, packed operands, padded text (42_fifo_writer.md R173). -/
def textWords (cfg : Cfg) (x y : Int) (font options : Nat) (text : List Byte) : List Word :=
  cfg.textOpcode :: packText cfg x y font options ++ wordsOfBytes (textBytes text)

end Sys2Proof.Machine
end

