-- ==== Sys2Proof/Machine/Flags.lean ====
section
/-! DEFINITION. The model-only hazard flags and the bookkeeping that sets them (70_reset_and_hazards.md R225 to R231), and
the codes of statuses, reasons and faults (60_exceptions.md R200 to R202). Every function here acts on the ghost state
alone, so none can change what the block sends or returns (70_reset_and_hazards.md section 2, 10_state.md R38). -/

namespace Sys2Proof.Machine

/-- `hazard(h)`: set the sticky bit of `h` (00_scope.md R10, 70_reset_and_hazards.md R232). -/
def Hazards.set (h : Hazard) (z : Hazards) : Hazards :=
  match h with
  | .overrun => { z with overrun := true }
  | .full => { z with full := true }
  | .unwritten => { z with unwritten := true }
  | .rpUnexpected => { z with rpUnexpected := true }
  | .wpReadback => { z with wpReadback := true }
  | .ptrAliased => { z with ptrAliased := true }
  | .dlOverflow => { z with dlOverflow := true }

/-- Whether the bit of `h` is set. -/
def Hazards.has (z : Hazards) (h : Hazard) : Bool :=
  match h with
  | .overrun => z.overrun
  | .full => z.full
  | .unwritten => z.unwritten
  | .rpUnexpected => z.rpUnexpected
  | .wpReadback => z.wpReadback
  | .ptrAliased => z.ptrAliased
  | .dlOverflow => z.dlOverflow

/-- Whether any hazard has been recorded: from then on the model constrains nothing the consumer reads (70_reset_and_hazards.md
R232). -/
def Hazards.any (z : Hazards) : Bool := decide (z ≠ Hazards.none)

/-- `hazard(h)` where `c` holds. -/
def Ghost.flagIf (c : Bool) (h : Hazard) (g : Ghost) : Ghost :=
  if c then { g with haz := g.haz.set h } else g

/-- Set bit `o` of `G.dirty`, keeping the list rising. -/
def markDirty (o : Nat) : List Nat → List Nat
  | [] => [o]
  | p :: ps => if o < p then o :: p :: ps else if o = p then p :: ps else p :: markDirty o ps

/-- The dirty offsets rise strictly from `lo` and stay below `cap`. -/
def dirtyWfFrom (cap : Nat) : Nat → List Nat → Bool
  | _, [] => true
  | lo, o :: os => decide (lo ≤ o) && decide (o < cap) && dirtyWfFrom cap (o + 1) os

/-- Whether address `a` lies in the FIFO window (20_memory.md R63). -/
def inWindow (cfg : Cfg) (a : Nat) : Bool := decide (cfg.fifoBase ≤ a) && decide (a < cfg.fifoBase + cfg.fifoCap)

/-- `ghostWrite`, part 1, for one byte: a write into the window marks its offset dirty, and is an overrun if the offset is
published and not known to be consumed (70_reset_and_hazards.md R225). -/
def ghostWindowByte (cfg : Cfg) (a : Nat) (g : Ghost) : Ghost :=
  if inWindow cfg a then
    let g := g.flagIf (inRing cfg (a - cfg.fifoBase) g.lastRP g.pubOff) .overrun
    { g with dirty := markDirty (a - cfg.fifoBase) g.dirty }
  else g

/-- `ghostWrite`, part 1, over the bytes `addr .. addr+n-1` (70_reset_and_hazards.md R225). -/
def ghostWindow (cfg : Cfg) (addr : Nat) : Nat → Ghost → Ghost
  | 0, g => g
  | n + 1, g => ghostWindow cfg (addr + 1) n (ghostWindowByte cfg addr g)

/-- `ghostWrite`, part 2: a publish of `v` (70_reset_and_hazards.md R227). -/
def ghostPublish (cfg : Cfg) (v : Nat) (g : Ghost) : Ghost :=
  let d := dist cfg g.pubOff v
  let g1 := g.flagIf ((ringOffsets cfg g.pubOff v).any fun o => !g.dirty.contains o) .unwritten
  let g2 := g1.flagIf (decide (0 < d) && decide (cfg.fifoCap ≤ dist cfg g.lastRP g.pubOff + d)) .full
  { g2 with dirty := g.dirty.filter (fun o => !inRing cfg o g.pubOff v), span := g.span - d, pubOff := v }

/-- A write that `70_reset_and_hazards.md` R227 takes as a full-width write at `REG_WP`. -/
def isWpWrite (cfg : Cfg) (addr n : Nat) : Bool := decide (addr = cfg.regWP) && decide (n = ptrBytes cfg)

/-- The bytes `[a, a + n)` and `[r, r + 4)` share an address. -/
def touches (a n r : Nat) : Bool := decide (a < r + 4) && decide (r < a + n)

/-- The three cases of a pointer alias (70_reset_and_hazards.md R230). -/
def isPtrAliased (cfg : Cfg) (addr n v : Nat) : Bool :=
  touches addr n cfg.regRP
    || (touches addr n cfg.regWP && !isWpWrite cfg addr n)
    || (isWpWrite cfg addr n && decide (cfg.fifoCap ≤ v))

/-- `ghostWrite(addr, n, v)` (70_reset_and_hazards.md R225, R227, R230). -/
def ghostWrite (cfg : Cfg) (addr n v : Nat) (g : Ghost) : Ghost :=
  let g := ghostWindow cfg addr n g
  let g := g.flagIf (isPtrAliased cfg addr n v) .ptrAliased
  if isWpWrite cfg addr n && decide (v < cfg.fifoCap) then ghostPublish cfg v g else g

/-- `ghostRead`, part 1: an observation of RP (70_reset_and_hazards.md R228). -/
def ghostObserveRP (cfg : Cfg) (v : Nat) (g : Ghost) : Ghost :=
  if v < cfg.fifoCap ∧ dist cfg g.lastRP v ≤ dist cfg g.lastRP g.pubOff then { g with lastRP := v }
  else g.flagIf true .rpUnexpected

/-- `ghostRead(addr, n, v)` (70_reset_and_hazards.md R228, R229). -/
def ghostRead (cfg : Cfg) (addr n v : Nat) (g : Ghost) : Ghost :=
  let g := if addr = cfg.regRP ∧ n = ptrBytes cfg then ghostObserveRP cfg v g else g
  g.flagIf (decide (addr = cfg.regWP) && decide (n = ptrBytes cfg) && decide (v ≠ g.pubOff)) .wpReadback

/-- `fifoAppendHook(n)` (70_reset_and_hazards.md R226). -/
def fifoAppendHook (cfg : Cfg) (n : Nat) (g : Ghost) : Ghost :=
  let g := { g with span := g.span + n }
  g.flagIf (decide (cfg.fifoCap ≤ dist cfg g.lastRP g.pubOff + g.span)) .full

/-- `dlOverflowCheck(off)` (70_reset_and_hazards.md R231). -/
def dlOverflowCheck (cfg : Cfg) (off : Nat) (g : Ghost) : Ghost :=
  match cfg.dlCap with
  | some cap => g.flagIf (decide (cap < off + 4)) .dlOverflow
  | none => g

/-! ## Codes (60_exceptions.md R200, R201, R202) -/

/-- The code of a fault kind (60_exceptions.md R200). -/
def FaultRec.code : FaultRec → Nat
  | .addrRange _ _ => 1
  | .offsetRange _ => 2
  | .textTooLong _ => 3
  | .config _ => 4

/-- The code of an error reason (60_exceptions.md R201). -/
def Reason.code : Reason → Nat
  | .eWrite _ => 1
  | .eRead _ => 2
  | .eShortRead => 3
  | .eFlush _ => 4

/-- The code of a status (60_exceptions.md R202). -/
def Status.code : Status → Nat
  | .ok => 0
  | .err _ => 1
  | .timeout => 2

end Sys2Proof.Machine
end

