-- ==== Sys2Proof/Machine/Ops.lean ====
section
/-! DEFINITION. The named operations every meaning is written over: the draws of the environment, the consumer, the transport
calls with the reference device behind them, the framed transactions, the accessor with its latched error, the wrapped FIFO
write, and how an operation ends (returns, raises a fault, or goes on polling). -/

namespace Sys2Proof.Machine

/-! ## Draws of the environment (log 4) -/

/-- The consumer's next move: how far it advances, 0 for no step. -/
def Env.move (e : Env) : Nat := e.moves.headD (Config.move e.moveNo)

/-- Go past the consumer's next move. -/
def Env.popMove (e : Env) : Env := { e with moves := e.moves.tail, moveNo := e.moveNo + 1 }

/-- The transport's next answer. -/
def Env.call (e : Env) : CallDraw := e.calls.headD (Config.callDraw e.callNo)

/-- Go past the transport's next answer. -/
def Env.popCall (e : Env) : Env := { e with calls := e.calls.tail, callNo := e.callNo + 1 }

/-- The next answer of the clock and the cancel input. -/
def Env.tick (e : Env) : TickDraw := e.ticks.headD (Config.tickDraw e.tickNo)

/-- Read the clock and the cancel input: the clock never decreases (43_fifo_sync.md R191). -/
def Env.popTick (e : Env) : Env :=
  { e with ticks := e.ticks.tail, tickNo := e.tickNo + 1, clock := e.clock + e.tick.tick }

/-! ## The consumer (20_memory.md R88, R89)

`loose` says that a hazard has been recorded: what the consumer reads is then any value (70_reset_and_hazards.md R232, log 25). -/

/-- The bytes the device holds at the given FIFO offsets now (20_memory.md R89). -/
def fifoBytes (cfg : Cfg) (m : Memory) (offs : List Nat) : List (Nat × Option Byte) :=
  offs.map fun o => (o, m.read (cfg.fifoBase + o))

/-- The consumer's draw after the next `k`, for a byte it reads after a hazard. -/
def ConsumerReads.draw (rd : ConsumerReads) (k : Nat) : Byte := rd.draws.getD k (Config.consumedByte (rd.drawNo + k))

/-- Any bytes at the given FIFO offsets: the consumer's draws, from number `k` on. -/
def drawnBytes (rd : ConsumerReads) : Nat → List Nat → List (Nat × Option Byte)
  | _, [] => []
  | k, o :: os => (o, some (rd.draw k)) :: drawnBytes rd (k + 1) os

/-- The consumer reads the bytes at the given FIFO offsets: those the device holds (20_memory.md R89), or after a hazard any
bytes, the old one, the new one or another, each drawn afresh (20_memory.md R83, 93_implementation_defined.md I7, log 25). -/
def ConsumerReads.take (cfg : Cfg) (loose : Bool) (m : Memory) (offs : List Nat) (rd : ConsumerReads) : ConsumerReads :=
  if loose then
    { log := rd.log ++ drawnBytes rd 0 offs, draws := rd.draws.drop offs.length, drawNo := rd.drawNo + offs.length }
  else { rd with log := rd.log ++ fifoBytes cfg m offs }

/-- A step of the consumer by `n` bytes, taken only when it is enabled: `r != w`, `w < FIFO_CAP` and
`0 < n <= dist(r, w)` (20_memory.md R88). A consumer whose pointer registers hold an unwritten byte takes no step (log 7). -/
def consumerStep (cfg : Cfg) (loose : Bool) (n : Nat) (e : Env) : Env :=
  match e.mem.readLE cfg.regRP 4, e.mem.readLE cfg.regWP 4 with
  | some r, some w =>
    if r ≠ w ∧ w < cfg.fifoCap ∧ 0 < n ∧ n ≤ dist cfg r w then
      { e with
        mem := e.mem.writeBytes cfg.regRP (leBytes 4 (red cfg (r + n)))
        reads := e.reads.take cfg loose e.mem (ringOffsets cfg r (red cfg (r + n))) }
    else e
  | _, _ => e

/-- A point between two transport calls, at which the consumer may step (20_memory.md R88, log 6). -/
def Env.gap (cfg : Cfg) (loose : Bool) (e : Env) : Env := consumerStep cfg loose e.move e.popMove

/-! ## The reference device (20_memory.md R86, R87) -/

/-- What the bytes of a successful transaction do to the device at its `TxFlush`: a write commits its whole payload, anything
else changes nothing (20_memory.md R86, R92). -/
def deviceCommit (tx : List Byte) (m : Memory) : Memory :=
  match decodeTransaction tx with
  | .ok (.writeAccess a p) => m.writeBytes a.toNat p
  | .ok (.readAccess _ _) => m
  | .ok (.hostCommand _) => m
  | .error _ => m

/-- What the bytes of a failed transaction have done to the device: a write has committed some prefix of the payload handed
over so far (20_memory.md R87, log 8). -/
def deviceCommitPrefix (n : Nat) (tx : List Byte) (m : Memory) : Memory :=
  match decodeTransaction tx with
  | .ok (.writeAccess a p) => m.writeBytes a.toNat (p.take n)
  | .ok (.readAccess _ _) => m
  | .ok (.hostCommand _) => m
  | .error _ => m

/-- Byte `k` of a read made with answer `d` as call number `callNo`: the device's byte, or a draw if it is unwritten
(20_memory.md R86, log 5). -/
def drawnByte (d : CallDraw) (callNo k : Nat) (b : Option Byte) : Byte :=
  match b with
  | some v => v
  | none => d.fill.getD k (Config.unwrittenByte callNo k)

/-- The bytes `A .. A+n-1` of the device at the time of the call. Position `k` is where they stand in the answer. -/
def deviceBytes (d : CallDraw) (callNo : Nat) (m : Memory) (a : Nat) : Nat → Nat → List Byte
  | _, 0 => []
  | k, n + 1 => drawnByte d callNo k (m.read (a + k)) :: deviceBytes d callNo m a (k + 1) n

/-- The environments the consumer passes through while it makes the given moves, the first one first. -/
def consumerStates (cfg : Cfg) (loose : Bool) : List Nat → Env → List Env
  | [], e => [e]
  | n :: ns, e => e :: consumerStates cfg loose ns (consumerStep cfg loose n e)

/-- The environment after the given moves of the consumer. -/
def consumerMoves (cfg : Cfg) (loose : Bool) : List Nat → Env → Env
  | [], e => e
  | n :: ns, e => consumerMoves cfg loose ns (consumerStep cfg loose n e)

/-- The bytes of a pointer read that may tear: byte `k` comes from the consumer state `picks[k]`, any state within the call
(20_memory.md R91, log 18). -/
def tornBytes (d : CallDraw) (callNo : Nat) (states : List Env) (last : Env) (a : Nat) : Nat → Nat → List Byte
  | _, 0 => []
  | k, n + 1 =>
    drawnByte d callNo k ((states.getD (d.picks.getD k 0) last).mem.read (a + k))
      :: tornBytes d callNo states last a (k + 1) n

/-- Whether a read of `n` bytes at `a` may tear: a read of `REG_RP` at width `PTR_WIDTH` with `ATOMIC_PTR_READ` false
(20_memory.md R91). -/
def mayTear (cfg : Cfg) (a n : Nat) : Bool :=
  !cfg.atomicPtrRead && decide (a = cfg.regRP) && decide (n = ptrBytes cfg)

/-- The device's answer to `TxRead(n)` after the bytes `tx`: its bytes, and the environment after whatever the consumer did
within the call (20_memory.md R86, R91). After bytes that are no read header it answers nothing, which no operation asks
for. -/
def deviceRead (cfg : Cfg) (loose : Bool) (d : CallDraw) (tx : List Byte) (n : Nat) (e : Env) : List Byte × Env :=
  match decodeTransaction tx with
  | .ok (.readAccess a _) =>
    if mayTear cfg a.toNat n then
      (tornBytes d e.callNo (consumerStates cfg loose d.during e) (consumerMoves cfg loose d.during e) a.toNat 0 n,
        consumerMoves cfg loose d.during e)
    else (deviceBytes d e.callNo e.mem a.toNat 0 n, e)
  | .ok (.writeAccess _ _) => ([], e)
  | .ok (.hostCommand _) => ([], e)
  | .error _ => ([], e)

/-! ## Transport calls (20_memory.md R61, R62, R84) -/

/-- The bytes of the transaction a call belongs to: after a transaction that failed and was never closed, the device starts
afresh (20_memory.md R87, log 9). -/
def Env.openTx (e : Env) : List Byte := if e.txFailed then [] else e.tx

/-- Log a transport call and go past its answer. -/
def Env.logCall (c : TxCall) (e : Env) : Env := { e.popCall with wire := e.wire ++ [c] }

/-- `TxWrite(bs)`: the bytes are held by the transport; a failure may have committed a prefix of the payload
(00_scope.md R10, 20_memory.md R62, R87). -/
def txWrite (cfg : Cfg) (loose : Bool) (bs : List Byte) (e0 : Env) : Option TxError × Env :=
  let e := e0.gap cfg loose
  let tx := e.openTx ++ bs
  match e.call.fails with
  | none => (none, { e.logCall (.write bs none) with tx := tx, txFailed := false })
  | some x =>
    (some x, { e.logCall (.write bs (some x)) with
      tx := tx, txFailed := true, mem := deviceCommitPrefix e.call.commit tx e.mem })

/-- `TxFlush()`: closes the transaction, and the device commits it (20_memory.md R62, R86, R87). -/
def txFlush (cfg : Cfg) (loose : Bool) (e0 : Env) : Option TxError × Env :=
  let e := e0.gap cfg loose
  match e.call.fails with
  | none => (none, { e.logCall (.flush none) with tx := [], txFailed := false, mem := deviceCommit e.openTx e.mem })
  | some x =>
    (some x, { e.logCall (.flush (some x)) with
      tx := e.openTx, txFailed := true, mem := deviceCommitPrefix e.call.commit e.openTx e.mem })

/-- Why a `TxRead(n)` that returned `got` without an error does not count: too few bytes (60_exceptions.md R201). -/
def shortRead (n : Nat) (got : List Byte) : Bool := decide (got.length < n)

/-- `TxRead(n)`: the bytes received, which may be fewer than `n`, and the error, if any (00_scope.md R10, 20_memory.md R86). The
bytes that come with an error are any bytes (log 4). A failed or short read leaves the transaction failed. -/
def txRead (cfg : Cfg) (loose : Bool) (n : Nat) (e0 : Env) : (List Byte × Option TxError) × Env :=
  let e := e0.gap cfg loose
  match e.call.fails with
  | none =>
    let r := deviceRead cfg loose e.call e.openTx n e
    let got := match e.call.count with
      | some k => r.1.take k
      | none => r.1
    ((got, none), { r.2.logCall (.read n got none) with tx := e.openTx, txFailed := shortRead n got })
  | some x =>
    let got := e.call.fill.take n
    ((got, some x), { e.logCall (.read n got (some x)) with tx := e.openTx, txFailed := true })

/-! ## Framed transactions (30_encoding.md R105, R106, R107; 40_transactions.md R140)

Each issues its calls in order and stops at the first failure, with no further call and no flush (40_transactions.md R140). -/

/-- Close a transaction: the reason of failure, if any. -/
def closeTx (cfg : Cfg) (loose : Bool) (e : Env) : Option Reason × Env :=
  let r := txFlush cfg loose e
  (r.1.map .eFlush, r.2)

/-- A write transaction: header, payload, flush. -/
def sendWrite (cfg : Cfg) (loose : Bool) (a : DevAddr) (payload : List Byte) (e : Env) : Option Reason × Env :=
  let r1 := txWrite cfg loose (hdr a .write) e
  match r1.1 with
  | some x => (some (.eWrite x), r1.2)
  | none =>
    let r2 := txWrite cfg loose payload r1.2
    match r2.1 with
    | some x => (some (.eWrite x), r2.2)
    | none => closeTx cfg loose r2.2

/-- A host-command transaction: one byte, flush. -/
def sendCommand (cfg : Cfg) (loose : Bool) (code : Byte) (e : Env) : Option Reason × Env :=
  let r1 := txWrite cfg loose [code] e
  match r1.1 with
  | some x => (some (.eWrite x), r1.2)
  | none => closeTx cfg loose r1.2

/-- A read transaction: header with dummy bytes, response, flush. -/
def sendRead (cfg : Cfg) (loose : Bool) (a : DevAddr) (n : Nat) (e : Env) : Except Reason (List Byte) × Env :=
  let r1 := txWrite cfg loose (readRequestBytes cfg a) e
  match r1.1 with
  | some x => (.error (.eWrite x), r1.2)
  | none =>
    let r2 := txRead cfg loose n r1.2
    match r2.1.2 with
    | some x => (.error (.eRead x), r2.2)
    | none =>
      if shortRead n r2.1.1 then (.error .eShortRead, r2.2)
      else
        let r3 := closeTx cfg loose r2.2
        match r3.1 with
        | some reason => (.error reason, r3.2)
        | none => (.ok r2.1.1, r3.2)

/-! ## The error register (40_transactions.md R141) -/

/-- `latch(r)`: `ERR` is set only from `Ok`; the first failure wins (40_transactions.md R141). -/
def State.latch (r : Reason) (s : State) : State :=
  match s.err with
  | .ok => { s with err := .failed r }
  | .failed _ => s

/-- `ERR(S.ERR.reason)` while an error is latched, `OK` otherwise (42_fifo_writer.md R172). -/
def Err.status : Err → Status
  | .ok => .ok
  | .failed r => .err r

/-- Latch a failure and return `ERR(S.ERR.reason)` (40_transactions.md R140). -/
def State.failWith (r : Reason) (s : State) : Status × State := ((s.latch r).err.status, s.latch r)

/-- The return from an error: `S.ERR <- Ok`, and nothing else (40_transactions.md R150, 60_exceptions.md R208). -/
def State.clearErr (s : State) : State := { s with err := .ok }

/-! ## The accessor (40_transactions.md R140) -/

/-- Send a transaction and latch its failure. -/
def State.accessed (r : Option Reason × Env) (s : State) : Status × State :=
  match r.1 with
  | none => (.ok, { s with env := r.2 })
  | some reason => { s with env := r.2 }.failWith reason

/-- `doWrite(addr, n, v)` after its address check (40_transactions.md R140). The check itself, `addrFault`, is made by the
operation before its first transport call (60_exceptions.md R205 item 3, log 10). -/
def doWrite (addr n v : Nat) (s : State) : Status × State :=
  match s.err with
  | .failed r => (.err r, s)
  | .ok =>
    let s1 := { s with ghost := ghostWrite s.cfg addr n v s.ghost }
    s1.accessed (sendWrite s.cfg s1.ghost.haz.any (BitVec.ofNat 22 addr) (leBytes n v) s1.env)

/-- `doRead(addr, n)` after its address check (40_transactions.md R140, log 10). -/
def doRead (addr n : Nat) (s : State) : (Status × Word) × State :=
  match s.err with
  | .failed r => ((.err r, 0), s)
  | .ok =>
    let r := sendRead s.cfg s.ghost.haz.any (BitVec.ofNat 22 addr) n s.env
    match r.1 with
    | .error reason =>
      let f := { s with env := r.2 }.failWith reason
      ((f.1, 0), f.2)
    | .ok got =>
      ((.ok, BitVec.ofNat 32 (fromLE got)),
        { s with env := r.2, ghost := ghostRead s.cfg addr n (fromLE got) s.ghost })

/-- The body of `HOSTCMD` (40_transactions.md R148). -/
def doCommand (code : Byte) (s : State) : Status × State :=
  match s.err with
  | .failed r => (.err r, s)
  | .ok => s.accessed (sendCommand s.cfg s.ghost.haz.any code s.env)

/-! ## The wrapped FIFO write (42_fifo_writer.md R170) -/

/-- How many of `n` bytes from offset `o` fit before the end of the window. -/
def tailLength (cfg : Cfg) (o n : Nat) : Nat := min n (cfg.fifoCap - o)

/-- `writeWrapped(o, bs)`: the tail bytes at `FIFO_BASE + o`, then, if the write crosses the end, the rest at `FIFO_BASE`
(42_fifo_writer.md R170). No address check can fail here: the configuration keeps the window inside the 22-bit space. -/
def writeWrapped (o : Nat) (bs : List Byte) (s : State) : Status × State :=
  let j := tailLength s.cfg o bs.length
  let r := doWrite (s.cfg.fifoBase + o) j (fromLE (bs.take j)) s
  if j < bs.length then
    match r.1 with
    | .ok => doWrite s.cfg.fifoBase (bs.length - j) (fromLE (bs.drop j)) r.2
    | .err x => (.err x, r.2)
    | .timeout => (.timeout, r.2)
  else r

/-- The FIFO offset after the one that `o` reduces to (42_fifo_writer.md R171). -/
def nextOffset (cfg : Cfg) (o : Nat) : Nat := red cfg (o + 4)

/-- Append one word at offset `o`: the hook, then the wrapped write (42_fifo_writer.md R171). -/
def appendWord (o : Nat) (w : Word) (s : State) : Status × State :=
  writeWrapped o (leBytes 4 w.toNat) { s with ghost := fifoAppendHook s.cfg 4 s.ghost }

/-- Append words in order from offset `o`; after a failure the later ones are poisoned no-ops (42_fifo_writer.md R172). -/
def appendWords : List Word → Nat → State → Nat × State
  | [], o, s => (o, s)
  | w :: ws, o, s => appendWords ws (nextOffset s.cfg o) (appendWord o w s).2

/-! ## Polling (43_fifo_sync.md R190, R191) -/

/-- `pollPtr(reg)`: one read transaction of a pointer register (43_fifo_sync.md R190). -/
def pollPtr (reg : Nat) (s : State) : (Status × Word) × State := doRead reg (ptrBytes s.cfg) s

/-- `expired()`, decided by the clock's and the cancel input's present answer (43_fifo_sync.md R191). -/
def Env.expired (deadline : Option Nat) (e : Env) : Bool :=
  e.tick.cancel || match deadline with
    | some t => decide (t ≤ e.clock + e.tick.tick)
    | none => false

/-! ## How an operation ends -/

/-- An operation returns: its result record appears on the port, `REQ_IDX` advances by one, and the port offers the next
request (10_state.md R35, R36, R37). -/
def State.complete (st : Status) (v : Value) (s : State) : State :=
  { s with
    reqIdx := s.reqIdx + 1
    port := { pending := s.port.pending.tail, results := s.port.results ++ [{ status := st, value := v }] } }

/-- `raise Fault(kind)`: `S.FAULT <- Faulted(kind, info)`, from `None` only, and nothing else: no byte is sent, `REQ_IDX` stays
at the faulting request (60_exceptions.md R200, R206). -/
def State.raiseFault (f : FaultRec) (s : State) : State :=
  match s.fault with
  | none => { s with fault := some f }
  | some _ => s

/-- Make a fault check first; if it passes, go on (60_exceptions.md R205 item 3). -/
def checked (f : Option FaultRec) (s : State) (body : State) : Host.Outcome State Fault Refusal :=
  match f with
  | some x => .next (s.raiseFault x)
  | none => .next body

/-- Return a status and no value. -/
def returnStatus (r : Status × State) : State := r.2.complete r.1 .absent

/-- Return a status and the value read (40_transactions.md R142). -/
def returnRead (r : (Status × Word) × State) : State := r.2.complete r.1.1 (.word r.1.2)

/-- A wait tests its bound after a poll that did not meet its condition: it returns `TIMEOUT`, or it has not returned and polls
again at the next step, `REQ_IDX` unmoved (43_fifo_sync.md R191, 10_state.md R35, log 12). -/
def pollAgain (deadline : Option Nat) (s : State) : State :=
  let s1 := { s with env := s.env.popTick }
  if s.env.expired deadline then s1.complete .timeout .absent else s1

end Sys2Proof.Machine
end

