-- ==== Sys2Proof/Machine/DisplayList.lean ====
section
/-! DEFINITION. The display-list writer (41_display_list.md): DLAPPEND. -/

namespace Sys2Proof.Machine

/-- The device address of display-list offset `off`: no offset is reduced (20_memory.md R64, 41_display_list.md R161). -/
def dlAddr (cfg : Cfg) (off : Nat) : Nat := cfg.dlBase + off

/-- `DLAPPEND`: one 4-byte write at `DL_BASE + off`; returns `off + 4` in every case that does not fault
(41_display_list.md R160). -/
def execDlappend (off word : Word) (s : State) : Host.Outcome State Fault Refusal :=
  let r := doWrite (dlAddr s.cfg off.toNat) 4 word.toNat
    { s with ghost := dlOverflowCheck s.cfg off.toNat s.ghost }
  checked (addrFault (dlAddr s.cfg off.toNat) 4) s (r.2.complete r.1 (.offset (off.toNat + 4)))

end Sys2Proof.Machine
end

