-- ==== Sys2Proof/Machine/FifoSync.lean ====
section
/-! DEFINITION. Polled synchronization (43_fifo_sync.md): FIFO_WAIT_EMPTY, FIFO_WAIT_OFFSET. One step is one pass of the
polling loop: a wait that has not returned leaves its request on the port, and the next step runs it again, which is the
next pass, because a pass that goes on leaves `ERR` and `WOFF` as they were (log 12). -/

namespace Sys2Proof.Machine

/-- One pass of the loop of `FIFO_WAIT_EMPTY`: RP, then WP, then the comparison, then the bound (43_fifo_sync.md R192). -/
def waitEmptyPass (deadline : Option Nat) (s : State) : State :=
  let p := pollPtr s.cfg.regRP s
  match p.1.1 with
  | .ok =>
    let q := pollPtr p.2.cfg.regWP p.2
    match q.1.1 with
    | .ok => if p.1.2 = q.1.2 then q.2.complete .ok .absent else pollAgain deadline q.2
    | .err x => q.2.complete (.err x) .absent
    | .timeout => q.2.complete .timeout .absent
  | .err x => p.2.complete (.err x) .absent
  | .timeout => p.2.complete .timeout .absent

/-- One pass of the loop of `FIFO_WAIT_OFFSET`: RP, then the comparison, then the bound (43_fifo_sync.md R193). -/
def waitOffsetPass (expected : Nat) (deadline : Option Nat) (s : State) : State :=
  let p := pollPtr s.cfg.regRP s
  match p.1.1 with
  | .ok => if p.1.2.toNat = expected then p.2.complete .ok .absent else pollAgain deadline p.2
  | .err x => p.2.complete (.err x) .absent
  | .timeout => p.2.complete .timeout .absent

/-- A wait that is poisoned returns `ERR(original)` at once and does not poll (43_fifo_sync.md R192, R193). -/
def unlessPoisoned (s : State) (pass : State) : State :=
  match s.err with
  | .failed r => s.complete (.err r) .absent
  | .ok => pass

/-- `FIFO_WAIT_EMPTY` (43_fifo_sync.md R192). -/
def execFifoWaitEmpty (deadline : Option Nat) (s : State) : Host.Outcome State Fault Refusal :=
  .next (unlessPoisoned s (waitEmptyPass deadline s))

/-- `FIFO_WAIT_OFFSET` (43_fifo_sync.md R193). -/
def execFifoWaitOffset (expected : Option Word) (deadline : Option Nat) (s : State) :
    Host.Outcome State Fault Refusal :=
  checked (offsetFault s.cfg (operandOr s.woff expected)) s
    (unlessPoisoned s (waitOffsetPass (operandOr s.woff expected) deadline s))

end Sys2Proof.Machine
end

