-- ==== Sys2Proof/Machine/FifoWriter.lean ====
section
/-! DEFINITION. The command-FIFO writer (42_fifo_writer.md): FIFO_WORD, FIFO_CMD, FIFO_TEXT, FIFO_PUBLISH. -/

namespace Sys2Proof.Machine

/-- The offset an append starts at: its operand or `WOFF`, reduced (42_fifo_writer.md R171, 30_encoding.md R112). -/
def startOffset (off : Option Word) (s : State) : Nat := red s.cfg (operandOr s.woff off)

/-- An append returns: `S.WOFF <- o`, and the new offset is its value (42_fifo_writer.md R171, R172). -/
def returnAppend (st : Status) (o : Nat) (s : State) : State := { s with woff := o }.complete st (.offset o)

/-- Append words and return (42_fifo_writer.md R172, R173). -/
def appendAll (off : Option Word) (ws : List Word) (s : State) : State :=
  let r := appendWords ws (startOffset off s) s
  returnAppend r.2.err.status r.1 r.2

/-- `FIFO_WORD` (42_fifo_writer.md R171). -/
def execFifoWord (off : Option Word) (word : Word) (s : State) : Host.Outcome State Fault Refusal :=
  let r := appendWord (startOffset off s) word s
  .next (returnAppend r.1 (nextOffset s.cfg (startOffset off s)) r.2)

/-- `FIFO_CMD` (42_fifo_writer.md R172). -/
def execFifoCmd (off : Option Word) (opcode : Word) (words : List Word) (s : State) : Host.Outcome State Fault Refusal :=
  .next (appendAll off (opcode :: words) s)

/-- `FIFO_TEXT` (42_fifo_writer.md R173). -/
def execFifoText (off : Option Word) (x y : Int) (font options : Nat) (text : List Byte) (s : State) :
    Host.Outcome State Fault Refusal :=
  checked (textFault s.cfg text) s (appendAll off (textWords s.cfg x y font options text) s)

/-- `FIFO_PUBLISH`: writes the offset to `REG_WP`, and leaves `WOFF` (42_fifo_writer.md R174). -/
def execFifoPublish (value : Option Word) (s : State) : Host.Outcome State Fault Refusal :=
  checked (offsetFault s.cfg (operandOr s.woff value)) s
    (returnStatus (doWrite s.cfg.regWP (ptrBytes s.cfg) (operandOr s.woff value) s))

end Sys2Proof.Machine
end

