-- ==== Sys2Proof/Machine/Transactions.lean ====
section
/-! DEFINITION. Framed transactions and the error register (40_transactions.md): RD8, RD16, RD32, WR8, WR16, WR32, HOSTCMD,
ERRQ, ERRCLR. -/

namespace Sys2Proof.Machine

/-- A read of `n` bytes (40_transactions.md R142 to R144). -/
def readOp (n : Nat) (addr : Word) (s : State) : Host.Outcome State Fault Refusal :=
  checked (addrFault addr.toNat n) s (returnRead (doRead addr.toNat n s))

/-- A write of the low `n` bytes of `data` (40_transactions.md R145 to R147). -/
def writeOp (n : Nat) (addr data : Word) (s : State) : Host.Outcome State Fault Refusal :=
  checked (addrFault addr.toNat n) s (returnStatus (doWrite addr.toNat n data.toNat s))

/-- `RD8` (40_transactions.md R142). -/
def execRd8 (addr : Word) (s : State) : Host.Outcome State Fault Refusal := readOp 1 addr s

/-- `RD16` (40_transactions.md R143). -/
def execRd16 (addr : Word) (s : State) : Host.Outcome State Fault Refusal := readOp 2 addr s

/-- `RD32` (40_transactions.md R144). -/
def execRd32 (addr : Word) (s : State) : Host.Outcome State Fault Refusal := readOp 4 addr s

/-- `WR8` (40_transactions.md R145). -/
def execWr8 (addr data : Word) (s : State) : Host.Outcome State Fault Refusal := writeOp 1 addr data s

/-- `WR16` (40_transactions.md R146). -/
def execWr16 (addr data : Word) (s : State) : Host.Outcome State Fault Refusal := writeOp 2 addr data s

/-- `WR32` (40_transactions.md R147). -/
def execWr32 (addr data : Word) (s : State) : Host.Outcome State Fault Refusal := writeOp 4 addr data s

/-- `HOSTCMD` (40_transactions.md R148). -/
def execHostcmd (code : Word) (s : State) : Host.Outcome State Fault Refusal :=
  .next (returnStatus (doCommand (code.setWidth 8) s))

/-- `ERRQ`: returns the error register and leaves it (40_transactions.md R149). -/
def execErrq (s : State) : Host.Outcome State Fault Refusal := .next (s.complete .ok (.error s.err))

/-- `ERRCLR`: clears the error register (40_transactions.md R150). -/
def execErrclr (s : State) : Host.Outcome State Fault Refusal := .next (s.clearErr.complete .ok .absent)

end Sys2Proof.Machine
end

