-- ==== Sys2Proof/Machine/Dispatch.lean ====
section
/-! DEFINITION. The dispatch from an instruction to its meaning: one arm per constructor. -/

namespace Sys2Proof.Machine

def exec (i : Instr) (s : State) : Host.Outcome State Fault Refusal :=
  match i with
  | .rd8 addr => Sys2Proof.Machine.execRd8 addr s
  | .rd16 addr => Sys2Proof.Machine.execRd16 addr s
  | .rd32 addr => Sys2Proof.Machine.execRd32 addr s
  | .wr8 addr data => Sys2Proof.Machine.execWr8 addr data s
  | .wr16 addr data => Sys2Proof.Machine.execWr16 addr data s
  | .wr32 addr data => Sys2Proof.Machine.execWr32 addr data s
  | .hostcmd code => Sys2Proof.Machine.execHostcmd code s
  | .errq => Sys2Proof.Machine.execErrq s
  | .errclr => Sys2Proof.Machine.execErrclr s
  | .dlappend off word => Sys2Proof.Machine.execDlappend off word s
  | .fifoWord off word => Sys2Proof.Machine.execFifoWord off word s
  | .fifoCmd off opcode words => Sys2Proof.Machine.execFifoCmd off opcode words s
  | .fifoText off x y font options text => Sys2Proof.Machine.execFifoText off x y font options text s
  | .fifoPublish value => Sys2Proof.Machine.execFifoPublish value s
  | .fifoWaitEmpty deadline => Sys2Proof.Machine.execFifoWaitEmpty deadline s
  | .fifoWaitOffset expected deadline => Sys2Proof.Machine.execFifoWaitOffset expected deadline s

end Sys2Proof.Machine
end

