-- ==== Sys2Proof/Machine/Fetch.lean ====
section
/-! DEFINITION. What `step` does around `exec`: taking the request the port offers, refusing it, and the idle block. -/

namespace Sys2Proof.Machine

/-- The refusal of a request the decoder rejects (60_exceptions.md R203). -/
def refusalOf : Reject → Refusal
  | .reservedOp op => .reservedOp op
  | .operandTooWide => .operandTooWide
  | .missingOperand => .missingOperand

/-- The request the port offers now (10_state.md R37). -/
def fetch (s : State) : Option Request := s.port.pending.head?

/-- The state after the consumer has had its turn at the end of a step (20_memory.md R88, log 6). -/
def State.between (s : State) : State := { s with env := s.env.gap s.cfg s.ghost.haz.any }

/-- After an operation the consumer may step once more, before the next request is taken: R88 lets it step at any point between
two transport calls, the last of one operation and the first of the next among them (log 6). -/
def thenConsumer (r : Host.Outcome State Fault Refusal) : Host.Outcome State Fault Refusal :=
  match r with
  | .next t => .next t.between
  | .fault f => .fault f
  | .refused x => .refused x

/-- With no request on the port the block does nothing (70_reset_and_hazards.md R220); the consumer may still step
(20_memory.md R88, log 6). A halted block has no step (60_exceptions.md R206). -/
def idle (s : State) : Host.Outcome State Fault Refusal :=
  match s.fault with
  | some f => .fault (.halted f)
  | none => .next s.between

/-- The state with a request placed where the port offers it next. -/
def placeRequest (r : Request) (s : State) : State :=
  { s with port := { s.port with pending := r :: s.port.pending.tail } }

end Sys2Proof.Machine
end

