-- ==== Sys2Proof/Machine/Step.lean ====
section
/-! DEFINITION. One step of the machine, in the order of 60_exceptions.md R205: a refusal at decode, a halted block, then the
operation, then the consumer's turn. -/

namespace Sys2Proof.Machine

/-- One step: the block takes the request on its port and runs it (10_state.md R37, 60_exceptions.md R205), and the consumer may
step after it (20_memory.md R88, log 6). -/
def step (s : State) : Host.Outcome State Fault Refusal :=
  match fetch s with
  | none => idle s
  | some r =>
    match decode r with
    | .error e => .refused (refusalOf e)
    | .ok i =>
      match s.fault with
      | some f => .fault (.halted f)
      | none => thenConsumer (exec i s)

/-- `s` with the request an opcode-table word stands for on the port (log 2, log 3). -/
def State.withFetchWord (s : State) (nbits w : Nat) : State := placeRequest (Request.ofTableWord nbits w) s

end Sys2Proof.Machine
end

