-- ==== Sys2Proof/Safety.lean ====
section
/-! DEFINITION. The words claims are stated in: the invariant of the block, what counts as a clean end of a run, the premises a
claim takes about the chip and the transport, and where an operation may store. -/

namespace Sys2Proof.Machine

/-! ## The pointer registers and the window (10_state.md R40) -/

/-- The value of the chip's RP register, `none` if one of its bytes is unwritten. -/
def State.rp (s : State) : Option Nat := s.env.mem.readLE s.cfg.regRP 4

/-- The value of the chip's WP register, `none` if one of its bytes is unwritten. -/
def State.wp (s : State) : Option Nat := s.env.mem.readLE s.cfg.regWP 4

/-- Address `x` is a byte of the range `[a, a + n)`. -/
def within (a n x : Nat) : Prop := a ≤ x ∧ x < a + n

/-- Address `x` is a byte of the RP register, the only bytes the consumer writes (20_memory.md R88). -/
def onRP (cfg : Cfg) (x : Nat) : Prop := within cfg.regRP 4 x

/-- Address `x` is a byte of the WP register. -/
def onWP (cfg : Cfg) (x : Nat) : Prop := within cfg.regWP 4 x

/-- Address `x` is a byte of the FIFO window (20_memory.md R63). -/
def onWindow (cfg : Cfg) (x : Nat) : Prop := within cfg.fifoBase cfg.fifoCap x

/-- The device address of byte `k` of a word appended at offset `o`: no byte leaves the window (42_fifo_writer.md R175). -/
def fifoAddr (cfg : Cfg) (o k : Nat) : Nat := cfg.fifoBase + red cfg (o + k)

/-! ## The transport's answers -/

/-- The answer the transport will give to the call after the next `k`. -/
def Env.peekCall (e : Env) (k : Nat) : CallDraw := e.calls.getD k (Config.callDraw (e.callNo + k))

/-- The answer of the clock and the cancel input after the next `k`. -/
def Env.peekTick (e : Env) (k : Nat) : TickDraw := e.ticks.getD k (Config.tickDraw (e.tickNo + k))

/-- How far the consumer will be asked to move after the next `k` moves. -/
def Env.peekMove (e : Env) (k : Nat) : Nat := e.moves.getD k (Config.move (e.moveNo + k))

/-- What the clock will read after its next `k` readings (43_fifo_sync.md R191). -/
def Env.clockAfter (e : Env) : Nat → Nat
  | 0 => e.clock
  | k + 1 => e.clockAfter k + (e.peekTick k).tick

/-- A call that returns `ok`, and a `TxRead` all of whose bytes arrive. -/
def succeeds (d : CallDraw) : Prop := d.fails = none ∧ d.count = none

/-- The transport answers the next `n` calls with success. -/
def Env.works (n : Nat) (e : Env) : Prop := ∀ k < n, succeeds (e.peekCall k)

/-! ## What an operation puts on the transport port

Each relation lists the calls of one transaction, cut after the first failure (40_transactions.md R140), with the reason
latched for it. -/

/-- The calls of a write transaction with header `h` and payload `p` (30_encoding.md R106). -/
inductive WriteTrace (h p : List Byte) : Option Reason → List TxCall → Prop
  | headerFails (x : TxError) : WriteTrace h p (some (.eWrite x)) [.write h (some x)]
  | payloadFails (x : TxError) : WriteTrace h p (some (.eWrite x)) [.write h none, .write p (some x)]
  | flushFails (x : TxError) : WriteTrace h p (some (.eFlush x)) [.write h none, .write p none, .flush (some x)]
  | done : WriteTrace h p none [.write h none, .write p none, .flush none]

/-- The calls of a host-command transaction (30_encoding.md R107). -/
inductive CommandTrace (code : Byte) : Option Reason → List TxCall → Prop
  | writeFails (x : TxError) : CommandTrace code (some (.eWrite x)) [.write [code] (some x)]
  | flushFails (x : TxError) : CommandTrace code (some (.eFlush x)) [.write [code] none, .flush (some x)]
  | done : CommandTrace code none [.write [code] none, .flush none]

/-- The calls of a read transaction of `n` bytes with header and dummy bytes `h` (30_encoding.md R105). -/
inductive ReadTrace (h : List Byte) (n : Nat) : Except Reason (List Byte) → List TxCall → Prop
  | headerFails (x : TxError) : ReadTrace h n (.error (.eWrite x)) [.write h (some x)]
  | readFails (x : TxError) (got : List Byte) :
      ReadTrace h n (.error (.eRead x)) [.write h none, .read n got (some x)]
  | short (got : List Byte) : got.length < n → ReadTrace h n (.error .eShortRead) [.write h none, .read n got none]
  | flushFails (x : TxError) (got : List Byte) : got.length = n →
      ReadTrace h n (.error (.eFlush x)) [.write h none, .read n got none, .flush (some x)]
  | done (got : List Byte) : got.length = n →
      ReadTrace h n (.ok got) [.write h none, .read n got none, .flush none]

/-- Calls that are whole transactions in a row, the last of them perhaps cut by a failure, after which nothing follows
(40_transactions.md R140). Every header is one the framer assembles, so its intent is never reserved (20_memory.md R93), and
no call is `TxIrq` (R61). -/
inductive Framed (cfg : Cfg) : List TxCall → Prop
  | nil : Framed cfg []
  | failedWrite {a : DevAddr} {p : List Byte} {r : Reason} {l : List TxCall} :
      WriteTrace (hdr a .write) p (some r) l → Framed cfg l
  | failedCommand {c : Byte} {r : Reason} {l : List TxCall} : CommandTrace c (some r) l → Framed cfg l
  | failedRead {a : DevAddr} {n : Nat} {r : Reason} {l : List TxCall} :
      ReadTrace (readRequestBytes cfg a) n (.error r) l → Framed cfg l
  | write {a : DevAddr} {p : List Byte} {l k : List TxCall} :
      WriteTrace (hdr a .write) p none l → Framed cfg k → Framed cfg (l ++ k)
  | command {c : Byte} {l k : List TxCall} : CommandTrace c none l → Framed cfg k → Framed cfg (l ++ k)
  | read {a : DevAddr} {n : Nat} {got : List Byte} {l k : List TxCall} :
      ReadTrace (readRequestBytes cfg a) n (.ok got) l → Framed cfg k → Framed cfg (l ++ k)

/-! ## The invariant -/

/-- What every step keeps: a configuration that passed its checks, offsets below the capacity (10_state.md R31, R38), the
canonical forms, pointer registers that hold a value, no bytes of a successful transaction left in the transport
(20_memory.md R84), and one result record per returned request (10_state.md R35). -/
structure State.Inv (s : State) : Prop where
  configured : failedCheck s.cfg = none
  woff_lt : s.woff < s.cfg.fifoCap
  pubOff_lt : s.ghost.pubOff < s.cfg.fifoCap
  lastRP_lt : s.ghost.lastRP < s.cfg.fifoCap
  dirty_wf : dirtyWfFrom s.cfg.fifoCap 0 s.ghost.dirty = true
  mem_wf : s.env.mem.wf = true
  rp_written : s.rp.isSome = true
  wp_written : s.wp.isSome = true
  tx_closed : s.env.txFailed = false → s.env.tx = []
  one_result_each : s.port.results.length = s.reqIdx

/-- What a claim about the chip takes as a premise at its end: no error (70_reset_and_hazards.md R224), no fault
(60_exceptions.md R206), no hazard (R232). -/
def State.Clean (s : State) : Prop := s.err = .ok ∧ s.fault = none ∧ s.ghost.haz = Hazards.none

/-- The launch premise CLEAN_CHIP: RP and WP hold 0, so that the consumer is idle and no published byte is unconsumed
(70_reset_and_hazards.md R222). -/
def State.CleanChip (s : State) : Prop := s.rp = some 0 ∧ s.wp = some 0

/-! ## Runs -/

/-- The state after `n` steps, `none` if one of them stops. -/
def runFor : Nat → State → Option State
  | 0, s => some s
  | n + 1, s =>
    match step s with
    | .next t => runFor n t
    | .fault _ => none
    | .refused _ => none

/-- The consumer has consumed all that was published: RP equals WP. -/
def State.drained (s : State) : Prop := s.rp = s.wp

/-- Step number `n` of the run moves RP. -/
def State.consumesAt (s : State) (n : Nat) : Prop :=
  ∃ u v, runFor n s = some u ∧ runFor (n + 1) s = some v ∧ u.rp ≠ v.rp

/-- The premise CHIP_DRAINS on the run from `s` (20_memory.md R90). -/
structure State.ChipDrains (s : State) : Prop where
  /-- A consumer whose RP stays away from WP for ever eventually steps. -/
  fair : ∀ n, (∀ m ≥ n, ∃ u, runFor m s = some u ∧ ¬ u.drained) → ∃ m ≥ n, s.consumesAt m
  /-- A consumer that steps again and again reaches WP. -/
  finite : ∀ n, (∀ k ≥ n, ∃ m ≥ k, s.consumesAt m) → ∃ m ≥ n, ∃ u, runFor m s = some u ∧ u.drained

/-! ## How an operation returns -/

/-- The operation has returned: its result record is on the port, the request is gone, `REQ_IDX` has advanced by one
(10_state.md R35, R36), and neither `CFG` nor `FAULT` has changed. -/
structure State.Returns (s t : State) (st : Status) (v : Value) : Prop where
  results : t.port.results = s.port.results ++ [{ status := st, value := v }]
  pending : t.port.pending = s.port.pending.tail
  reqIdx : t.reqIdx = s.reqIdx + 1
  cfg : t.cfg = s.cfg
  fault : t.fault = s.fault

/-- The operation has not returned: its request stays, and `REQ_IDX` stays (10_state.md R35). -/
structure State.Polls (s t : State) : Prop where
  port : t.port = s.port
  reqIdx : t.reqIdx = s.reqIdx
  cfg : t.cfg = s.cfg
  fault : t.fault = s.fault

/-- A state of the invariant with a clean error register and a transport that answers the next `n` calls with success. -/
def State.Ready (n : Nat) (s : State) : Prop := s.Inv ∧ s.err = .ok ∧ s.env.works n

/-- The status an operation that met `o` returns (40_transactions.md R140). -/
def statusOf : Option Reason → Status
  | none => .ok
  | some r => .err r

/-- The error register after an operation that started clean and met `o` (40_transactions.md R141). -/
def errOf : Option Reason → Err
  | none => .ok
  | some r => .failed r

/-- Device bytes where `P` is false are unchanged, but for RP, which the consumer moves (20_memory.md R88). -/
def MemKept (cfg : Cfg) (P : Nat → Prop) (m m' : Memory) : Prop := ∀ x, ¬ P x → ¬ onRP cfg x → m'.read x = m.read x

/-- No byte. -/
def nowhere (_ : Nat) : Prop := False

/-! ## The shapes of operations -/

/-- A read, with its address and width (40_transactions.md R142 to R144). -/
inductive IsRead : Instr → Nat → Nat → Prop
  | rd8 (a : Word) : IsRead (.rd8 a) a.toNat 1
  | rd16 (a : Word) : IsRead (.rd16 a) a.toNat 2
  | rd32 (a : Word) : IsRead (.rd32 a) a.toNat 4

/-- A write, with its address, width and value (40_transactions.md R145 to R147). -/
inductive IsWrite : Instr → Nat → Nat → Nat → Prop
  | wr8 (a d : Word) : IsWrite (.wr8 a d) a.toNat 1 d.toNat
  | wr16 (a d : Word) : IsWrite (.wr16 a d) a.toNat 2 d.toNat
  | wr32 (a d : Word) : IsWrite (.wr32 a d) a.toNat 4 d.toNat

/-- An operation that makes one write transaction: its address, width, value, and the value it returns. -/
inductive OneWrite (s : State) : Instr → Nat → Nat → Nat → Value → Prop
  | write {i : Instr} {a n v : Nat} : IsWrite i a n v → OneWrite s i a n v .absent
  | dlappend (off w : Word) :
      OneWrite s (.dlappend off w) (dlAddr s.cfg off.toNat) 4 w.toNat (.offset (off.toNat + 4))
  | publish (v : Option Word) : OneWrite s (.fifoPublish v) s.cfg.regWP (ptrBytes s.cfg) (operandOr s.woff v) .absent

/-- An append, with its offset operand and the words it writes (42_fifo_writer.md R171 to R173). -/
inductive IsAppend (cfg : Cfg) : Instr → Option Word → List Word → Prop
  | word (off : Option Word) (w : Word) : IsAppend cfg (.fifoWord off w) off [w]
  | cmd (off : Option Word) (c : Word) (ws : List Word) : IsAppend cfg (.fifoCmd off c ws) off (c :: ws)
  | text (off : Option Word) (x y : Int) (font options : Nat) (t : List Byte) :
      IsAppend cfg (.fifoText off x y font options t) off (textWords cfg x y font options t)

/-- A request record carries the operands of an operation, each in its field; the other fields do not matter
(30_encoding.md R109). -/
def carries (r : Request) : Instr → Prop
  | .rd8 a => r.addr = a
  | .rd16 a => r.addr = a
  | .rd32 a => r.addr = a
  | .wr8 a d => r.addr = a ∧ r.data = some d
  | .wr16 a d => r.addr = a ∧ r.data = some d
  | .wr32 a d => r.addr = a ∧ r.data = some d
  | .hostcmd c => r.data = some c
  | .errq => True
  | .errclr => True
  | .dlappend o w => r.off = some o ∧ r.data = some w
  | .fifoWord o w => r.off = o ∧ r.data = some w
  | .fifoCmd o c ws => r.off = o ∧ r.data = some c ∧ r.words = ws
  | .fifoText o x y f opt t =>
    r.off = o ∧ r.x = x ∧ r.y = y ∧ r.font = f ∧ r.options = opt ∧ r.text = t
  | .fifoPublish v => r.data = v
  | .fifoWaitEmpty t => r.deadline = t
  | .fifoWaitOffset e t => r.data = e ∧ r.deadline = t

/-- What a poisoned operation returns beside the original error: 0 for a read (40_transactions.md R140), the new offset for
an append (41_display_list.md R160, 42_fifo_writer.md R171), nothing otherwise. -/
def poisonedValue (i : Instr) (s : State) : Value :=
  match i with
  | .rd8 _ => .word 0
  | .rd16 _ => .word 0
  | .rd32 _ => .word 0
  | .dlappend off _ => .offset (off.toNat + 4)
  | .fifoWord off _ => .offset (red s.cfg (startOffset off s + 4))
  | .fifoCmd off _ ws => .offset (red s.cfg (startOffset off s + 4 * (1 + ws.length)))
  | .fifoText off x y f o t => .offset (red s.cfg (startOffset off s + 4 * (textWords s.cfg x y f o t).length))
  | .wr8 _ _ => .absent
  | .wr16 _ _ => .absent
  | .wr32 _ _ => .absent
  | .hostcmd _ => .absent
  | .errq => .absent
  | .errclr => .absent
  | .fifoPublish _ => .absent
  | .fifoWaitEmpty _ => .absent
  | .fifoWaitOffset _ _ => .absent

/-- `s` with another ghost state, and another record of what the consumer reads: the block sees neither (10_state.md R38). -/
def State.withUnseen (g : Ghost) (rd : ConsumerReads) (s : State) : State :=
  { s with ghost := g, env := { s.env with reads := rd } }

/-- The calls of the wrapped write of `bs` at offset `o`, all of them successful: one transaction, or two, the tail first
(42_fifo_writer.md R170). -/
def wrapTrace (cfg : Cfg) (o : Nat) (bs : List Byte) : List TxCall :=
  [.write (hdr (BitVec.ofNat 22 (cfg.fifoBase + o)) .write) none, .write (bs.take (tailLength cfg o bs.length)) none,
      .flush none] ++
    if tailLength cfg o bs.length < bs.length then
      [.write (hdr (BitVec.ofNat 22 cfg.fifoBase) .write) none, .write (bs.drop (tailLength cfg o bs.length)) none,
        .flush none]
    else []

/-- The calls of appending words in order, all of them successful. -/
def appendTrace (cfg : Cfg) : Nat → List Word → List TxCall
  | _, [] => []
  | o, w :: ws => wrapTrace cfg o (leBytes 4 w.toNat) ++ appendTrace cfg (nextOffset cfg o) ws

/-- The write transactions of the wrapped write of `bs` at offset `o`, each with its address and payload
(42_fifo_writer.md R170). -/
def wrapWrites (cfg : Cfg) (o : Nat) (bs : List Byte) : List (Nat × List Byte) :=
  (cfg.fifoBase + o, bs.take (tailLength cfg o bs.length)) ::
    if tailLength cfg o bs.length < bs.length then [(cfg.fifoBase, bs.drop (tailLength cfg o bs.length))] else []

/-- The write transactions of appending words in order. -/
def appendWrites (cfg : Cfg) : Nat → List Word → List (Nat × List Byte)
  | _, [] => []
  | o, w :: ws => wrapWrites cfg o (leBytes 4 w.toNat) ++ appendWrites cfg (nextOffset cfg o) ws

/-- The calls of write transactions in order, cut after the first failing call, with its reason (40_transactions.md R140,
42_fifo_writer.md R172). `n` counts the payload bytes of the transactions that succeeded, `q` those of the one that failed. -/
inductive Sent : List (Nat × List Byte) → Nat → Nat → Option Reason → List TxCall → Prop
  | nil : Sent [] 0 0 none []
  | fails {a : Nat} {p : List Byte} {ts : List (Nat × List Byte)} {r : Reason} {l : List TxCall} :
      WriteTrace (hdr (BitVec.ofNat 22 a) .write) p (some r) l → Sent ((a, p) :: ts) 0 p.length (some r) l
  | cons {a : Nat} {p : List Byte} {ts : List (Nat × List Byte)} {n q : Nat} {out : Option Reason} {l k : List TxCall} :
      WriteTrace (hdr (BitVec.ofNat 22 a) .write) p none l → Sent ts n q out k →
        Sent ((a, p) :: ts) (p.length + n) q out (l ++ k)

/-- Byte `k` of words laid out one after the other, least significant byte first. -/
def wordsByte (ws : List Word) (k : Nat) : Option Byte := ws[k / 4]?.map fun w => w.extractLsb' (8 * (k % 4)) 8

/-! ## Premises about polling -/

/-- No deadline has passed and no cancel is asserted at the next `n` tests of a wait with no deadline. -/
def Env.neverCancelled (n : Nat) (e : Env) : Prop := ∀ k < n, (e.peekTick k).cancel = false

/-- The clock advances by at least one at each of the next `n` readings. -/
def Env.clockRuns (n : Nat) (e : Env) : Prop := ∀ k < n, 0 < (e.peekTick k).tick

/-! ## What an operation may do -/

/-- The operations that append to the command FIFO, and so write `WOFF` (10_state.md R31). -/
def appendsToFifo : Instr → Bool
  | .fifoWord _ _ => true
  | .fifoCmd _ _ _ => true
  | .fifoText _ _ _ _ _ _ => true
  | .rd8 _ => false
  | .rd16 _ => false
  | .rd32 _ => false
  | .wr8 _ _ => false
  | .wr16 _ _ => false
  | .wr32 _ _ => false
  | .hostcmd _ => false
  | .errq => false
  | .errclr => false
  | .dlappend _ _ => false
  | .fifoPublish _ => false
  | .fifoWaitEmpty _ => false
  | .fifoWaitOffset _ _ => false

/-- Whether an operation may store to address `x`, computed with the functions its meaning uses. A form that stores nothing
stores nowhere; the appends store inside the window (42_fifo_writer.md R170). -/
def mayStore (i : Instr) (s : State) (x : Nat) : Prop :=
  match i with
  | .wr8 a _ => within a.toNat 1 x
  | .wr16 a _ => within a.toNat 2 x
  | .wr32 a _ => within a.toNat 4 x
  | .dlappend off _ => within (dlAddr s.cfg off.toNat) 4 x
  | .fifoWord off _ => ∃ k < 4, x = fifoAddr s.cfg (startOffset off s) k
  | .fifoCmd off _ ws => ∃ k < 4 * (1 + ws.length), x = fifoAddr s.cfg (startOffset off s) k
  | .fifoText off px py f o t => ∃ k < 4 * (textWords s.cfg px py f o t).length, x = fifoAddr s.cfg (startOffset off s) k
  | .fifoPublish _ => within s.cfg.regWP (ptrBytes s.cfg) x
  | .rd8 _ => False
  | .rd16 _ => False
  | .rd32 _ => False
  | .hostcmd _ => False
  | .errq => False
  | .errclr => False
  | .fifoWaitEmpty _ => False
  | .fifoWaitOffset _ _ => False

/-- The hazards an operation may record (70_reset_and_hazards.md R225 to R231): a write into the window may overrun; a write that
may fall on the pointer registers may alias them or count as a publish; an append may overrun or fill the ring; a read of RP
or WP may find it unexpected. -/
def mayRaise (i : Instr) (h : Hazard) : Bool :=
  match i with
  | .wr8 _ _ => decide (h = .overrun ∨ h = .ptrAliased)
  | .wr16 _ _ => decide (h = .overrun ∨ h = .ptrAliased)
  | .wr32 _ _ => decide (h = .overrun ∨ h = .ptrAliased ∨ h = .unwritten ∨ h = .full)
  | .dlappend _ _ => decide (h = .overrun ∨ h = .ptrAliased ∨ h = .unwritten ∨ h = .full ∨ h = .dlOverflow)
  | .fifoWord _ _ => decide (h = .overrun ∨ h = .full)
  | .fifoCmd _ _ _ => decide (h = .overrun ∨ h = .full)
  | .fifoText _ _ _ _ _ _ => decide (h = .overrun ∨ h = .full)
  | .fifoPublish _ => decide (h = .unwritten ∨ h = .full)
  | .rd32 _ => decide (h = .rpUnexpected ∨ h = .wpReadback)
  | .fifoWaitEmpty _ => decide (h = .rpUnexpected ∨ h = .wpReadback)
  | .fifoWaitOffset _ _ => decide (h = .rpUnexpected)
  | .rd8 _ => false
  | .rd16 _ => false
  | .hostcmd _ => false
  | .errq => false
  | .errclr => false

/-- The fault an operation raises, by the table of 60_exceptions.md R200: an address whose last byte is not below `2^22`, an
offset operand not below the capacity, a text too long; every other operation raises none. -/
def raisedBy (i : Instr) (s : State) : Option FaultRec :=
  match i with
  | .rd8 a => addrFault a.toNat 1
  | .rd16 a => addrFault a.toNat 2
  | .rd32 a => addrFault a.toNat 4
  | .wr8 a _ => addrFault a.toNat 1
  | .wr16 a _ => addrFault a.toNat 2
  | .wr32 a _ => addrFault a.toNat 4
  | .dlappend off _ => addrFault (dlAddr s.cfg off.toNat) 4
  | .fifoText _ _ _ _ _ t => textFault s.cfg t
  | .fifoPublish v => offsetFault s.cfg (operandOr s.woff v)
  | .fifoWaitOffset v _ => offsetFault s.cfg (operandOr s.woff v)
  | .hostcmd _ => none
  | .errq => none
  | .errclr => none
  | .fifoWord _ _ => none
  | .fifoCmd _ _ _ => none
  | .fifoWaitEmpty _ => none

end Sys2Proof.Machine
end

