-- ==== Sys2Proof/Certificates/Slice0/Obligations.lean ====
section
/-! DEFINITION. The statements for the provers. -/

open Sys2Proof Sys2Proof.Machine

/-! ## Encodings (30_encoding.md) -/

/-- R100, R101: where the intent and the address stand in the three header bytes, and the two intent codes. -/
def Obligations.HeaderLayout : Prop :=
  Intent.read.code = 0b00 ∧ Intent.write.code = 0b10 ∧
    ∀ (a : DevAddr) (i : Intent), ∃ b0 b1 b2 : Byte,
      hdr a i = [b0, b1, b2] ∧
        b0.toNat * 65536 + b1.toNat * 256 + b2.toNat = i.code.toNat * 2 ^ 22 + a.toNat ∧
        b0.toNat / 64 = i.code.toNat ∧ b0.toNat % 64 = a.toNat / 65536 ∧
        b1.toNat = a.toNat / 256 % 256 ∧ b2.toNat = a.toNat % 256 ∧
        (i = .write → b0.toNat = 0x80 ||| a.toNat / 65536) ∧ (i = .read → b0.toNat = a.toNat / 65536)

/-- R104, R102: decoding a header gives back intent and address, header bytes of an unreserved intent are those of what they
decode to, the two reserved intents are refused, and the framer emits neither. -/
def Obligations.HeaderRoundTrip : Prop :=
  (∀ (a : DevAddr) (i : Intent), unhdr (headerByte0 a i) (headerByte1 a) (headerByte2 a) = .ok (i, a)) ∧
    (∀ (b0 b1 b2 : Byte) (i : Intent) (a : DevAddr), unhdr b0 b1 b2 = .ok (i, a) →
      hdr a i = [b0, b1, b2] ∧ b0.toNat / 64 = i.code.toNat ∧
        a.toNat = b0.toNat % 64 * 65536 + b1.toNat * 256 + b2.toNat) ∧
    (∀ b0 b1 b2 : Byte, b0.toNat / 64 = 1 ∨ b0.toNat / 64 = 3 →
      unhdr b0 b1 b2 = .error (.reservedIntent (b0.extractLsb' 6 2))) ∧
    (∀ b0 b1 b2 : Byte, b0.toNat / 64 = 0 ∨ b0.toNat / 64 = 2 → ∃ i a, unhdr b0 b1 b2 = .ok (i, a)) ∧
    ∀ (a : DevAddr) (i : Intent), (headerByte0 a i).toNat / 64 ≠ 1 ∧ (headerByte0 a i).toNat / 64 ≠ 3

/-- R105 to R108: the wire decoder tells every transaction from its bytes, and the lengths are those of R108. -/
def Obligations.TransactionRoundTrip : Prop :=
  (∀ t : Transaction, decodeTransaction (encodeTransaction t) = .ok t) ∧
    (∀ (bs : List Byte) (t : Transaction), decodeTransaction bs = .ok t → encodeTransaction t = bs) ∧
    (∀ (cfg : Cfg) (a : DevAddr), (readRequestBytes cfg a).length = 3 + cfg.dummyBytes ∧
      decodeTransaction (readRequestBytes cfg a) =
        .ok (.readAccess a (List.replicate cfg.dummyBytes cfg.dummyValue))) ∧
    (∀ (a : DevAddr) (n v : Nat), (encodeTransaction (.writeAccess a (leBytes n v))).length = 3 + n) ∧
    ∀ (bs : List Byte) (c : Byte), decodeTransaction bs = .ok (.hostCommand c) ↔ bs = [c]

/-- R109 to R113: every well-formed operation is decoded from its encoded request with every operand. -/
def Obligations.RequestRoundTrip : Prop := ∀ i : Instr, i.wellFormed = true → decode (encode i) = .ok i

/-- R110, R109: what a request decodes to. Operands an operation does not use do not matter. That a request without an operand
its operation requires (`data` of a write, `HOSTCMD`, `DLAPPEND`, `FIFO_WORD` or `FIFO_CMD`, `off` of `DLAPPEND`) decodes to no
operation is the model's choice (log 17). -/
def Obligations.RequestDecoding : Prop :=
  ∀ (r : Request) (i : Instr), decode r = .ok i ↔ r.op = i.opcode ∧ carries r i ∧ i.wellFormed = true

/-- R111, R113: a request with a reserved op code is refused. Of the requests that carry their required operands, exactly those
with an operand too wide for its field are refused for it, and none of the rest is refused. The step answers the refusal and
nothing else, whatever the state. -/
def Obligations.BadRequestsAreRefused : Prop :=
  (∀ (s : State) (r : Request), s.port.pending.head? = some r → 16 ≤ r.op.toNat →
    step s = .refused (.reservedOp r.op)) ∧
    (∀ (r : Request), r.op.toNat < 16 → r.data.isSome = true → r.off.isSome = true →
      ((∃ i, decode r = .ok i) ∨ decode r = .error .operandTooWide) ∧
      (decode r = .error .operandTooWide ↔
        (r.op = 0x03 ∧ ∃ d, r.data = some d ∧ 2 ^ 8 ≤ d.toNat) ∨
        (r.op = 0x04 ∧ ∃ d, r.data = some d ∧ 2 ^ 16 ≤ d.toNat) ∨
        (r.op = 0x06 ∧ ∃ d, r.data = some d ∧ 2 ^ 8 ≤ d.toNat) ∨
        (r.op = 0x0C ∧
          (r.x < -32768 ∨ 32767 < r.x ∨ r.y < -32768 ∨ 32767 < r.y ∨ 2 ^ 16 ≤ r.font ∨ 2 ^ 16 ≤ r.options)))) ∧
    ∀ (s : State) (r : Request), s.port.pending.head? = some r → decode r = .error .operandTooWide →
      step s = .refused .operandTooWide

/-- Words written out by hand from 30_encoding.md R100, R101, R110 and the examples of 40_transactions.md R145 to R147. That a word
of the opcode table gives `op` by its bits 4 to 0 and every operand as zero is the model's choice (log 2). -/
def Obligations.KnownWords : Prop :=
  hdr 0x123456 .write = [0x92, 0x34, 0x56] ∧ hdr 0x302070 .write = [0xB0, 0x20, 0x70] ∧
    hdr 0x302070 .read = [0x30, 0x20, 0x70] ∧ hdr 0x3FFFFF .read = [0x3F, 0xFF, 0xFF] ∧
    decodeTransaction [0x92, 0x34, 0x56, 0xAB] = .ok (.writeAccess 0x123456 [0xAB]) ∧
    decodeTableWord 8 0x00 = some (.rd8 0) ∧ decodeTableWord 8 0x06 = some (.hostcmd 0) ∧
    decodeTableWord 8 0x09 = some (.dlappend 0 0) ∧ decodeTableWord 8 0x0D = some (.fifoPublish (some 0)) ∧
    decodeTableWord 8 0x10 = none ∧
    decode { Request.blank 0x05 with addr := 0x300000, data := some 0x11223344 } = .ok (.wr32 0x300000 0x11223344) ∧
    decode { Request.blank 0x03 with data := some 0x100 } = .error .operandTooWide

/-! ## The step (10_state.md R37, 60_exceptions.md R205) -/

/-- R37: a block that is not halted runs the operation the request on its port decodes to; all that is added around it is the
consumer's turn at the end (R88, log 6), which is one step of it by its next move, what it reads being any value if a hazard has
been recorded (R232, log 25). So does the step after a table word is placed on the port (log 2, log 3). -/
def Obligations.StepRunsDecodedInstruction : Prop :=
  (∀ (s : State) (r : Request) (i : Instr), s.port.pending.head? = some r → decode r = .ok i → s.fault = none →
    step s = thenConsumer (exec i s)) ∧
    (∀ (s : State) (nbits w : Nat) (i : Instr), decodeTableWord nbits w = some i → s.fault = none →
      step (s.withFetchWord nbits w) = thenConsumer (exec i (s.withFetchWord nbits w))) ∧
    ∀ t : State, thenConsumer (.next t) = .next t.between ∧
      ∃ n, (∀ m ms, t.env.moves = m :: ms → n = m) ∧
        t.between =
          { t with
            env := consumerStep t.cfg (decide (t.ghost.haz ≠ Hazards.none)) n
              { t.env with moves := t.env.moves.tail, moveNo := t.env.moveNo + 1 } }

/-- R205 items 1 and 2: a refusal comes first, then a halted block, which takes no request. With no request the block does
nothing: only the consumer may step (log 3, log 6). -/
def Obligations.StepPriority : Prop :=
  (∀ (s : State) (r : Request) (e : Reject), s.port.pending.head? = some r → decode r = .error e →
    step s = .refused (refusalOf e)) ∧
    (∀ (s : State) (r : Request) (i : Instr) (f : FaultRec), s.port.pending.head? = some r → decode r = .ok i →
      s.fault = some f → step s = .fault (.halted f)) ∧
    (∀ (s : State) (f : FaultRec), s.port.pending = [] → s.fault = some f → step s = .fault (.halted f)) ∧
    ∀ s : State, s.port.pending = [] → s.fault = none → step s = .next s.between

/-! ## Reset (70_reset_and_hazards.md R220, 10_state.md R43) -/

/-- R220, R39: what construction leaves, and that the first check to fail is the one recorded. -/
def Obligations.ConstructSetsEveryRegister : Prop :=
  ∀ (cfg : Cfg) (mem : Memory),
    (State.construct cfg mem).cfg = cfg ∧
      (State.construct cfg mem).fault = (failedCheck cfg).map FaultRec.config ∧
      (failedCheck cfg = none →
        (State.construct cfg mem).woff = 0 ∧ (State.construct cfg mem).err = .ok ∧
        (State.construct cfg mem).fault = none ∧ (State.construct cfg mem).reqIdx = 0 ∧
        (State.construct cfg mem).ghost = { pubOff := 0, lastRP := 0, dirty := [], span := 0, haz := Hazards.none } ∧
        (State.construct cfg mem).env.tx = [] ∧ (State.construct cfg mem).env.txFailed = false ∧
        (State.construct cfg mem).env.wire = [] ∧ (State.construct cfg mem).env.mem = mem)

/-- R220: a configuration that passes every check is what the checks ask for, CHK1 to CHK7; and one that fails a check is
refused for the first it fails. How a PACK_TEXT that fails CHK7 is held, and that an empty display-list region is disjoint
from everything, are the model's choices (log 15, log 24). -/
def Obligations.ConfigurationChecks : Prop :=
  (∀ cfg : Cfg, failedCheck cfg = none →
    (∃ k, cfg.fifoCap = 2 ^ k) ∧ 4 ≤ cfg.fifoCap ∧ cfg.fifoBase + cfg.fifoCap ≤ 2 ^ 22 ∧ cfg.dlBase < 2 ^ 22 ∧
      (∀ n, cfg.dlCap = some n → cfg.dlBase + n ≤ 2 ^ 22) ∧ cfg.regRP + 3 < 2 ^ 22 ∧ cfg.regWP + 3 < 2 ^ 22 ∧
      (∀ x, ¬(onWindow cfg x ∧ onRP cfg x) ∧ ¬(onWindow cfg x ∧ onWP cfg x) ∧ ¬(onRP cfg x ∧ onWP cfg x) ∧
        ∀ n, cfg.dlCap = some n → within cfg.dlBase n x → ¬ onWindow cfg x ∧ ¬ onRP cfg x ∧ ¬ onWP cfg x) ∧
      cfg.ptrWidth = 32 ∧ ∃ h, ∀ x y font options, (packText cfg x y font options).length = h) ∧
    (∀ (cfg : Cfg), (¬ (∃ k, cfg.fifoCap = 2 ^ k) ∨ cfg.fifoCap < 4) → failedCheck cfg = some .chk1) ∧
    (∀ (cfg : Cfg), (∃ k, cfg.fifoCap = 2 ^ k) → 4 ≤ cfg.fifoCap → 2 ^ 22 < cfg.fifoBase + cfg.fifoCap →
      failedCheck cfg = some .chk2) ∧
    (∀ (cfg : Cfg), chk1 cfg = true → chk2 cfg = true →
      (2 ^ 22 ≤ cfg.dlBase ∨ ∃ n, cfg.dlCap = some n ∧ 2 ^ 22 < cfg.dlBase + n) → failedCheck cfg = some .chk3) ∧
    (∀ (cfg : Cfg), chk1 cfg = true → chk2 cfg = true → chk3 cfg = true →
      (2 ^ 22 ≤ cfg.regRP + 3 ∨ 2 ^ 22 ≤ cfg.regWP + 3) → failedCheck cfg = some .chk4) ∧
    (∀ (cfg : Cfg) (x : Nat), chk1 cfg = true → chk2 cfg = true → chk3 cfg = true → chk4 cfg = true →
      (onWindow cfg x ∧ onRP cfg x ∨ onWindow cfg x ∧ onWP cfg x ∨ onRP cfg x ∧ onWP cfg x ∨
        ∃ n, cfg.dlCap = some n ∧ within cfg.dlBase n x ∧ (onWindow cfg x ∨ onRP cfg x ∨ onWP cfg x)) →
      failedCheck cfg = some .chk5) ∧
    (∀ (cfg : Cfg), chk1 cfg = true → chk2 cfg = true → chk3 cfg = true → chk4 cfg = true → chk5 cfg = true →
      cfg.ptrWidth ≠ 32 → failedCheck cfg = some .chk6) ∧
    ∀ (cfg : Cfg) (id : Nat), chk1 cfg = true → chk2 cfg = true → chk3 cfg = true → chk4 cfg = true → chk5 cfg = true →
      chk6 cfg = true → cfg.packText = .varying id → failedCheck cfg = some .chk7

/-- R6: modulo the capacity is a mask, and a capacity that is no power of two, or is below 4, is the fault `F_CONFIG` at
construction. R33, R206: no request is taken after it; that the step then answers the fault is the model's reading of a halted
block (log 11), and that the request stands on the port its placing of one (log 3). -/
def Obligations.CapacityIsAMask : Prop :=
  (∀ (cfg : Cfg) (k x : Nat), cfg.fifoCap = 2 ^ k → red cfg x = x &&& (cfg.fifoCap - 1)) ∧
    ∀ (cfg : Cfg) (mem : Memory), (¬ (∃ k, cfg.fifoCap = 2 ^ k) ∨ cfg.fifoCap < 4) →
      (State.construct cfg mem).fault = some (.config .chk1) ∧
        ∀ (r : Request) (i : Instr), decode r = .ok i →
          step (placeRequest r (State.construct cfg mem)) = .fault (.halted (.config .chk1))

/-- R222 and log 1: the machine right after reset meets the invariant, the launch premise CLEAN_CHIP, and is clean. The example
configuration is the model's choice (log 1). -/
def Obligations.ResetIsReady : Prop :=
  State.reset.Inv ∧ State.reset.CleanChip ∧ State.reset.Clean ∧ State.reset.drained

/-! ## Faults and errors (60_exceptions.md) -/

/-- R200, R206: where an operation's fault check fails it sets `FAULT` and changes nothing else, sends no byte and does not
return; the block is then halted for good. Where no check fails the operation goes on and leaves `FAULT` alone. -/
def Obligations.FaultsArePrecise : Prop :=
  (∀ (i : Instr) (s : State) (f : FaultRec), s.fault = none → raisedBy i s = some f →
    exec i s = .next { s with fault := some f } ∧
      ∀ (r : Request) (j : Instr), decode r = .ok j →
        step (placeRequest r { s with fault := some f }) = .fault (.halted f)) ∧
    ∀ (i : Instr) (s : State), s.Inv → raisedBy i s = none → ∃ t, exec i s = .next t ∧ t.fault = s.fault

/-- R71, R200: which operand values fault, and what is recorded: the exact bounds of every check. -/
def Obligations.FaultBounds : Prop :=
  (∀ (i : Instr) (s : State) (a n : Nat), IsRead i a n ∨ (∃ v, IsWrite i a n v) →
    (a + n - 1 < 2 ^ 22 → raisedBy i s = none) ∧ (2 ^ 22 ≤ a + n - 1 → raisedBy i s = some (.addrRange a n))) ∧
    (∀ (off w : Word) (s : State),
      (s.cfg.dlBase + off.toNat + 3 < 2 ^ 22 → raisedBy (.dlappend off w) s = none) ∧
      (2 ^ 22 ≤ s.cfg.dlBase + off.toNat + 3 →
        raisedBy (.dlappend off w) s = some (.addrRange (s.cfg.dlBase + off.toNat) 4))) ∧
    (∀ (v : Word) (d : Option Nat) (s : State),
      (v.toNat < s.cfg.fifoCap →
        raisedBy (.fifoPublish (some v)) s = none ∧ raisedBy (.fifoWaitOffset (some v) d) s = none) ∧
      (s.cfg.fifoCap ≤ v.toNat → raisedBy (.fifoPublish (some v)) s = some (.offsetRange v.toNat) ∧
        raisedBy (.fifoWaitOffset (some v) d) s = some (.offsetRange v.toNat))) ∧
    ∀ (off : Option Word) (x y : Int) (font options : Nat) (t : List Byte) (s : State),
      (t.length ≤ s.cfg.maxTextLen → raisedBy (.fifoText off x y font options t) s = none) ∧
      (s.cfg.maxTextLen < t.length → raisedBy (.fifoText off x y font options t) s = some (.textTooLong t.length))

/-- R205 item 4, R207: under a latched error every operation but the two on the error register returns the original error and
sends nothing, reads return 0, and the offset arithmetic of the appends goes on. R140: the ghost state is left too, but for
what is recorded before the access: the overflow check of `DLAPPEND` (R160) and the count of appended bytes (R226); so an append
marks no byte dirty and records no overrun (R238). -/
def Obligations.PoisonedOperationsSendNothing : Prop :=
  ∀ (i : Instr) (s : State) (r : Reason), s.Inv → s.err = .failed r → raisedBy i s = none → i ≠ .errq → i ≠ .errclr →
    ∃ t, exec i s = .next t ∧ s.Returns t (.err r) (poisonedValue i s) ∧ t.err = .failed r ∧ t.env = s.env ∧
      (appendsToFifo i = false → t.woff = s.woff) ∧
      (appendsToFifo i = false → (∀ off w, i ≠ .dlappend off w) → t.ghost = s.ghost) ∧
      (∀ off w, i = .dlappend off w → t.ghost = dlOverflowCheck s.cfg off.toNat s.ghost) ∧
      (appendsToFifo i = true → t.ghost.dirty = s.ghost.dirty ∧ t.ghost.haz.overrun = s.ghost.haz.overrun)

/-- R141, R32: the first failure is the one kept; only `ERRCLR` clears it; every later operation but the two on the error
register returns it and makes no transport call, so nothing is retried; and an operation that fails returns the reason it has
latched. -/
def Obligations.FirstFailureWins : Prop :=
  ∀ (i : Instr) (s t : State), s.Inv → exec i s = .next t →
    (∀ r, s.err = .failed r → i ≠ .errclr → t.err = .failed r) ∧
      (∀ r, s.err = .failed r → i ≠ .errclr → i ≠ .errq → raisedBy i s = none →
        t.env = s.env ∧ ∃ v, s.Returns t (.err r) v) ∧
      (∀ r, s.err = .ok → t.err = .failed r → ∃ v, s.Returns t (.err r) v) ∧
      (s.err = .ok → t.err = .ok → ∀ r v, ¬ s.Returns t (.err r) v)

/-- R149, R150: `ERRQ` returns the error register and leaves it; `ERRCLR` clears it. Neither sends a byte or touches anything
else, and `ERRCLR` does not clear `FAULT`. -/
def Obligations.ErrorRegisterOperations : Prop :=
  ∀ s : State,
    (∃ t, exec .errq s = .next t ∧ s.Returns t .ok (.error s.err) ∧ t.err = s.err ∧ t.woff = s.woff ∧
      t.ghost = s.ghost ∧ t.env = s.env) ∧
    ∃ t, exec .errclr s = .next t ∧ s.Returns t .ok .absent ∧ t.err = .ok ∧ t.woff = s.woff ∧ t.ghost = s.ghost ∧
      t.env = s.env

/-! ## Reads and writes (40_transactions.md) -/

/-- R105, R142 to R144: with a transport that works, a read completes with one read transaction, returns the little-endian value
of the bytes received, each of which is the device's where that one is written and away from RP (R86), stores to no device byte
(RP, which the consumer moves, apart), and leaves the error register, `WOFF` and the clock. -/
def Obligations.ReadsReturnTheDeviceValue : Prop :=
  ∀ (i : Instr) (a n : Nat) (s : State), IsRead i a n → a + n ≤ 2 ^ 22 → s.Ready 3 →
    ∃ (t : State) (got : List Byte), exec i s = .next t ∧ got.length = n ∧
      s.Returns t .ok (.word (BitVec.ofNat 32 (fromLE got))) ∧
      t.env.wire = s.env.wire ++
        [.write (hdr (BitVec.ofNat 22 a) .read ++ List.replicate s.cfg.dummyBytes s.cfg.dummyValue) none,
          .read n got none, .flush none] ∧
      (∀ k < n, ¬ onRP s.cfg (a + k) → ∀ b, s.env.mem.read (a + k) = some b → got[k]? = some b) ∧
      ((∀ x, within a n x → ¬ onRP s.cfg x) → ∀ v, s.env.mem.readLE a n = some v →
        got = leBytes n v ∧ BitVec.ofNat 32 (fromLE got) = BitVec.ofNat 32 v) ∧
      t.err = .ok ∧ t.woff = s.woff ∧ MemKept s.cfg nowhere s.env.mem t.env.mem ∧ t.env.tx = [] ∧
      t.env.clock = s.env.clock

/-- R140, R142 to R144: whatever the transport answers, a read that is neither faulted nor poisoned makes the calls of one read
transaction up to the first failure, latches its reason, and returns it with the value 0, or `OK` with the value received. It
has no effect on the device (R87). -/
def Obligations.ReadsStopAtTheFirstFailure : Prop :=
  ∀ (i : Instr) (a n : Nat) (s : State), IsRead i a n → a + n ≤ 2 ^ 22 → s.Inv → s.err = .ok →
    ∃ (t : State) (out : Except Reason (List Byte)) (l : List TxCall), exec i s = .next t ∧
      ReadTrace (readRequestBytes s.cfg (BitVec.ofNat 22 a)) n out l ∧ t.env.wire = s.env.wire ++ l ∧
      (∀ got, out = .ok got → s.Returns t .ok (.word (BitVec.ofNat 32 (fromLE got))) ∧ t.err = .ok) ∧
      (∀ r, out = .error r → s.Returns t (.err r) (.word 0) ∧ t.err = .failed r ∧ t.ghost = s.ghost) ∧
      t.woff = s.woff ∧ MemKept s.cfg nowhere s.env.mem t.env.mem

/-- R86, log 5: an unwritten byte reads as any byte whatever: for every byte there is an answer of the transport with which the
read returns it. The byte stays unwritten, and the next read has answers of its own. -/
def Obligations.UnwrittenBytesAreFree : Prop :=
  ∀ (a : Word) (b : Byte) (s : State) (d1 d2 d3 : CallDraw) (ds : List CallDraw), a.toNat < 2 ^ 22 → s.Inv → s.err = .ok →
    s.env.mem.read a.toNat = none → succeeds d1 → succeeds d2 → succeeds d3 → d2.fill = [b] →
    s.env.calls = d1 :: d2 :: d3 :: ds →
      ∃ t : State, exec (.rd8 a) s = .next t ∧ s.Returns t .ok (.word (b.setWidth 32)) ∧
        t.env.mem.read a.toNat = none ∧ ∀ k, t.env.peekCall k = s.env.peekCall (k + 3)

/-- R91, R72: every byte of a full-width read of RP is that byte of RP as the consumer leaves it somewhere between its value at
the start and WP; with `ATOMIC_PTR_READ` the four bytes are of one such value. -/
def Obligations.PointerReadsSeeTheConsumer : Prop :=
  ∀ (s : State) (r w : Nat), s.rp = some r → s.wp = some w → s.Ready 3 →
    ∃ (t : State) (v : Word), exec (.rd32 (BitVec.ofNat 32 s.cfg.regRP)) s = .next t ∧ s.Returns t .ok (.word v) ∧
      (∀ k < 4, ∃ n ≤ dist s.cfg r w,
        v.extractLsb' (8 * k) 8 = BitVec.ofNat 8 ((if n = 0 then r else red s.cfg (r + n)) / 256 ^ k)) ∧
      (s.cfg.atomicPtrRead = true → ∃ n ≤ dist s.cfg r w, v.toNat = if n = 0 then r else red s.cfg (r + n))

/-- R106, R145 to R147: with a transport that works, a write completes with one write transaction, in which nothing is received,
stores the little-endian bytes of its value and no other device byte (RP, which the consumer moves, apart), and leaves the
error register, `WOFF` and the clock. -/
def Obligations.WritesStoreTheirBytes : Prop :=
  ∀ (i : Instr) (a n v : Nat) (s : State), IsWrite i a n v → a + n ≤ 2 ^ 22 → s.Ready 3 →
    ∃ t : State, exec i s = .next t ∧ s.Returns t .ok .absent ∧
      t.env.wire = s.env.wire ++ [.write (hdr (BitVec.ofNat 22 a) .write) none, .write (leBytes n v) none, .flush none] ∧
      (∀ k < n, t.env.mem.read (a + k) = some (BitVec.ofNat 8 (v / 256 ^ k))) ∧
      MemKept s.cfg (within a n) s.env.mem t.env.mem ∧
      t.err = .ok ∧ t.woff = s.woff ∧ t.env.tx = [] ∧ t.env.clock = s.env.clock

/-- R140, R141: whatever the transport answers, an operation that makes one write transaction makes its calls up to the first
failure, latches that failure's reason and returns it. R172: an append makes the calls of its words' transactions in order, up to
the first failure, and sends nothing after it. -/
def Obligations.WritesStopAtTheFirstFailure : Prop :=
  (∀ (i : Instr) (a n v : Nat) (val : Value) (s : State), OneWrite s i a n v val → raisedBy i s = none → s.Inv →
    s.err = .ok →
      ∃ (t : State) (out : Option Reason) (l : List TxCall), exec i s = .next t ∧
        WriteTrace (hdr (BitVec.ofNat 22 a) .write) (leBytes n v) out l ∧ t.env.wire = s.env.wire ++ l ∧
        s.Returns t (statusOf out) val ∧ t.err = errOf out ∧ t.woff = s.woff) ∧
    ∀ (i : Instr) (off : Option Word) (ws : List Word) (s : State), IsAppend s.cfg i off ws → raisedBy i s = none → s.Inv →
      s.err = .ok →
        ∃ (t : State) (n q : Nat) (out : Option Reason) (l : List TxCall), exec i s = .next t ∧
          Sent (appendWrites s.cfg (startOffset off s) ws) n q out l ∧ t.env.wire = s.env.wire ++ l ∧
          s.Returns t (statusOf out) (.offset (red s.cfg (startOffset off s + 4 * ws.length))) ∧ t.err = errOf out

/-- R87: a failed write has committed a prefix of its bytes and nothing else, and every prefix may happen. R172: an append that
fails has stored the bytes of the transactions before the one that failed, and a prefix of that one's; so of its bytes in order
it has stored some prefix, each byte standing in the ring unless a later one of them has gone over it. -/
def Obligations.FailedWriteLeavesAPrefix : Prop :=
  (∀ (i : Instr) (a n v : Nat) (val : Value) (s t : State), OneWrite s i a n v val → raisedBy i s = none → s.Inv →
    s.err = .ok → exec i s = .next t →
      ∃ j ≤ n, (t.err = .ok → j = n) ∧ (∀ k < j, t.env.mem.read (a + k) = some (BitVec.ofNat 8 (v / 256 ^ k))) ∧
        MemKept s.cfg (within a j) s.env.mem t.env.mem) ∧
    (∀ (i : Instr) (off : Option Word) (ws : List Word) (s t : State), IsAppend s.cfg i off ws → raisedBy i s = none → s.Inv →
      s.err = .ok → exec i s = .next t →
        ∃ (n q j : Nat) (out : Option Reason) (l : List TxCall),
          Sent (appendWrites s.cfg (startOffset off s) ws) n q out l ∧ t.env.wire = s.env.wire ++ l ∧
          n ≤ j ∧ j ≤ n + q ∧ j ≤ 4 * ws.length ∧ (t.err = .ok → j = 4 * ws.length) ∧
          (∀ k < j, j ≤ k + s.cfg.fifoCap →
            t.env.mem.read (s.cfg.fifoBase + red s.cfg (startOffset off s + k)) = wordsByte ws k) ∧
          MemKept s.cfg (fun x => ∃ k < j, x = fifoAddr s.cfg (startOffset off s) k) s.env.mem t.env.mem) ∧
    ∀ (i : Instr) (a n v : Nat) (val : Value) (s : State) (x : TxError) (j : Nat), OneWrite s i a n v val →
      raisedBy i s = none → s.Inv → s.err = .ok → j ≤ n →
      ∀ d1 d2 : CallDraw, succeeds d1 → d2.fails = some x → d2.commit = j → s.env.calls = [d1, d2] →
        ∃ t, exec i s = .next t ∧ t.err = .failed (.eWrite x) ∧
          (∀ k < j, t.env.mem.read (a + k) = some (BitVec.ofNat 8 (v / 256 ^ k))) ∧
          MemKept s.cfg (within a j) s.env.mem t.env.mem

/-- R147: a full-width write of an offset at `REG_WP` is exactly `FIFO_PUBLISH` of it, ghost state and all. -/
def Obligations.WriteAtWpIsPublish : Prop :=
  ∀ (s : State) (v : Word), s.Inv → v.toNat < s.cfg.fifoCap →
    exec (.wr32 (BitVec.ofNat 32 s.cfg.regWP) v) s = exec (.fifoPublish (some v)) s

/-- R68: after a 32-bit write, narrower reads see its bytes. -/
def Obligations.MixedWidthsSeeBytes : Prop :=
  ∀ (s t : State) (a v : Word), a.toNat + 4 ≤ 2 ^ 22 → (∀ x, within a.toNat 4 x → ¬ onRP s.cfg x) → s.Ready 6 →
    exec (.wr32 a v) s = .next t →
      (∀ k < 4, ∃ u, exec (.rd8 (a + BitVec.ofNat 32 k)) t = .next u ∧
        t.Returns u .ok (.word ((v.extractLsb' (8 * k) 8).setWidth 32))) ∧
      ∃ u, exec (.rd16 (a + 1)) t = .next u ∧ t.Returns u .ok (.word ((v.extractLsb' 8 16).setWidth 32))

/-- R148, R107, R92: `HOSTCMD` completes with its one byte and a flush, and has no effect on the device; and whatever the
transport answers it stops at the first failure. -/
def Obligations.HostCommandSendsOneByte : Prop :=
  (∀ (c : Word) (s : State), c.toNat < 256 → s.Ready 2 →
    ∃ t : State, exec (.hostcmd c) s = .next t ∧ s.Returns t .ok .absent ∧
      t.env.wire = s.env.wire ++ [.write [BitVec.ofNat 8 c.toNat] none, .flush none] ∧
      MemKept s.cfg nowhere s.env.mem t.env.mem ∧ t.err = .ok ∧ t.woff = s.woff ∧ t.ghost = s.ghost ∧
      t.env.tx = [] ∧ t.env.clock = s.env.clock) ∧
    ∀ (c : Word) (s : State), s.Inv → s.err = .ok →
      ∃ (t : State) (out : Option Reason) (l : List TxCall), exec (.hostcmd c) s = .next t ∧
        CommandTrace (BitVec.ofNat 8 c.toNat) out l ∧ t.env.wire = s.env.wire ++ l ∧
        s.Returns t (statusOf out) .absent ∧ t.err = errOf out ∧ t.woff = s.woff ∧ t.ghost = s.ghost ∧
        MemKept s.cfg nowhere s.env.mem t.env.mem

/-! ## The display list (41_display_list.md) -/

/-- R160, R161, R231: `DLAPPEND` completes with one write transaction at `DL_BASE + off`, never reduced, however large `off` is,
and returns `off + 4`; where `DL_CAP` is given and the word reaches past it the overflow hazard is recorded, and the write
happens all the same. -/
def Obligations.DlappendStoresTheWord : Prop :=
  ∀ (off w : Word) (s : State), s.cfg.dlBase + off.toNat + 4 ≤ 2 ^ 22 → s.Ready 3 →
    ∃ t : State, exec (.dlappend off w) s = .next t ∧ s.Returns t .ok (.offset (off.toNat + 4)) ∧
      t.env.wire = s.env.wire ++
        [.write (hdr (BitVec.ofNat 22 (s.cfg.dlBase + off.toNat)) .write) none, .write (leBytes 4 w.toNat) none,
          .flush none] ∧
      (∀ k < 4, t.env.mem.read (s.cfg.dlBase + off.toNat + k) = some (BitVec.ofNat 8 (w.toNat / 256 ^ k))) ∧
      MemKept s.cfg (within (dlAddr s.cfg off.toNat) 4) s.env.mem t.env.mem ∧
      (t.ghost.haz.dlOverflow = true ↔
        s.ghost.haz.dlOverflow = true ∨ ∃ cap, s.cfg.dlCap = some cap ∧ cap < off.toNat + 4) ∧
      t.err = .ok ∧ t.woff = s.woff ∧ t.env.tx = [] ∧ t.env.clock = s.env.clock

/-- R160, R231: the returned offset is `off + 4` in every case that does not fault, `WOFF` is not written, and the overflow
hazard is recorded exactly where `DL_CAP` is given and the word reaches past it, the error register notwithstanding. -/
def Obligations.DlappendOffsetAndOverflow : Prop :=
  ∀ (off w : Word) (s : State), s.Inv → s.cfg.dlBase + off.toNat + 4 ≤ 2 ^ 22 →
    ∃ (t : State) (st : Status), exec (.dlappend off w) s = .next t ∧ s.Returns t st (.offset (off.toNat + 4)) ∧
      t.woff = s.woff ∧
      (t.ghost.haz.dlOverflow = true ↔
        s.ghost.haz.dlOverflow = true ∨ ∃ cap, s.cfg.dlCap = some cap ∧ cap < off.toNat + 4)

/-! ## The command-FIFO writer (42_fifo_writer.md) -/

/-- R175 law 3, R171: `FIFO_WORD` completes, and byte `k` of the word stands at `FIFO_BASE + red(o + k)`; no other byte of the
device changes (RP, which the consumer moves, apart), `WOFF` and the value returned are `red(o + 4)`, and the error register and
the clock are left. -/
def Obligations.FifoWordPlacesItsBytes : Prop :=
  ∀ (off : Option Word) (w : Word) (s : State), s.Ready 6 →
    ∃ t : State, exec (.fifoWord off w) s = .next t ∧
      s.Returns t .ok (.offset (red s.cfg (startOffset off s + 4))) ∧
      t.woff = red s.cfg (startOffset off s + 4) ∧
      (∀ k < 4, t.env.mem.read (s.cfg.fifoBase + red s.cfg (startOffset off s + k)) =
        some (w.extractLsb' (8 * k) 8)) ∧
      MemKept s.cfg (fun x => ∃ k < 4, x = fifoAddr s.cfg (startOffset off s) k) s.env.mem t.env.mem ∧
      t.err = .ok ∧ t.env.tx = [] ∧ t.env.clock = s.env.clock

/-- R170: a word that does not cross the end of the window is one transaction; one that crosses it is two, first the tail bytes
at `FIFO_BASE + o`, then the rest at `FIFO_BASE`. -/
def Obligations.FifoWordTransactions : Prop :=
  ∀ (off : Option Word) (w : Word) (s : State), s.Ready 6 →
    ∃ t : State, exec (.fifoWord off w) s = .next t ∧
      (startOffset off s + 4 ≤ s.cfg.fifoCap →
        t.env.wire = s.env.wire ++
          [.write (hdr (BitVec.ofNat 22 (s.cfg.fifoBase + startOffset off s)) .write) none,
            .write (leBytes 4 w.toNat) none, .flush none]) ∧
      ∀ j, 0 < j → j < 4 → startOffset off s + j = s.cfg.fifoCap →
        t.env.wire = s.env.wire ++
          [.write (hdr (BitVec.ofNat 22 (s.cfg.fifoBase + startOffset off s)) .write) none,
            .write ((leBytes 4 w.toNat).take j) none, .flush none,
            .write (hdr (BitVec.ofNat 22 s.cfg.fifoBase) .write) none,
            .write ((leBytes 4 w.toNat).drop j) none, .flush none]

/-- R175 laws 1 and 4, R117: every append that does not fault moves `WOFF` by four a word from its start offset, mod the
capacity, and returns that offset, whatever `ERR` holds and whatever the transport answers. -/
def Obligations.AppendsMoveTheOffset : Prop :=
  ∀ (i : Instr) (off : Option Word) (ws : List Word) (s : State), IsAppend s.cfg i off ws → raisedBy i s = none →
    s.Inv →
      ∃ (t : State) (st : Status), exec i s = .next t ∧ s.Returns t st (.offset (red s.cfg (startOffset off s + 4 * ws.length))) ∧
        t.woff = red s.cfg (startOffset off s + 4 * ws.length) ∧ t.woff < s.cfg.fifoCap ∧
        (∀ r, t.err = .failed r ↔ st = .err r) ∧ st ≠ .timeout

/-- R172, R173, R175: with a transport that works every append completes, its calls are those of its words in order, and every
word the append does not itself overwrite stands in the ring with its least significant byte first. -/
def Obligations.AppendsPlaceEveryWord : Prop :=
  ∀ (i : Instr) (off : Option Word) (ws : List Word) (s : State), IsAppend s.cfg i off ws → raisedBy i s = none →
    s.Ready (6 * ws.length) →
      ∃ t : State, exec i s = .next t ∧
        s.Returns t .ok (.offset (red s.cfg (startOffset off s + 4 * ws.length))) ∧
        t.woff = red s.cfg (startOffset off s + 4 * ws.length) ∧
        t.env.wire = s.env.wire ++ appendTrace s.cfg (startOffset off s) ws ∧
        (∀ (j : Nat) (w : Word), ws[j]? = some w → 4 * (ws.length - j) ≤ s.cfg.fifoCap → ∀ k < 4,
          t.env.mem.read (s.cfg.fifoBase + red s.cfg (startOffset off s + 4 * j + k)) = some (w.extractLsb' (8 * k) 8)) ∧
        MemKept s.cfg (fun x => ∃ k < 4 * ws.length, x = fifoAddr s.cfg (startOffset off s) k) s.env.mem t.env.mem ∧
        t.err = .ok ∧ t.env.tx = [] ∧ t.env.clock = s.env.clock

/-- R175 law 2: from a `WOFF` that is a multiple of 4, an append with the default offset leaves it one, and no word splits:
every transaction carries four bytes. -/
def Obligations.DefaultOffsetsNeverSplit : Prop :=
  ∀ (i : Instr) (ws : List Word) (s t : State), IsAppend s.cfg i none ws → s.Inv → 4 ∣ s.woff → raisedBy i s = none →
    exec i s = .next t →
      4 ∣ t.woff ∧ ∃ l, t.env.wire = s.env.wire ++ l ∧
        ∀ c ∈ l, ∀ bs e, c = .write bs e → (∃ a : DevAddr, bs = hdr a .write) ∨ bs.length = 4

/-- R115: the text payload is the text, at least one zero byte, and zero bytes up to the smallest multiple of 4 above its
length; R116, R117: the words of the command are the opcode, the packed operands and the payload's groups. -/
def Obligations.TextPayload : Prop :=
  (∀ t : List Byte,
    (textBytes t).length = 4 * (t.length / 4 + 1) ∧ (∀ k < t.length, (textBytes t)[k]? = t[k]?) ∧
      (∀ k, t.length ≤ k → k < 4 * (t.length / 4 + 1) → (textBytes t)[k]? = some 0x00) ∧
      (wordsOfBytes (textBytes t)).length = t.length / 4 + 1 ∧
      ∀ g k, g < t.length / 4 + 1 → k < 4 →
        ((wordsOfBytes (textBytes t))[g]?.map fun w => w.extractLsb' (8 * k) 8) = (textBytes t)[4 * g + k]?) ∧
    ∀ (cfg : Cfg) (x y : Int) (font options : Nat) (t : List Byte),
      textWords cfg x y font options t =
        [cfg.textOpcode] ++ packText cfg x y font options ++ wordsOfBytes (textBytes t)

/-- R173, R115: with a transport that works, the bytes of the text of `FIFO_TEXT` and the zero after them stand in the ring
after the command's header words, as long as the command fits the ring. -/
def Obligations.FifoTextPlacesItsText : Prop :=
  ∀ (off : Option Word) (x y : Int) (font options : Nat) (text : List Byte) (s : State),
    text.length ≤ s.cfg.maxTextLen →
    4 * (textWords s.cfg x y font options text).length ≤ s.cfg.fifoCap →
    s.Ready (6 * (textWords s.cfg x y font options text).length) →
      ∃ t : State, exec (.fifoText off x y font options text) s = .next t ∧
        s.Returns t .ok (.offset (red s.cfg (startOffset off s +
          4 * (1 + (packText s.cfg x y font options).length + text.length / 4 + 1)))) ∧
        ∀ k ≤ text.length,
          t.env.mem.read (s.cfg.fifoBase +
            red s.cfg (startOffset off s + 4 * (1 + (packText s.cfg x y font options).length) + k)) =
          some (text.getD k 0x00)

/-- R174: `FIFO_PUBLISH` completes with one four-byte write at `REG_WP`: WP then holds the offset, no other device byte changes
(RP, which the consumer moves, apart), and `WOFF` is not written. -/
def Obligations.PublishWritesWp : Prop :=
  ∀ (v : Option Word) (s : State), operandOr s.woff v < s.cfg.fifoCap → s.Ready 3 →
    ∃ t : State, exec (.fifoPublish v) s = .next t ∧ s.Returns t .ok .absent ∧ t.wp = some (operandOr s.woff v) ∧
      t.env.wire = s.env.wire ++
        [.write (hdr (BitVec.ofNat 22 s.cfg.regWP) .write) none, .write (leBytes 4 (operandOr s.woff v)) none,
          .flush none] ∧
      MemKept s.cfg (within s.cfg.regWP (ptrBytes s.cfg)) s.env.mem t.env.mem ∧
      t.err = .ok ∧ t.woff = s.woff ∧ t.env.tx = [] ∧ t.env.clock = s.env.clock

/-- R112, R118: an absent offset or value means `WOFF`, for every operation that may omit one; an absent deadline is no deadline,
so that only `cancel` can end a wait early; `FIFO_CMD` with no fields performs exactly what `FIFO_WORD` performs; and
`DLAPPEND` has no default offset: without one it is refused, which is the model's choice (log 17). -/
def Obligations.OperandDefaults : Prop :=
  (∀ s : State, s.Inv →
    (∀ w, exec (.fifoWord none w) s = exec (.fifoWord (some (BitVec.ofNat 32 s.woff)) w) s) ∧
    (∀ c ws, exec (.fifoCmd none c ws) s = exec (.fifoCmd (some (BitVec.ofNat 32 s.woff)) c ws) s) ∧
    (∀ x y f o t, exec (.fifoText none x y f o t) s = exec (.fifoText (some (BitVec.ofNat 32 s.woff)) x y f o t) s) ∧
    exec (.fifoPublish none) s = exec (.fifoPublish (some (BitVec.ofNat 32 s.woff))) s ∧
    ∀ d, exec (.fifoWaitOffset none d) s = exec (.fifoWaitOffset (some (BitVec.ofNat 32 s.woff)) d) s) ∧
    (∀ e : Env, e.expired none = (e.peekTick 0).cancel) ∧
    (∀ (off : Option Word) (c : Word) (s : State), exec (.fifoCmd off c []) s = exec (.fifoWord off c) s) ∧
    ∀ (s : State) (r : Request), s.port.pending.head? = some r → r.op = 0x09 → r.off = none →
      step s = .refused .missingOperand

/-! ## Hazards (70_reset_and_hazards.md R225 to R232) -/

/-- R225: a write into the window marks its offsets dirty, and is an overrun exactly where one of them is published and not
known to be consumed; a write that is a publish is stated apart. An append marks the offsets of its bytes in the ring by the same
rule, those of the transactions it has begun (R140): all of them where none fails. -/
def Obligations.WritesMarkTheWindow : Prop :=
  (∀ (i : Instr) (a n v : Nat) (val : Value) (s t : State), OneWrite s i a n v val → raisedBy i s = none → s.Inv →
    s.err = .ok → ¬(a = s.cfg.regWP ∧ n = 4 ∧ v < s.cfg.fifoCap) → exec i s = .next t →
      (∀ o, o ∈ t.ghost.dirty ↔
        o ∈ s.ghost.dirty ∨ (onWindow s.cfg (s.cfg.fifoBase + o) ∧ within a n (s.cfg.fifoBase + o))) ∧
      (t.ghost.haz.overrun = true ↔ s.ghost.haz.overrun = true ∨
        ∃ o, onWindow s.cfg (s.cfg.fifoBase + o) ∧ within a n (s.cfg.fifoBase + o) ∧
          inRing s.cfg o s.ghost.lastRP s.ghost.pubOff = true) ∧
      t.ghost.pubOff = s.ghost.pubOff ∧ t.ghost.lastRP = s.ghost.lastRP ∧ t.ghost.span = s.ghost.span) ∧
    ∀ (i : Instr) (off : Option Word) (ws : List Word) (s t : State), IsAppend s.cfg i off ws → raisedBy i s = none → s.Inv →
      s.err = .ok → exec i s = .next t →
        ∃ (n q : Nat) (out : Option Reason) (l : List TxCall),
          Sent (appendWrites s.cfg (startOffset off s) ws) n q out l ∧ t.env.wire = s.env.wire ++ l ∧
          (t.err = .ok → n + q = 4 * ws.length) ∧
          (∀ o, o ∈ t.ghost.dirty ↔ o ∈ s.ghost.dirty ∨ ∃ k < n + q, o = red s.cfg (startOffset off s + k)) ∧
          (t.ghost.haz.overrun = true ↔ s.ghost.haz.overrun = true ∨
            ∃ k < n + q, inRing s.cfg (red s.cfg (startOffset off s + k)) s.ghost.lastRP s.ghost.pubOff = true)

/-- R226, R237: every append counts its bytes, and sets `H_FULL` exactly where the outstanding bytes reach the capacity; so an
append that meets the safe condition of R237 does not set it. Neither the publish offset nor the RP observation moves. -/
def Obligations.AppendsCountOutstandingBytes : Prop :=
  ∀ (i : Instr) (off : Option Word) (ws : List Word) (s t : State), IsAppend s.cfg i off ws → raisedBy i s = none →
    s.Inv → exec i s = .next t →
      t.ghost.span = s.ghost.span + 4 * ws.length ∧ t.ghost.pubOff = s.ghost.pubOff ∧ t.ghost.lastRP = s.ghost.lastRP ∧
      (t.ghost.haz.full = true ↔ s.ghost.haz.full = true ∨
        s.cfg.fifoCap ≤ dist s.cfg s.ghost.lastRP s.ghost.pubOff + s.ghost.span + 4 * ws.length)

/-- R227: a publish, whichever operation writes the whole of `REG_WP`, is flagged unwritten exactly where it announces an offset
that is not dirty, and full exactly where the bytes outstanding would reach the capacity; it clears the dirty bits it
announces, takes them off the span, and moves the publish offset. A `WR32` there of a value that is no offset is a pointer
alias and leaves the rest of the ghost state. -/
def Obligations.PublishChecks : Prop :=
  (∀ (i : Instr) (v : Nat) (val : Value) (s t : State), OneWrite s i s.cfg.regWP 4 v val → raisedBy i s = none →
    v < s.cfg.fifoCap → s.Inv → s.err = .ok → exec i s = .next t →
      (t.ghost.haz.unwritten = true ↔ s.ghost.haz.unwritten = true ∨
        ∃ o < s.cfg.fifoCap, inRing s.cfg o s.ghost.pubOff (v) = true ∧ o ∉ s.ghost.dirty) ∧
      (t.ghost.haz.full = true ↔ s.ghost.haz.full = true ∨
        0 < dist s.cfg s.ghost.pubOff v ∧
          s.cfg.fifoCap ≤ dist s.cfg s.ghost.lastRP s.ghost.pubOff + dist s.cfg s.ghost.pubOff v) ∧
      (∀ o, o ∈ t.ghost.dirty ↔
        o ∈ s.ghost.dirty ∧ inRing s.cfg o s.ghost.pubOff (v) = false) ∧
      t.ghost.span = s.ghost.span - dist s.cfg s.ghost.pubOff v ∧
      t.ghost.pubOff = v ∧ t.ghost.lastRP = s.ghost.lastRP ∧
      t.ghost.haz.overrun = s.ghost.haz.overrun ∧ t.ghost.haz.ptrAliased = s.ghost.haz.ptrAliased) ∧
    ∀ (v : Word) (s t : State), s.cfg.fifoCap ≤ v.toNat → s.Inv → s.err = .ok →
      exec (.wr32 (BitVec.ofNat 32 s.cfg.regWP) v) s = .next t →
        t.ghost = { s.ghost with haz := s.ghost.haz.set .ptrAliased }

/-- R228, R229: what a full-width read of RP or WP records; every other read records nothing. -/
def Obligations.ReadsObserveThePointers : Prop :=
  ∀ (i : Instr) (a n : Nat) (s : State), IsRead i a n → a + n ≤ 2 ^ 22 → s.Ready 3 →
    ∃ (t : State) (v : Word), exec i s = .next t ∧ s.Returns t .ok (.word v) ∧
      (a = s.cfg.regRP → n = 4 → v.toNat < s.cfg.fifoCap →
        dist s.cfg s.ghost.lastRP v.toNat ≤ dist s.cfg s.ghost.lastRP s.ghost.pubOff →
        t.ghost = { s.ghost with lastRP := v.toNat }) ∧
      (a = s.cfg.regRP → n = 4 →
        (s.cfg.fifoCap ≤ v.toNat ∨
          dist s.cfg s.ghost.lastRP s.ghost.pubOff < dist s.cfg s.ghost.lastRP v.toNat) →
        t.ghost = { s.ghost with haz := s.ghost.haz.set .rpUnexpected }) ∧
      (a = s.cfg.regWP → n = 4 → v.toNat ≠ s.ghost.pubOff →
        t.ghost = { s.ghost with haz := s.ghost.haz.set .wpReadback }) ∧
      (a = s.cfg.regWP → n = 4 → v.toNat = s.ghost.pubOff → t.ghost = s.ghost) ∧
      (¬(n = 4 ∧ (a = s.cfg.regRP ∨ a = s.cfg.regWP)) → t.ghost = s.ghost)

/-- R230: the three cases of a pointer alias, exactly, for every operation that makes one write; the appends, which write inside
the window, alias no pointer. -/
def Obligations.PointerAlias : Prop :=
  (∀ (i : Instr) (a n v : Nat) (val : Value) (s t : State), OneWrite s i a n v val → raisedBy i s = none → s.Inv →
    s.err = .ok → exec i s = .next t →
      (t.ghost.haz.ptrAliased = true ↔ s.ghost.haz.ptrAliased = true ∨
        (∃ x, within a n x ∧ onRP s.cfg x) ∨
        ((∃ x, within a n x ∧ onWP s.cfg x) ∧ ¬(a = s.cfg.regWP ∧ n = 4)) ∨
        (a = s.cfg.regWP ∧ n = 4 ∧ s.cfg.fifoCap ≤ v))) ∧
    ∀ (i : Instr) (s t : State), appendsToFifo i = true → s.Inv → exec i s = .next t →
      t.ghost.haz.ptrAliased = s.ghost.haz.ptrAliased

/-- R238: every append under a latched error moves `WOFF`, sends nothing and marks nothing; a publish of `WOFF` after `ERRCLR` is
flagged unwritten exactly where it announces an offset that was not dirty before the append. -/
def Obligations.PublishAfterPoisonedAppendIsFlagged : Prop :=
  ∀ (i : Instr) (off : Option Word) (ws : List Word) (s t u v : State) (r : Reason), IsAppend s.cfg i off ws →
    raisedBy i s = none → s.Inv → s.err = .failed r → exec i s = .next t → exec .errclr t = .next u →
    exec (.fifoPublish none) u = .next v →
      t.woff = red s.cfg (startOffset off s + 4 * ws.length) ∧ t.ghost.dirty = s.ghost.dirty ∧ t.env = s.env ∧
      (v.ghost.haz.unwritten = true ↔ s.ghost.haz.unwritten = true ∨
        ∃ o < s.cfg.fifoCap, inRing s.cfg o s.ghost.pubOff t.woff = true ∧ o ∉ s.ghost.dirty)

/-- R232, R225 to R231: a hazard bit, once set, stays set, and an operation sets no hazard but those of its own kind. -/
def Obligations.HazardsAreSticky : Prop :=
  (∀ (s t : State) (h : Hazard), s.Inv → step s = .next t → s.ghost.haz.has h = true → t.ghost.haz.has h = true) ∧
    ∀ (i : Instr) (s t : State) (h : Hazard), s.Inv → exec i s = .next t → mayRaise i h = false →
      t.ghost.haz.has h = s.ghost.haz.has h

/-- R38: no operation reads the ghost state to choose what it sends, stores or returns: from states that differ in nothing but
the ghost state and what the consumer has read, every operation and every step ends in states that differ in nothing else. What
the consumer reads is free after a hazard (R232, log 25), and the block never sees it; it is the same in both while neither has
recorded a hazard. -/
def Obligations.GhostStateIsNeverRead : Prop :=
  (∀ (i : Instr) (s : State) (g : Ghost) (rd : ConsumerReads), ∃ t g' rd',
    exec i s = .next t ∧ exec i (s.withUnseen g rd) = .next (t.withUnseen g' rd') ∧
      (rd = s.env.reads → t.ghost.haz = Hazards.none → g'.haz = Hazards.none → rd' = t.env.reads)) ∧
    ∀ (s t : State) (g : Ghost) (rd : ConsumerReads), step s = .next t →
      ∃ g' rd', step (s.withUnseen g rd) = .next (t.withUnseen g' rd')

/-! ## Polling (43_fifo_sync.md) -/

/-- R193, R194, R191: one pass of `FIFO_WAIT_OFFSET` is one read transaction of RP. It returns `OK` exactly where the value read
is the offset waited for, `TIMEOUT` exactly where it is not and the bound has expired, the error where the poll failed, and
otherwise has not returned. Expiry does not touch `ERR`, and the clock is read only after a poll that did not meet the
condition. -/
def Obligations.WaitOffsetPass : Prop :=
  ∀ (e : Option Word) (deadline : Option Nat) (s : State), s.Inv → s.err = .ok → operandOr s.woff e < s.cfg.fifoCap →
    ∃ (t : State) (out : Except Reason (List Byte)) (l : List TxCall),
      exec (.fifoWaitOffset e deadline) s = .next t ∧
      ReadTrace (readRequestBytes s.cfg (BitVec.ofNat 22 s.cfg.regRP)) 4 out l ∧ t.env.wire = s.env.wire ++ l ∧
      (∀ r, out = .error r → s.Returns t (.err r) .absent ∧ t.err = .failed r ∧ t.env.clock = s.env.clock) ∧
      (∀ got, out = .ok got → t.err = .ok ∧
        t.ghost = ghostRead s.cfg s.cfg.regRP 4 (fromLE got) s.ghost ∧
        (fromLE got = operandOr s.woff e → s.Returns t .ok .absent ∧ t.env.clock = s.env.clock) ∧
        (fromLE got ≠ operandOr s.woff e → t.env.clock = s.env.clock + (s.env.peekTick 0).tick ∧
          (((s.env.peekTick 0).cancel = true ∨
              ∃ d, deadline = some d ∧ d ≤ s.env.clock + (s.env.peekTick 0).tick) →
            s.Returns t .timeout .absent) ∧
          (¬((s.env.peekTick 0).cancel = true ∨
              ∃ d, deadline = some d ∧ d ≤ s.env.clock + (s.env.peekTick 0).tick) →
            s.Polls t))) ∧
      t.woff = s.woff ∧ MemKept s.cfg nowhere s.env.mem t.env.mem

/-- R192, R194, R191: one pass of `FIFO_WAIT_EMPTY` reads RP, then WP, and returns `OK` exactly where the two values read are
equal; otherwise as for the other wait. -/
def Obligations.WaitEmptyPass : Prop :=
  ∀ (deadline : Option Nat) (s : State), s.Inv → s.err = .ok →
    ∃ (t : State) (out1 out2 : Except Reason (List Byte)) (l1 l2 : List TxCall),
      exec (.fifoWaitEmpty deadline) s = .next t ∧
      ReadTrace (readRequestBytes s.cfg (BitVec.ofNat 22 s.cfg.regRP)) 4 out1 l1 ∧
      (∀ r, out1 = .error r → t.env.wire = s.env.wire ++ l1 ∧ s.Returns t (.err r) .absent ∧ t.err = .failed r) ∧
      (∀ got1, out1 = .ok got1 →
        ReadTrace (readRequestBytes s.cfg (BitVec.ofNat 22 s.cfg.regWP)) 4 out2 l2 ∧
        t.env.wire = s.env.wire ++ l1 ++ l2 ∧
        (∀ r, out2 = .error r → s.Returns t (.err r) .absent ∧ t.err = .failed r) ∧
        (∀ got2, out2 = .ok got2 → t.err = .ok ∧
          t.ghost = ghostRead s.cfg s.cfg.regWP 4 (fromLE got2) (ghostRead s.cfg s.cfg.regRP 4 (fromLE got1) s.ghost) ∧
          (got1 = got2 → s.Returns t .ok .absent ∧ t.env.clock = s.env.clock) ∧
          (got1 ≠ got2 → t.env.clock = s.env.clock + (s.env.peekTick 0).tick ∧
            (((s.env.peekTick 0).cancel = true ∨
                ∃ d, deadline = some d ∧ d ≤ s.env.clock + (s.env.peekTick 0).tick) →
              s.Returns t .timeout .absent) ∧
            (¬((s.env.peekTick 0).cancel = true ∨
                ∃ d, deadline = some d ∧ d ≤ s.env.clock + (s.env.peekTick 0).tick) →
              s.Polls t)))) ∧
      t.woff = s.woff ∧ MemKept s.cfg nowhere s.env.mem t.env.mem

/-- R192, R193: with the FIFO empty at entry a wait returns `OK` after one pass, whatever its deadline: one RP poll, and for
`FIFO_WAIT_EMPTY` one WP poll. -/
def Obligations.WaitsReturnWhenDrained : Prop :=
  ∀ (deadline : Option Nat) (s : State) (w : Nat), s.cfg.atomicPtrRead = true → s.rp = some w → s.wp = some w →
    (s.Ready 6 → ∃ t : State, exec (.fifoWaitEmpty deadline) s = .next t ∧ s.Returns t .ok .absent ∧
      t.env.wire = s.env.wire ++
        [.write (readRequestBytes s.cfg (BitVec.ofNat 22 s.cfg.regRP)) none, .read 4 (leBytes 4 w) none, .flush none,
          .write (readRequestBytes s.cfg (BitVec.ofNat 22 s.cfg.regWP)) none, .read 4 (leBytes 4 w) none, .flush none] ∧
      t.err = .ok ∧ t.woff = s.woff ∧ MemKept s.cfg nowhere s.env.mem t.env.mem ∧ t.rp = some w ∧
      t.env.clock = s.env.clock) ∧
    ∀ e : Option Word, operandOr s.woff e = w → w < s.cfg.fifoCap → s.Ready 3 →
      ∃ t : State, exec (.fifoWaitOffset e deadline) s = .next t ∧ s.Returns t .ok .absent ∧
        t.env.wire = s.env.wire ++
          [.write (readRequestBytes s.cfg (BitVec.ofNat 22 s.cfg.regRP)) none, .read 4 (leBytes 4 w) none, .flush none] ∧
        t.err = .ok ∧ t.woff = s.woff ∧ MemKept s.cfg nowhere s.env.mem t.env.mem ∧ t.rp = some w ∧
        t.env.clock = s.env.clock

/-- R195 items 1 and 2, R90: with atomic pointer reads and WP holding a legal offset, a wait with no deadline returns under
CHIP_DRAINS, and returns `OK` if the transport works and no cancel is asserted. Bounded: if the consumer drains the FIFO within
`N` steps, it returns `OK` within `N + 1`. Without that premise it need not return: if the consumer stalls short of WP, the wait
is still polling after any number of steps. -/
def Obligations.WaitsReturnIfTheChipDrains : Prop :=
  ∀ (s : State) (r : Request) (i : Instr) (w : Nat), s.port.pending.head? = some r → decode r = .ok i →
    s.cfg.atomicPtrRead = true → s.fault = none → s.wp = some w → w < s.cfg.fifoCap →
    (i = .fifoWaitEmpty none ∨ ∃ e, i = .fifoWaitOffset e none ∧ operandOr s.woff e = w) → s.Inv → s.err = .ok →
      (s.ChipDrains → ∃ k u st, runFor k s = some u ∧
        u.port.results = s.port.results ++ [{ status := st, value := .absent }] ∧ u.reqIdx = s.reqIdx + 1 ∧
        (s.env.works (6 * k) → s.env.neverCancelled k → st = .ok)) ∧
      (∀ N, s.env.works (6 * (N + 1)) → s.env.neverCancelled (N + 1) → (∃ k ≤ N, ∃ u, runFor k s = some u ∧ u.drained) →
        ∃ k ≤ N + 1, ∃ u, runFor k s = some u ∧
          u.port.results = s.port.results ++ [{ status := .ok, value := .absent }] ∧ u.reqIdx = s.reqIdx + 1) ∧
      ∀ N, s.env.works (6 * N) → s.env.neverCancelled N → (∀ k < 7 * N, s.env.peekMove k = 0) → ¬ s.drained →
        ∃ u, runFor N s = some u ∧ u.port = s.port ∧ u.reqIdx = s.reqIdx ∧ ¬ u.drained

/-- R191, R195, R233: a wait with a deadline returns, whatever the chip and the transport do, by the pass whose reading of the
clock reaches the deadline; if the clock advances at every reading, within as many passes as time is left, and one if none is. -/
def Obligations.DeadlineBoundsTheWait : Prop :=
  ∀ (s : State) (r : Request) (i : Instr) (d : Nat), s.Inv → s.port.pending.head? = some r → decode r = .ok i →
    s.fault = none → raisedBy i s = none →
    (i = .fifoWaitEmpty (some d) ∨ ∃ e, i = .fifoWaitOffset e (some d)) →
      (∀ n, 0 < n → d ≤ s.env.clockAfter n → ∃ k ≤ n, ∃ u, runFor k s = some u ∧ u.reqIdx = s.reqIdx + 1) ∧
      (s.env.clockRuns (max 1 (d - s.env.clock)) →
        ∃ k ≤ max 1 (d - s.env.clock), ∃ u, runFor k s = some u ∧ u.reqIdx = s.reqIdx + 1)

/-! ## The consumer (20_memory.md R88, R89) -/

/-- R88, R89, R80: a step of the consumer is enabled only where RP and WP differ and WP is a legal offset; it moves RP forward, not
past WP, reads exactly the offsets it passes, in order, each of them published, and changes nothing else; a step that is not
enabled changes nothing. Before any hazard it reads the bytes the device holds; after one (`loose`) it reads any bytes whatever
(R83, R232; the form of the free value is log 25). -/
def Obligations.ConsumerStepIsBounded : Prop :=
  ∀ (cfg : Cfg) (loose : Bool) (n r w : Nat) (e : Env), failedCheck cfg = none → e.mem.readLE cfg.regRP 4 = some r →
    e.mem.readLE cfg.regWP 4 = some w →
      ((r = w ∨ cfg.fifoCap ≤ w ∨ n = 0 ∨ dist cfg r w < n) → consumerStep cfg loose n e = e) ∧
      (r ≠ w → w < cfg.fifoCap → 0 < n → n ≤ dist cfg r w →
        ∃ (m : Memory) (rd : ConsumerReads) (l : List (Nat × Option Byte)),
          consumerStep cfg loose n e = { e with mem := m, reads := rd } ∧
          m.readLE cfg.regRP 4 = some (red cfg (r + n)) ∧ dist cfg r (red cfg (r + n)) = n ∧
          (∀ x, ¬ onRP cfg x → m.read x = e.mem.read x) ∧ rd.log = e.reads.log ++ l ∧
          l.map Prod.fst = (List.range n).map (fun k => red cfg (r + k)) ∧
          (∀ o < cfg.fifoCap, inRing cfg o r (red cfg (r + n)) = true ↔ o ∈ l.map Prod.fst) ∧
          (∀ o ∈ l.map Prod.fst, inRing cfg o r w = true ∧ o < cfg.fifoCap) ∧
          (loose = false → (∀ o b, (o, b) ∈ l → b = e.mem.read (cfg.fifoBase + o)) ∧ rd.draws = e.reads.draws) ∧
          (loose = true → ∀ bs ds, bs.length = n → e.reads.draws = bs ++ ds →
            l.map Prod.snd = bs.map some ∧ rd.draws = ds))

/-- R88: over any operation that does not store to RP, whatever it stores to WP, RP moves forward by at most its distance to the
WP the operation found, for the consumer's turns in it all come before that store; and over any operation that does not store
to WP, WP keeps its value. -/
def Obligations.RpMovesForwardOnly : Prop :=
  ∀ (i : Instr) (s t : State) (r w : Nat), s.Inv → s.rp = some r → s.wp = some w → exec i s = .next t →
    ((∀ x, mayStore i s x → ¬ onRP s.cfg x) → ∃ n ≤ dist s.cfg r w, (n = 0 → t.rp = some r) ∧
      (0 < n → w < s.cfg.fifoCap ∧ r ≠ w ∧ t.rp = some (red s.cfg (r + n)))) ∧
    ((∀ x, mayStore i s x → ¬ onWP s.cfg x) → t.wp = some w)

/-! ## The whole machine -/

/-- Every step keeps the invariant: a checked configuration, offsets below the capacity, canonical memory and dirty list, pointer
registers that hold a value, no byte of a successful transaction left in the transport, one result record per return. -/
def Obligations.EveryStepKeepsTheInvariant : Prop := ∀ s t : State, s.Inv → step s = .next t → t.Inv

/-- R34, R31: no operation writes the configuration, and only the three appends write `WOFF`. -/
def Obligations.OnlyAppendsWriteWoff : Prop :=
  (∀ s t : State, step s = .next t → s.Inv → t.cfg = s.cfg) ∧
    ∀ (i : Instr) (s t : State), s.Inv → exec i s = .next t → appendsToFifo i = false → t.woff = s.woff

/-- R35, R36: an operation that returns leaves one result record and advances `REQ_IDX` by one; a wait that goes on and an
operation that faults leave both, and the request, where they are. -/
def Obligations.RequestIndexCountsReturns : Prop :=
  ∀ (i : Instr) (s t : State), s.Inv → exec i s = .next t →
    (∃ st v, s.Returns t st v) ∨
      (t.port = s.port ∧ t.reqIdx = s.reqIdx ∧
        (raisedBy i s ≠ none ∨ (∃ d, i = .fifoWaitEmpty d) ∨ ∃ e d, i = .fifoWaitOffset e d))

/-- R76, R93, R140, R84: what any operation sends is whole transactions in a row, the last perhaps cut after its first failing
call; every header is the framer's own, so no intent is reserved; `TxIrq` is never called (R61); and with no error no byte is
left in the transport. -/
def Obligations.OperationsSendFramedTransactions : Prop :=
  ∀ (i : Instr) (s t : State), s.Inv → exec i s = .next t →
    ∃ l, t.env.wire = s.env.wire ++ l ∧ Framed s.cfg l ∧
      (l ≠ [] → t.err = .ok → t.env.txFailed = false ∧ t.env.tx = [])

/-- The memory frame of every operation: a byte changes only where the operation stores, or where the consumer moves RP. -/
def Obligations.MemoryFrame : Prop :=
  ∀ (i : Instr) (s t : State), s.Inv → exec i s = .next t → MemKept s.cfg (mayStore i s) s.env.mem t.env.mem

/-- R191, R210: the clock never goes back, and only a wait reads it. -/
def Obligations.ClockNeverGoesBack : Prop :=
  ∀ (i : Instr) (s t : State), s.Inv → exec i s = .next t →
    s.env.clock ≤ t.env.clock ∧
      ((∀ d, i ≠ .fifoWaitEmpty d) → (∀ e d, i ≠ .fifoWaitOffset e d) → t.env.clock = s.env.clock)
end

