-- ==== Sys2Proof/Laws/Config.lean ====
section
/-! SUPPORT. What a configuration that passes the construction checks guarantees (70_reset_and_hazards.md R220). -/

namespace Sys2Proof.Machine

/-- The facts the meanings rest on, of a configuration that passes every check. -/
structure CfgFacts (cfg : Cfg) : Prop where
  cap_ge : 4 ≤ cfg.fifoCap
  cap_pow : ∃ k, cfg.fifoCap = 2 ^ k
  fifo_in : cfg.fifoBase + cfg.fifoCap ≤ addrLimit
  dl_in : cfg.dlBase < addrLimit
  rp_in : cfg.regRP + 4 ≤ addrLimit
  wp_in : cfg.regWP + 4 ≤ addrLimit
  rp_wp : cfg.regRP + 4 ≤ cfg.regWP ∨ cfg.regWP + 4 ≤ cfg.regRP
  fifo_rp : cfg.fifoBase + cfg.fifoCap ≤ cfg.regRP ∨ cfg.regRP + 4 ≤ cfg.fifoBase
  fifo_wp : cfg.fifoBase + cfg.fifoCap ≤ cfg.regWP ∨ cfg.regWP + 4 ≤ cfg.fifoBase
  ptr : cfg.ptrWidth = 32
  pack : ∃ ws, cfg.packText = .fixed ws

theorem failedCheck_eq_none_iff (cfg : Cfg) :
    failedCheck cfg = none ↔
      chk1 cfg = true ∧ chk2 cfg = true ∧ chk3 cfg = true ∧ chk4 cfg = true ∧ chk5 cfg = true ∧ chk6 cfg = true ∧
        chk7 cfg = true := by
  unfold failedCheck
  cases chk1 cfg <;> cases chk2 cfg <;> cases chk3 cfg <;> cases chk4 cfg <;> cases chk5 cfg <;> cases chk6 cfg <;>
    cases chk7 cfg <;> simp

theorem isPowerOfTwo_iff (n : Nat) : isPowerOfTwo n = true ↔ ∃ k, n = 2 ^ k := by
  simp only [isPowerOfTwo, Bool.and_eq_true, decide_eq_true_eq]
  constructor
  · rintro ⟨-, h⟩
    exact ⟨_, h.symm⟩
  · rintro ⟨k, rfl⟩
    exact ⟨by positivity, by rw [Nat.log2_two_pow]⟩

/-- A configuration that passes every check. -/
theorem cfgFacts {cfg : Cfg} (h : failedCheck cfg = none) : CfgFacts cfg := by
  obtain ⟨h1, h2, h3, h4, h5, h6, h7⟩ := (failedCheck_eq_none_iff cfg).1 h
  simp only [chk1, chk2, chk3, chk4, chk6, Bool.and_eq_true, decide_eq_true_eq, isPowerOfTwo_iff] at h1 h2 h3 h4 h6
  simp only [chk5, regions, pairwiseDisjoint, List.all_cons, Bool.and_eq_true, disjoint, Bool.or_eq_true,
    decide_eq_true_eq] at h5
  refine
    { cap_ge := h1.2, cap_pow := h1.1, fifo_in := h2, dl_in := h3.1, rp_in := by omega, wp_in := by omega,
      rp_wp := by omega, fifo_rp := by omega, fifo_wp := by omega, ptr := h6, pack := ?_ }
  unfold chk7 at h7
  cases hp : cfg.packText with
  | fixed ws => exact ⟨ws, rfl⟩
  | varying id => rw [hp] at h7; exact absurd h7 (by simp)

theorem CfgFacts.cap_pos {cfg : Cfg} (h : CfgFacts cfg) : 0 < cfg.fifoCap := by
  have := h.cap_ge
  omega

/-- The capacity is a multiple of 4. -/
theorem CfgFacts.four_dvd {cfg : Cfg} (c : CfgFacts cfg) : 4 ∣ cfg.fifoCap := by
  obtain ⟨k, hk⟩ := c.cap_pow
  have := c.cap_ge
  rw [hk] at this ⊢
  have h2 : 2 ≤ k := by
    by_contra h
    have : k = 0 ∨ k = 1 := by omega
    rcases this with rfl | rfl <;> simp at *
  exact pow_dvd_pow 2 h2

theorem CfgFacts.ptrBytes_eq {cfg : Cfg} (c : CfgFacts cfg) : ptrBytes cfg = 4 := by rw [ptrBytes, c.ptr]

end Sys2Proof.Machine
end

