-- ==== Sys2Proof/Laws/Ring.lean ====
section
/-! SUPPORT. The laws of ring arithmetic (00_scope.md R9). -/

namespace Sys2Proof.Machine

variable {cfg : Cfg}

theorem red_lt (h : 0 < cfg.fifoCap) (o : Nat) : red cfg o < cfg.fifoCap := Nat.mod_lt _ h

theorem red_of_lt {o : Nat} (h : o < cfg.fifoCap) : red cfg o = o := Nat.mod_eq_of_lt h

theorem red_red_add (o k : Nat) : red cfg (red cfg o + k) = red cfg (o + k) := by
  simp [red, Nat.add_mod]

theorem dist_lt (h : 0 < cfg.fifoCap) (a b : Nat) : dist cfg a b < cfg.fifoCap := Nat.mod_lt _ h

/-- Going `dist(a, b)` forward from `a` arrives at `b`. -/
theorem add_dist (h : 0 < cfg.fifoCap) (a b : Nat) : red cfg (a + dist cfg a b) = red cfg b := by
  have hm : a % cfg.fifoCap < cfg.fifoCap := Nat.mod_lt _ h
  have hd := Nat.div_add_mod a cfg.fifoCap
  rw [red, dist, red, Nat.add_mod_mod]
  have : a + (b + (cfg.fifoCap - a % cfg.fifoCap)) = b + cfg.fifoCap * (a / cfg.fifoCap + 1) := by
    rw [Nat.mul_add, Nat.mul_one]
    omega
  rw [this, Nat.add_mul_mod_self_left]

/-- The distance to a point `n < FIFO_CAP` further on is `n`. -/
theorem dist_red_add (h : 0 < cfg.fifoCap) (a n : Nat) (hn : n < cfg.fifoCap) : dist cfg a (red cfg (a + n)) = n := by
  have hm : a % cfg.fifoCap < cfg.fifoCap := Nat.mod_lt _ h
  have hd := Nat.div_add_mod a cfg.fifoCap
  rw [dist, red, Nat.mod_add_mod]
  have : a + n + (cfg.fifoCap - a % cfg.fifoCap) = n + cfg.fifoCap * (a / cfg.fifoCap + 1) := by
    rw [Nat.mul_add, Nat.mul_one]
    omega
  rw [this, Nat.add_mul_mod_self_left, Nat.mod_eq_of_lt hn]

@[simp] theorem dist_self (h : 0 < cfg.fifoCap) (a : Nat) : dist cfg a a = 0 := by
  have hm : a % cfg.fifoCap < cfg.fifoCap := Nat.mod_lt _ h
  have hd := Nat.div_add_mod a cfg.fifoCap
  rw [dist]
  have : a + (cfg.fifoCap - a % cfg.fifoCap) = 0 + cfg.fifoCap * (a / cfg.fifoCap + 1) := by
    rw [Nat.mul_add, Nat.mul_one]
    omega
  rw [this, Nat.add_mul_mod_self_left, Nat.zero_mod]

/-- Distances see offsets only mod the capacity. -/
theorem dist_red_left (a b : Nat) : dist cfg (red cfg a) b = dist cfg a b := by
  rw [dist, dist, red, Nat.mod_mod]

theorem dist_red_right (a b : Nat) : dist cfg a (red cfg b) = dist cfg a b := by
  rw [dist, dist, red, Nat.mod_add_mod]

/-- Moving `n` forward, not past `w`, shortens the way to `w` by `n`. -/
theorem dist_add_left (h : 0 < cfg.fifoCap) (a w n : Nat) (hn : n ≤ dist cfg a w) :
    dist cfg (red cfg (a + n)) w = dist cfg a w - n := by
  have hw := dist_lt h a w
  rw [← dist_red_right (b := w), ← add_dist h a w, dist_red_left, dist_red_right]
  have : a + dist cfg a w = a + n + (dist cfg a w - n) := by omega
  rw [this, ← dist_red_right, dist_red_add h _ _ (by omega)]

/-- A distance of 0 is between offsets equal mod the capacity. -/
theorem dist_eq_zero (h : 0 < cfg.fifoCap) {a b : Nat} (hd : dist cfg a b = 0) : red cfg a = red cfg b := by
  have := add_dist h a b
  rwa [hd, add_zero] at this

/-- `ringOffsets` lists exactly the offsets of which `inRing` is true. -/
theorem mem_ringOffsets (h : 0 < cfg.fifoCap) (o a b : Nat) :
    o ∈ ringOffsets cfg a b ↔ o < cfg.fifoCap ∧ inRing cfg o a b = true := by
  simp only [ringOffsets, List.mem_map, List.mem_range, inRing, decide_eq_true_eq]
  have hb := dist_lt h a b
  constructor
  · rintro ⟨i, hi, rfl⟩
    exact ⟨red_lt h _, by rw [dist_red_add h _ _ (by omega)]; exact hi⟩
  · rintro ⟨ho, hd⟩
    exact ⟨dist cfg a o, hd, by rw [add_dist h, red_of_lt ho]⟩

@[simp] theorem ringOffsets_length (a b : Nat) : (ringOffsets cfg a b).length = dist cfg a b := by
  simp [ringOffsets]

end Sys2Proof.Machine
end

