-- ==== Sys2Proof/Laws/State.lean ====
section
/-! SUPPORT. One lemma per field of the state per update, so that no later proof unfolds a record update. -/

namespace Sys2Proof.Machine

/-! ### `State.clearErr` -/

@[simp] theorem State.clearErr_cfg (s : State) : s.clearErr.cfg = s.cfg := rfl
@[simp] theorem State.clearErr_woff (s : State) : s.clearErr.woff = s.woff := rfl
@[simp] theorem State.clearErr_err (s : State) : s.clearErr.err = .ok := rfl
@[simp] theorem State.clearErr_fault (s : State) : s.clearErr.fault = s.fault := rfl
@[simp] theorem State.clearErr_reqIdx (s : State) : s.clearErr.reqIdx = s.reqIdx := rfl
@[simp] theorem State.clearErr_ghost (s : State) : s.clearErr.ghost = s.ghost := rfl
@[simp] theorem State.clearErr_env (s : State) : s.clearErr.env = s.env := rfl
@[simp] theorem State.clearErr_port (s : State) : s.clearErr.port = s.port := rfl

/-! ### `State.complete` -/

@[simp] theorem State.complete_cfg (st : Status) (v : Value) (s : State) : (s.complete st v).cfg = s.cfg := rfl
@[simp] theorem State.complete_woff (st : Status) (v : Value) (s : State) : (s.complete st v).woff = s.woff := rfl
@[simp] theorem State.complete_err (st : Status) (v : Value) (s : State) : (s.complete st v).err = s.err := rfl
@[simp] theorem State.complete_fault (st : Status) (v : Value) (s : State) : (s.complete st v).fault = s.fault := rfl
@[simp] theorem State.complete_reqIdx (st : Status) (v : Value) (s : State) : (s.complete st v).reqIdx = s.reqIdx + 1 := rfl
@[simp] theorem State.complete_ghost (st : Status) (v : Value) (s : State) : (s.complete st v).ghost = s.ghost := rfl
@[simp] theorem State.complete_env (st : Status) (v : Value) (s : State) : (s.complete st v).env = s.env := rfl
@[simp] theorem State.complete_port (st : Status) (v : Value) (s : State) : (s.complete st v).port = { pending := s.port.pending.tail, results := s.port.results ++ [{ status := st, value := v }] } := rfl

/-! ### `State.raiseFault` -/

@[simp] theorem State.raiseFault_cfg (x : FaultRec) (s : State) : (s.raiseFault x).cfg = s.cfg := by
  unfold State.raiseFault; split <;> rfl
@[simp] theorem State.raiseFault_woff (x : FaultRec) (s : State) : (s.raiseFault x).woff = s.woff := by
  unfold State.raiseFault; split <;> rfl
@[simp] theorem State.raiseFault_err (x : FaultRec) (s : State) : (s.raiseFault x).err = s.err := by
  unfold State.raiseFault; split <;> rfl
@[simp] theorem State.raiseFault_reqIdx (x : FaultRec) (s : State) : (s.raiseFault x).reqIdx = s.reqIdx := by
  unfold State.raiseFault; split <;> rfl
@[simp] theorem State.raiseFault_ghost (x : FaultRec) (s : State) : (s.raiseFault x).ghost = s.ghost := by
  unfold State.raiseFault; split <;> rfl
@[simp] theorem State.raiseFault_env (x : FaultRec) (s : State) : (s.raiseFault x).env = s.env := by
  unfold State.raiseFault; split <;> rfl
@[simp] theorem State.raiseFault_port (x : FaultRec) (s : State) : (s.raiseFault x).port = s.port := by
  unfold State.raiseFault; split <;> rfl

/-! ### `State.latch` -/

@[simp] theorem State.latch_cfg (r : Reason) (s : State) : (s.latch r).cfg = s.cfg := by
  unfold State.latch; split <;> rfl
@[simp] theorem State.latch_woff (r : Reason) (s : State) : (s.latch r).woff = s.woff := by
  unfold State.latch; split <;> rfl
@[simp] theorem State.latch_fault (r : Reason) (s : State) : (s.latch r).fault = s.fault := by
  unfold State.latch; split <;> rfl
@[simp] theorem State.latch_reqIdx (r : Reason) (s : State) : (s.latch r).reqIdx = s.reqIdx := by
  unfold State.latch; split <;> rfl
@[simp] theorem State.latch_ghost (r : Reason) (s : State) : (s.latch r).ghost = s.ghost := by
  unfold State.latch; split <;> rfl
@[simp] theorem State.latch_env (r : Reason) (s : State) : (s.latch r).env = s.env := by
  unfold State.latch; split <;> rfl
@[simp] theorem State.latch_port (r : Reason) (s : State) : (s.latch r).port = s.port := by
  unfold State.latch; split <;> rfl

/-! ### `Env.popMove` -/

@[simp] theorem Env.popMove_mem (e : Env) : e.popMove.mem = e.mem := rfl
@[simp] theorem Env.popMove_tx (e : Env) : e.popMove.tx = e.tx := rfl
@[simp] theorem Env.popMove_txFailed (e : Env) : e.popMove.txFailed = e.txFailed := rfl
@[simp] theorem Env.popMove_clock (e : Env) : e.popMove.clock = e.clock := rfl
@[simp] theorem Env.popMove_reads (e : Env) : e.popMove.reads = e.reads := rfl
@[simp] theorem Env.popMove_wire (e : Env) : e.popMove.wire = e.wire := rfl
@[simp] theorem Env.popMove_moves (e : Env) : e.popMove.moves = e.moves.tail := rfl
@[simp] theorem Env.popMove_moveNo (e : Env) : e.popMove.moveNo = e.moveNo + 1 := rfl
@[simp] theorem Env.popMove_calls (e : Env) : e.popMove.calls = e.calls := rfl
@[simp] theorem Env.popMove_callNo (e : Env) : e.popMove.callNo = e.callNo := rfl
@[simp] theorem Env.popMove_ticks (e : Env) : e.popMove.ticks = e.ticks := rfl
@[simp] theorem Env.popMove_tickNo (e : Env) : e.popMove.tickNo = e.tickNo := rfl

/-! ### `Env.popCall` -/

@[simp] theorem Env.popCall_mem (e : Env) : e.popCall.mem = e.mem := rfl
@[simp] theorem Env.popCall_tx (e : Env) : e.popCall.tx = e.tx := rfl
@[simp] theorem Env.popCall_txFailed (e : Env) : e.popCall.txFailed = e.txFailed := rfl
@[simp] theorem Env.popCall_clock (e : Env) : e.popCall.clock = e.clock := rfl
@[simp] theorem Env.popCall_reads (e : Env) : e.popCall.reads = e.reads := rfl
@[simp] theorem Env.popCall_wire (e : Env) : e.popCall.wire = e.wire := rfl
@[simp] theorem Env.popCall_moves (e : Env) : e.popCall.moves = e.moves := rfl
@[simp] theorem Env.popCall_moveNo (e : Env) : e.popCall.moveNo = e.moveNo := rfl
@[simp] theorem Env.popCall_calls (e : Env) : e.popCall.calls = e.calls.tail := rfl
@[simp] theorem Env.popCall_callNo (e : Env) : e.popCall.callNo = e.callNo + 1 := rfl
@[simp] theorem Env.popCall_ticks (e : Env) : e.popCall.ticks = e.ticks := rfl
@[simp] theorem Env.popCall_tickNo (e : Env) : e.popCall.tickNo = e.tickNo := rfl

/-! ### `Env.popTick` -/

@[simp] theorem Env.popTick_mem (e : Env) : e.popTick.mem = e.mem := rfl
@[simp] theorem Env.popTick_tx (e : Env) : e.popTick.tx = e.tx := rfl
@[simp] theorem Env.popTick_txFailed (e : Env) : e.popTick.txFailed = e.txFailed := rfl
@[simp] theorem Env.popTick_clock (e : Env) : e.popTick.clock = e.clock + e.tick.tick := rfl
@[simp] theorem Env.popTick_reads (e : Env) : e.popTick.reads = e.reads := rfl
@[simp] theorem Env.popTick_wire (e : Env) : e.popTick.wire = e.wire := rfl
@[simp] theorem Env.popTick_moves (e : Env) : e.popTick.moves = e.moves := rfl
@[simp] theorem Env.popTick_moveNo (e : Env) : e.popTick.moveNo = e.moveNo := rfl
@[simp] theorem Env.popTick_calls (e : Env) : e.popTick.calls = e.calls := rfl
@[simp] theorem Env.popTick_callNo (e : Env) : e.popTick.callNo = e.callNo := rfl
@[simp] theorem Env.popTick_ticks (e : Env) : e.popTick.ticks = e.ticks.tail := rfl
@[simp] theorem Env.popTick_tickNo (e : Env) : e.popTick.tickNo = e.tickNo + 1 := rfl

/-! ### `Env.logCall` -/

@[simp] theorem Env.logCall_mem (c : TxCall) (e : Env) : (e.logCall c).mem = e.mem := rfl
@[simp] theorem Env.logCall_tx (c : TxCall) (e : Env) : (e.logCall c).tx = e.tx := rfl
@[simp] theorem Env.logCall_txFailed (c : TxCall) (e : Env) : (e.logCall c).txFailed = e.txFailed := rfl
@[simp] theorem Env.logCall_clock (c : TxCall) (e : Env) : (e.logCall c).clock = e.clock := rfl
@[simp] theorem Env.logCall_reads (c : TxCall) (e : Env) : (e.logCall c).reads = e.reads := rfl
@[simp] theorem Env.logCall_wire (c : TxCall) (e : Env) : (e.logCall c).wire = e.wire ++ [c] := rfl
@[simp] theorem Env.logCall_moves (c : TxCall) (e : Env) : (e.logCall c).moves = e.moves := rfl
@[simp] theorem Env.logCall_moveNo (c : TxCall) (e : Env) : (e.logCall c).moveNo = e.moveNo := rfl
@[simp] theorem Env.logCall_calls (c : TxCall) (e : Env) : (e.logCall c).calls = e.calls.tail := rfl
@[simp] theorem Env.logCall_callNo (c : TxCall) (e : Env) : (e.logCall c).callNo = e.callNo + 1 := rfl
@[simp] theorem Env.logCall_ticks (c : TxCall) (e : Env) : (e.logCall c).ticks = e.ticks := rfl
@[simp] theorem Env.logCall_tickNo (c : TxCall) (e : Env) : (e.logCall c).tickNo = e.tickNo := rfl

/-! ### `Ghost.flagIf` -/

@[simp] theorem Ghost.flagIf_pubOff (c : Bool) (h : Hazard) (g : Ghost) : (g.flagIf c h).pubOff = g.pubOff := by
  unfold Ghost.flagIf; split <;> rfl
@[simp] theorem Ghost.flagIf_lastRP (c : Bool) (h : Hazard) (g : Ghost) : (g.flagIf c h).lastRP = g.lastRP := by
  unfold Ghost.flagIf; split <;> rfl
@[simp] theorem Ghost.flagIf_dirty (c : Bool) (h : Hazard) (g : Ghost) : (g.flagIf c h).dirty = g.dirty := by
  unfold Ghost.flagIf; split <;> rfl
@[simp] theorem Ghost.flagIf_span (c : Bool) (h : Hazard) (g : Ghost) : (g.flagIf c h).span = g.span := by
  unfold Ghost.flagIf; split <;> rfl

/-! ### `State.between` -/

@[simp] theorem State.between_cfg (s : State) : s.between.cfg = s.cfg := rfl
@[simp] theorem State.between_woff (s : State) : s.between.woff = s.woff := rfl
@[simp] theorem State.between_err (s : State) : s.between.err = s.err := rfl
@[simp] theorem State.between_fault (s : State) : s.between.fault = s.fault := rfl
@[simp] theorem State.between_reqIdx (s : State) : s.between.reqIdx = s.reqIdx := rfl
@[simp] theorem State.between_ghost (s : State) : s.between.ghost = s.ghost := rfl
@[simp] theorem State.between_port (s : State) : s.between.port = s.port := rfl
@[simp] theorem State.between_env (s : State) : s.between.env = s.env.gap s.cfg s.ghost.haz.any := rfl

/-! ### `thenConsumer` -/

@[simp] theorem thenConsumer_next (t : State) : thenConsumer (.next t) = .next t.between := rfl
@[simp] theorem thenConsumer_fault (f : Fault) : thenConsumer (.fault f) = .fault f := rfl
@[simp] theorem thenConsumer_refused (x : Refusal) : thenConsumer (.refused x) = .refused x := rfl

/-! ### `placeRequest` -/

@[simp] theorem placeRequest_cfg (r : Request) (s : State) : (placeRequest r s).cfg = s.cfg := rfl
@[simp] theorem placeRequest_woff (r : Request) (s : State) : (placeRequest r s).woff = s.woff := rfl
@[simp] theorem placeRequest_err (r : Request) (s : State) : (placeRequest r s).err = s.err := rfl
@[simp] theorem placeRequest_fault (r : Request) (s : State) : (placeRequest r s).fault = s.fault := rfl
@[simp] theorem placeRequest_reqIdx (r : Request) (s : State) : (placeRequest r s).reqIdx = s.reqIdx := rfl
@[simp] theorem placeRequest_ghost (r : Request) (s : State) : (placeRequest r s).ghost = s.ghost := rfl
@[simp] theorem placeRequest_env (r : Request) (s : State) : (placeRequest r s).env = s.env := rfl

/-! ### `State.construct` -/

@[simp] theorem State.construct_cfg (cfg : Cfg) (mem : Memory) : (State.construct cfg mem).cfg = cfg := rfl
@[simp] theorem State.construct_woff (cfg : Cfg) (mem : Memory) : (State.construct cfg mem).woff = 0 := rfl
@[simp] theorem State.construct_err (cfg : Cfg) (mem : Memory) : (State.construct cfg mem).err = .ok := rfl
@[simp] theorem State.construct_fault (cfg : Cfg) (mem : Memory) : (State.construct cfg mem).fault = (failedCheck cfg).map FaultRec.config := rfl
@[simp] theorem State.construct_reqIdx (cfg : Cfg) (mem : Memory) : (State.construct cfg mem).reqIdx = 0 := rfl
@[simp] theorem State.construct_ghost (cfg : Cfg) (mem : Memory) : (State.construct cfg mem).ghost = Ghost.reset := rfl
@[simp] theorem State.construct_env (cfg : Cfg) (mem : Memory) : (State.construct cfg mem).env = Env.reset mem := rfl
@[simp] theorem State.construct_port (cfg : Cfg) (mem : Memory) : (State.construct cfg mem).port = { pending := [], results := [] } := rfl

end Sys2Proof.Machine
end

