-- ==== Sys2Proof/Laws/Ghost.lean ====
section
/-! SUPPORT. The laws of the ghost bookkeeping: hazards are sticky, offsets stay below the capacity, the dirty list keeps its
canonical form (10_state.md R38, 70_reset_and_hazards.md R232). -/

namespace Sys2Proof.Machine

/-- The ranges of the ghost fields (10_state.md R38). -/
structure GhostOk (cfg : Cfg) (g : Ghost) : Prop where
  pubOff_lt : g.pubOff < cfg.fifoCap
  lastRP_lt : g.lastRP < cfg.fifoCap
  dirty_wf : dirtyWfFrom cfg.fifoCap 0 g.dirty = true

/-! ## Hazard flags -/

theorem Hazards.has_set (z : Hazards) (h x : Hazard) : (z.set h).has x = (decide (x = h) || z.has x) := by
  cases h <;> cases x <;> simp [Hazards.set, Hazards.has]

theorem Ghost.flagIf_has (c : Bool) (h x : Hazard) (g : Ghost) :
    (g.flagIf c h).haz.has x = ((c && decide (x = h)) || g.haz.has x) := by
  unfold Ghost.flagIf
  cases c <;> simp [Hazards.has_set]

/-- A set flag stays set. -/
theorem Ghost.flagIf_haz {c : Bool} {h x : Hazard} {g : Ghost} (hx : g.haz.has x = true) :
    (g.flagIf c h).haz.has x = true := by
  rw [Ghost.flagIf_has, hx, Bool.or_true]

theorem Ghost.flagIf_ok {cfg : Cfg} {c : Bool} {h : Hazard} {g : Ghost} (hg : GhostOk cfg g) :
    GhostOk cfg (g.flagIf c h) :=
  ⟨by simpa using hg.pubOff_lt, by simpa using hg.lastRP_lt, by simpa using hg.dirty_wf⟩

theorem Ghost.flagIf_false (h : Hazard) (g : Ghost) : g.flagIf false h = g := rfl

/-! ## The dirty list -/

theorem dirtyWfFrom_mono {cap lo lo' : Nat} {l : List Nat} (h : dirtyWfFrom cap lo l = true) (hl : lo' ≤ lo) :
    dirtyWfFrom cap lo' l = true := by
  cases l with
  | nil => rfl
  | cons o os =>
    simp only [dirtyWfFrom, Bool.and_eq_true, decide_eq_true_eq] at h ⊢
    exact ⟨⟨by omega, h.1.2⟩, h.2⟩

theorem markDirty_wf {cap lo o : Nat} {l : List Nat} (h : dirtyWfFrom cap lo l = true) (hlo : lo ≤ o) (ho : o < cap) :
    dirtyWfFrom cap lo (markDirty o l) = true := by
  induction l generalizing lo with
  | nil => simp [markDirty, dirtyWfFrom, hlo, ho]
  | cons p ps ih =>
    simp only [dirtyWfFrom, Bool.and_eq_true, decide_eq_true_eq] at h
    unfold markDirty
    split_ifs with h1 h2
    · simp only [dirtyWfFrom, Bool.and_eq_true, decide_eq_true_eq]
      exact ⟨⟨hlo, ho⟩, ⟨by omega, h.1.2⟩, h.2⟩
    · simp only [dirtyWfFrom, Bool.and_eq_true, decide_eq_true_eq]
      exact h
    · simp only [dirtyWfFrom, Bool.and_eq_true, decide_eq_true_eq]
      exact ⟨h.1, ih h.2 (by omega)⟩

theorem mem_markDirty (o p : Nat) (l : List Nat) : p ∈ markDirty o l ↔ p = o ∨ p ∈ l := by
  induction l with
  | nil => simp [markDirty]
  | cons q qs ih =>
    unfold markDirty
    split_ifs with h1 h2
    · simp
    · simp [h2]
    · simp [ih]
      tauto

theorem filter_wf {cap lo : Nat} {l : List Nat} (h : dirtyWfFrom cap lo l = true) (f : Nat → Bool) :
    dirtyWfFrom cap lo (l.filter f) = true := by
  induction l generalizing lo with
  | nil => rfl
  | cons o os ih =>
    simp only [dirtyWfFrom, Bool.and_eq_true, decide_eq_true_eq] at h
    rw [List.filter_cons]
    split_ifs
    · simp only [dirtyWfFrom, Bool.and_eq_true, decide_eq_true_eq]
      exact ⟨h.1, ih h.2⟩
    · exact dirtyWfFrom_mono (ih h.2) (by omega)

/-! ## Writes into the window -/

theorem ghostWindowByte_haz (cfg : Cfg) (a : Nat) (g : Ghost) (x : Hazard) (hx : g.haz.has x = true) :
    (ghostWindowByte cfg a g).haz.has x = true := by
  unfold ghostWindowByte
  split_ifs
  · exact Ghost.flagIf_haz hx
  · exact hx

theorem ghostWindowByte_ok (cfg : Cfg) (a : Nat) (g : Ghost) (hg : GhostOk cfg g) :
    GhostOk cfg (ghostWindowByte cfg a g) := by
  unfold ghostWindowByte
  split_ifs with h
  · simp only [inWindow, Bool.and_eq_true, decide_eq_true_eq] at h
    exact ⟨by simpa using hg.pubOff_lt, by simpa using hg.lastRP_lt,
      markDirty_wf (Ghost.flagIf_ok hg).dirty_wf (Nat.zero_le _) (by omega)⟩
  · exact hg

theorem ghostWindow_haz (cfg : Cfg) (a n : Nat) (g : Ghost) (x : Hazard) (hx : g.haz.has x = true) :
    (ghostWindow cfg a n g).haz.has x = true := by
  induction n generalizing a g with
  | zero => exact hx
  | succ n ih => exact ih _ _ (ghostWindowByte_haz _ _ _ _ hx)

theorem ghostWindow_ok (cfg : Cfg) (a n : Nat) (g : Ghost) (hg : GhostOk cfg g) : GhostOk cfg (ghostWindow cfg a n g) := by
  induction n generalizing a g with
  | zero => exact hg
  | succ n ih => exact ih _ _ (ghostWindowByte_ok _ _ _ hg)

/-- Writes into the window leave the pointers and the span alone. -/
theorem ghostWindow_frame (cfg : Cfg) (a n : Nat) (g : Ghost) :
    (ghostWindow cfg a n g).pubOff = g.pubOff ∧ (ghostWindow cfg a n g).lastRP = g.lastRP ∧
      (ghostWindow cfg a n g).span = g.span := by
  induction n generalizing a g with
  | zero => exact ⟨rfl, rfl, rfl⟩
  | succ n ih =>
    have h := ih (a + 1) (ghostWindowByte cfg a g)
    have hb : (ghostWindowByte cfg a g).pubOff = g.pubOff ∧ (ghostWindowByte cfg a g).lastRP = g.lastRP ∧
        (ghostWindowByte cfg a g).span = g.span := by
      unfold ghostWindowByte
      split_ifs <;> simp
    exact ⟨h.1.trans hb.1, h.2.1.trans hb.2.1, h.2.2.trans hb.2.2⟩

/-- A write outside the window marks nothing. -/
theorem ghostWindow_outside (cfg : Cfg) (a n : Nat) (g : Ghost)
    (h : a + n ≤ cfg.fifoBase ∨ cfg.fifoBase + cfg.fifoCap ≤ a) : ghostWindow cfg a n g = g := by
  induction n generalizing a g with
  | zero => rfl
  | succ n ih =>
    have hb : ghostWindowByte cfg a g = g := by
      unfold ghostWindowByte
      rw [if_neg]
      simp only [inWindow, Bool.and_eq_true, decide_eq_true_eq]
      omega
    rw [ghostWindow, hb]
    exact ih _ _ (by omega)

/-! ## The other hooks -/

theorem ghostPublish_haz (cfg : Cfg) (v : Nat) (g : Ghost) (x : Hazard) (hx : g.haz.has x = true) :
    (ghostPublish cfg v g).haz.has x = true :=
  Ghost.flagIf_haz (Ghost.flagIf_haz hx)

theorem ghostPublish_ok (cfg : Cfg) (v : Nat) (g : Ghost) (hv : v < cfg.fifoCap) (hg : GhostOk cfg g) :
    GhostOk cfg (ghostPublish cfg v g) :=
  ⟨hv, by simpa [ghostPublish] using hg.lastRP_lt, filter_wf hg.dirty_wf _⟩

theorem ghostWrite_haz (cfg : Cfg) (a n v : Nat) (g : Ghost) (x : Hazard) (hx : g.haz.has x = true) :
    (ghostWrite cfg a n v g).haz.has x = true := by
  unfold ghostWrite
  dsimp only
  split_ifs
  · exact ghostPublish_haz _ _ _ _ (Ghost.flagIf_haz (ghostWindow_haz _ _ _ _ _ hx))
  · exact Ghost.flagIf_haz (ghostWindow_haz _ _ _ _ _ hx)

theorem ghostWrite_ok (cfg : Cfg) (a n v : Nat) {g : Ghost} (hg : GhostOk cfg g) : GhostOk cfg (ghostWrite cfg a n v g) := by
  unfold ghostWrite
  dsimp only
  split_ifs with h
  · simp only [Bool.and_eq_true, decide_eq_true_eq] at h
    exact ghostPublish_ok _ _ _ h.2 (Ghost.flagIf_ok (ghostWindow_ok _ _ _ _ hg))
  · exact Ghost.flagIf_ok (ghostWindow_ok _ _ _ _ hg)

theorem ghostRead_haz (cfg : Cfg) (a n v : Nat) (g : Ghost) (x : Hazard) (hx : g.haz.has x = true) :
    (ghostRead cfg a n v g).haz.has x = true := by
  unfold ghostRead
  refine Ghost.flagIf_haz ?_
  split_ifs
  · unfold ghostObserveRP
    split_ifs
    · exact hx
    · exact Ghost.flagIf_haz hx
  · exact hx

theorem ghostRead_ok (cfg : Cfg) (a n v : Nat) {g : Ghost} (hg : GhostOk cfg g) : GhostOk cfg (ghostRead cfg a n v g) := by
  unfold ghostRead
  refine Ghost.flagIf_ok ?_
  split_ifs
  · unfold ghostObserveRP
    split_ifs with h
    · exact ⟨hg.pubOff_lt, h.1, hg.dirty_wf⟩
    · exact Ghost.flagIf_ok hg
  · exact hg

theorem fifoAppendHook_haz (cfg : Cfg) (n : Nat) (g : Ghost) (x : Hazard) (hx : g.haz.has x = true) :
    (fifoAppendHook cfg n g).haz.has x = true :=
  Ghost.flagIf_haz hx

theorem fifoAppendHook_ok (cfg : Cfg) (n : Nat) {g : Ghost} (hg : GhostOk cfg g) : GhostOk cfg (fifoAppendHook cfg n g) :=
  Ghost.flagIf_ok ⟨hg.pubOff_lt, hg.lastRP_lt, hg.dirty_wf⟩

theorem dlOverflowCheck_haz (cfg : Cfg) (off : Nat) (g : Ghost) (x : Hazard) (hx : g.haz.has x = true) :
    (dlOverflowCheck cfg off g).haz.has x = true := by
  unfold dlOverflowCheck
  split
  · exact Ghost.flagIf_haz hx
  · exact hx

theorem dlOverflowCheck_ok (cfg : Cfg) (off : Nat) {g : Ghost} (hg : GhostOk cfg g) :
    GhostOk cfg (dlOverflowCheck cfg off g) := by
  unfold dlOverflowCheck
  split
  · exact Ghost.flagIf_ok hg
  · exact hg

end Sys2Proof.Machine
end

