-- ==== Sys2Proof/Laws/Bytes.lean ====
section
/-! SUPPORT. The laws of little-endian byte lists (00_scope.md R8). -/

namespace Sys2Proof.Machine

@[simp] theorem leBytes_zero (v : Nat) : leBytes 0 v = [] := rfl

theorem leBytes_succ (n v : Nat) : leBytes (n + 1) v = BitVec.ofNat 8 v :: leBytes n (v / 256) := rfl

@[simp] theorem leBytes_length (n v : Nat) : (leBytes n v).length = n := by
  induction n generalizing v with
  | zero => rfl
  | succ n ih => simp [leBytes_succ, ih]

/-- Byte `k` of `LE_n(v)` is `v[8k+7:8k]`. -/
theorem leBytes_getElem? (n v k : Nat) (h : k < n) : (leBytes n v)[k]? = some (BitVec.ofNat 8 (v / 256 ^ k)) := by
  induction n generalizing v k with
  | zero => omega
  | succ n ih =>
    cases k with
    | zero => simp [leBytes_succ]
    | succ k =>
      rw [leBytes_succ, List.getElem?_cons_succ, ih _ _ (by omega), Nat.div_div_eq_div_mul, pow_succ, mul_comm]

@[simp] theorem fromLE_nil : fromLE [] = 0 := rfl

theorem fromLE_cons (b : Byte) (bs : List Byte) : fromLE (b :: bs) = b.toNat + 256 * fromLE bs := rfl

theorem fromLE_lt (bs : List Byte) : fromLE bs < 256 ^ bs.length := by
  induction bs with
  | nil => simp
  | cons b bs ih =>
    have := b.isLt
    rw [fromLE_cons, List.length_cons, pow_succ]
    omega

/-- Reading back the bytes of a value gives its low `n` bytes. -/
theorem fromLE_leBytes (n v : Nat) : fromLE (leBytes n v) = v % 256 ^ n := by
  induction n generalizing v with
  | zero => simp [Nat.mod_one]
  | succ n ih =>
    rw [leBytes_succ, fromLE_cons, ih, pow_succ', Nat.mod_mul, BitVec.toNat_ofNat]

/-- The bytes of the value of a byte list are that list. -/
theorem leBytes_fromLE (bs : List Byte) : leBytes bs.length (fromLE bs) = bs := by
  induction bs with
  | nil => rfl
  | cons b bs ih =>
    have hb := b.isLt
    have h1 : BitVec.ofNat 8 (fromLE (b :: bs)) = b := by
      apply BitVec.eq_of_toNat_eq
      rw [BitVec.toNat_ofNat, fromLE_cons]
      omega
    have h2 : fromLE (b :: bs) / 256 = fromLE bs := by
      rw [fromLE_cons]
      omega
    rw [List.length_cons, leBytes_succ, h1, h2, ih]

theorem fromLE_append (as bs : List Byte) : fromLE (as ++ bs) = fromLE as + 256 ^ as.length * fromLE bs := by
  induction as with
  | nil => simp
  | cons a as ih =>
    rw [List.cons_append, fromLE_cons, fromLE_cons, ih, List.length_cons, pow_succ]
    ring

end Sys2Proof.Machine
end

