-- ==== Sys2Proof/Laws/Memory.lean ====
section
/-! SUPPORT. The laws of the device memory: a read after a write, the canonical form, and that equal reads are equal
memories. -/

namespace Sys2Proof.Machine.Memory

/-! ## Reading after writing -/

theorem read_insert (m : Memory) (a x : Nat) (b : Byte) :
    (insert m a b).read x = if x = a then some b else m.read x := by
  induction m with
  | nil => simp [insert, read]
  | cons c m ih =>
    obtain ⟨a', b'⟩ := c
    unfold insert
    split_ifs with h1 h2 <;> simp only [read, ih] <;> split_ifs <;> first | rfl | omega

/-- A read after a write of one byte. -/
theorem read_write (m : Memory) (a x : Nat) (b : Byte) :
    (write m a b).read x = if x = a ∧ x < addrLimit then some b else m.read x := by
  unfold write
  split_ifs with h1 h2 h2
  · rw [read_insert, if_pos h2.1]
  · rw [read_insert, if_neg (fun h => h2 ⟨h, h ▸ h1⟩)]
  · exact absurd (h2.1 ▸ h2.2) h1
  · rfl

/-- A read after a write of several bytes. -/
theorem read_writeBytes (m : Memory) (a x : Nat) (bs : List Byte) :
    (writeBytes m a bs).read x =
      if a ≤ x ∧ x < a + bs.length ∧ x < addrLimit then bs[x - a]? else m.read x := by
  induction bs generalizing m a with
  | nil =>
    rw [writeBytes, if_neg]
    simp only [List.length_nil]
    omega
  | cons b bs ih =>
    rw [writeBytes, ih, List.length_cons, read_write]
    by_cases hx : x = a
    · subst hx
      rw [if_neg (by omega)]
      by_cases hl : x < addrLimit
      · rw [if_pos ⟨rfl, hl⟩, if_pos ⟨by omega, by omega, hl⟩]
        simp
      · rw [if_neg (by omega), if_neg (by omega)]
    · have hx' : ¬(x = a ∧ x < addrLimit) := fun h => hx h.1
      rw [if_neg hx']
      by_cases hr : a + 1 ≤ x ∧ x < a + 1 + bs.length ∧ x < addrLimit
      · have hxa : x - a = (x - (a + 1)) + 1 := by omega
        rw [if_pos hr, if_pos ⟨by omega, by omega, hr.2.2⟩, hxa, List.getElem?_cons_succ]
      · rw [if_neg hr, if_neg (by omega)]

/-- A byte outside the written range keeps its value. -/
theorem read_writeBytes_of_not_mem (m : Memory) (a x : Nat) (bs : List Byte) (h : x < a ∨ a + bs.length ≤ x) :
    (writeBytes m a bs).read x = m.read x := by
  rw [read_writeBytes, if_neg]
  omega

/-- A byte inside the written range holds what was written. -/
theorem read_writeBytes_of_lt (m : Memory) (a k : Nat) (bs : List Byte) (hk : k < bs.length)
    (ha : a + bs.length ≤ addrLimit) : (writeBytes m a bs).read (a + k) = bs[k]? := by
  rw [read_writeBytes, if_pos ⟨by omega, by omega, by omega⟩]
  congr 1
  omega

/-! ## Multi-byte values -/

theorem readLE_succ (m : Memory) (a n : Nat) :
    m.readLE a (n + 1) =
      match m.read a, m.readLE (a + 1) n with
      | some b, some v => some (b.toNat + 256 * v)
      | _, _ => none := rfl

/-- The value at an address depends on its bytes alone. -/
theorem readLE_congr (m m' : Memory) (a n : Nat) (h : ∀ x, a ≤ x → x < a + n → m.read x = m'.read x) :
    m.readLE a n = m'.readLE a n := by
  induction n generalizing a with
  | zero => rfl
  | succ n ih =>
    rw [readLE_succ, readLE_succ, h a (by omega) (by omega), ih (a + 1) fun x h1 h2 => h x (by omega) (by omega)]

/-- The bytes of a value are its little-endian bytes. -/
theorem readLE_eq_some_iff (m : Memory) (a n v : Nat) :
    m.readLE a n = some v ↔ v < 256 ^ n ∧ ∀ k < n, m.read (a + k) = (leBytes n v)[k]? := by
  induction n generalizing a v with
  | zero => simp only [readLE, Option.some.injEq, pow_zero]; constructor <;> intro h <;> first | omega | (constructor <;> omega)
  | succ n ih =>
    have key : ∀ k, m.read (a + 1 + k) = m.read (a + (k + 1)) := fun k => by congr 1; omega
    rw [readLE_succ, leBytes_succ]
    constructor
    · intro h
      cases hb : m.read a with
      | none => rw [hb] at h; exact absurd h (by simp)
      | some b =>
        cases hv : m.readLE (a + 1) n with
        | none => rw [hb, hv] at h; exact absurd h (by simp)
        | some w =>
          rw [hb, hv] at h
          obtain ⟨h1, h2⟩ := (ih _ _).1 hv
          have hbl := b.isLt
          simp only [Option.some.injEq] at h
          subst h
          refine ⟨by rw [pow_succ]; omega, fun k hk => ?_⟩
          cases k with
          | zero =>
            rw [add_zero, hb, List.getElem?_cons_zero, Option.some.injEq]
            apply BitVec.eq_of_toNat_eq
            rw [BitVec.toNat_ofNat]
            omega
          | succ k =>
            rw [List.getElem?_cons_succ, ← key, h2 k (by omega)]
            congr 2
            omega
    · rintro ⟨hv, h⟩
      have h0 := h 0 (by omega)
      rw [add_zero, List.getElem?_cons_zero] at h0
      have h1 : m.readLE (a + 1) n = some (v / 256) := by
        rw [ih]
        refine ⟨by rw [pow_succ] at hv; omega, fun k hk => ?_⟩
        rw [key, h (k + 1) (by omega), List.getElem?_cons_succ]
      rw [h0, h1]
      simp only [Option.some.injEq, BitVec.toNat_ofNat]
      omega

/-- The value just written. -/
theorem readLE_writeBytes (m : Memory) (a n v : Nat) (ha : a + n ≤ addrLimit) (hv : v < 256 ^ n) :
    (writeBytes m a (leBytes n v)).readLE a n = some v := by
  rw [readLE_eq_some_iff]
  exact ⟨hv, fun k hk => read_writeBytes_of_lt _ _ _ _ (by simpa using hk) (by simpa using ha)⟩

/-- Writing elsewhere leaves a value alone. -/
theorem readLE_writeBytes_of_disjoint (m : Memory) (a n b : Nat) (bs : List Byte) (h : a + n ≤ b ∨ b + bs.length ≤ a) :
    (writeBytes m b bs).readLE a n = m.readLE a n :=
  readLE_congr _ _ _ _ fun x h1 h2 => read_writeBytes_of_not_mem _ _ _ _ (by omega)

theorem readLE_isSome_iff (m : Memory) (a n : Nat) : (m.readLE a n).isSome ↔ ∀ k < n, (m.read (a + k)).isSome := by
  induction n generalizing a with
  | zero => simp [readLE]
  | succ n ih =>
    have key : ∀ k, m.read (a + 1 + k) = m.read (a + (k + 1)) := fun k => by congr 1; omega
    have : (m.readLE a (n + 1)).isSome ↔ (m.read a).isSome ∧ (m.readLE (a + 1) n).isSome := by
      rw [readLE_succ]
      cases m.read a <;> cases m.readLE (a + 1) n <;> simp
    rw [this, ih]
    constructor
    · rintro ⟨h0, h⟩ k hk
      cases k with
      | zero => exact h0
      | succ k => rw [← key]; exact h k (by omega)
    · intro h
      exact ⟨h 0 (by omega), fun k hk => by rw [key]; exact h (k + 1) (by omega)⟩

/-- A write never makes a written byte unwritten. -/
theorem isSome_read_writeBytes (m : Memory) (a x : Nat) (bs : List Byte) (h : (m.read x).isSome) :
    ((writeBytes m a bs).read x).isSome := by
  rw [read_writeBytes]
  split_ifs with hx
  · rw [List.getElem?_eq_getElem (by omega)]
    rfl
  · exact h

theorem readLE_isSome_writeBytes (m : Memory) (a n b : Nat) (bs : List Byte) (h : (m.readLE a n).isSome) :
    ((writeBytes m b bs).readLE a n).isSome := by
  rw [readLE_isSome_iff] at *
  exact fun k hk => isSome_read_writeBytes _ _ _ _ (h k hk)

/-! ## The canonical form -/

theorem wfFrom_mono {lo lo' : Nat} {m : Memory} (h : wfFrom lo m = true) (hl : lo' ≤ lo) : wfFrom lo' m = true := by
  cases m with
  | nil => rfl
  | cons c m =>
    obtain ⟨a, b⟩ := c
    simp only [wfFrom, Bool.and_eq_true, decide_eq_true_eq] at h ⊢
    exact ⟨⟨by omega, h.1.2⟩, h.2⟩

theorem wfFrom_insert {lo : Nat} {m : Memory} (h : wfFrom lo m = true) (a : Nat) (b : Byte) (hlo : lo ≤ a)
    (ha : a < addrLimit) : wfFrom lo (insert m a b) = true := by
  induction m generalizing lo with
  | nil => simp [insert, wfFrom, hlo, ha]
  | cons c m ih =>
    obtain ⟨a', b'⟩ := c
    simp only [wfFrom, Bool.and_eq_true, decide_eq_true_eq] at h
    unfold insert
    split_ifs with h1 h2
    · simp only [wfFrom, Bool.and_eq_true, decide_eq_true_eq]
      exact ⟨⟨hlo, ha⟩, ⟨by omega, h.1.2⟩, h.2⟩
    · subst h2
      simp only [wfFrom, Bool.and_eq_true, decide_eq_true_eq]
      exact ⟨⟨hlo, ha⟩, h.2⟩
    · simp only [wfFrom, Bool.and_eq_true, decide_eq_true_eq]
      exact ⟨h.1, ih h.2 (by omega)⟩

@[simp] theorem wf_nil : wf [] = true := rfl

/-- A write of one byte keeps the canonical form. -/
theorem wf_write {m : Memory} (h : wf m = true) (a : Nat) (b : Byte) : wf (write m a b) = true := by
  unfold write
  split_ifs with ha
  · exact wfFrom_insert h a b (Nat.zero_le a) ha
  · exact h

/-- A write of several bytes keeps the canonical form. -/
theorem wf_writeBytes {m : Memory} (h : wf m = true) (a : Nat) (bs : List Byte) : wf (writeBytes m a bs) = true := by
  induction bs generalizing m a with
  | nil => exact h
  | cons b bs ih => exact ih (wf_write h a b) (a + 1)

theorem read_eq_none_of_lt {lo : Nat} {m : Memory} (h : wfFrom lo m = true) {a : Nat} (ha : a < lo) :
    m.read a = none := by
  induction m generalizing lo with
  | nil => rfl
  | cons c m ih =>
    obtain ⟨a', b'⟩ := c
    simp only [wfFrom, Bool.and_eq_true, decide_eq_true_eq] at h
    rw [read, if_neg (by omega)]
    exact ih h.2 (by omega)

/-- In the canonical form equal reads are equal memories. -/
theorem wfFrom_ext {lo : Nat} {m m' : Memory} (h : wfFrom lo m = true) (h' : wfFrom lo m' = true)
    (heq : ∀ a, m.read a = m'.read a) : m = m' := by
  induction m generalizing lo m' with
  | nil =>
    cases m' with
    | nil => rfl
    | cons c m' => exact absurd (heq c.1) (by simp [read])
  | cons c m ih =>
    obtain ⟨a, b⟩ := c
    cases m' with
    | nil => exact absurd (heq a) (by simp [read])
    | cons c' m' =>
      obtain ⟨a', b'⟩ := c'
      simp only [wfFrom, Bool.and_eq_true, decide_eq_true_eq] at h h'
      have haa : a = a' := by
        rcases Nat.lt_trichotomy a a' with hl | hl | hl
        · have := heq a
          rw [read, if_pos rfl, read, if_neg (by omega), read_eq_none_of_lt h'.2 (by omega)] at this
          simp at this
        · exact hl
        · have := heq a'
          rw [read, if_neg (by omega), read_eq_none_of_lt h.2 (by omega), read, if_pos rfl] at this
          simp at this
      subst haa
      have hb : b = b' := by simpa [read] using heq a
      subst hb
      congr 1
      refine ih h.2 h'.2 fun x => ?_
      by_cases hx : x = a
      · subst hx
        rw [read_eq_none_of_lt h.2 (by omega), read_eq_none_of_lt h'.2 (by omega)]
      · simpa [read, hx] using heq x

end Sys2Proof.Machine.Memory
end

