-- ==== Sys2Proof/Laws/Wire.lean ====
section
/-! SUPPORT. What the wire decoder makes of the framer's own bytes (30_encoding.md R103 to R108). -/

namespace Sys2Proof

theorem decodeIntent_code (i : Intent) : decodeIntent i.code = .ok i := by cases i <;> rfl

theorem getLsbD_headerByte0 (a : DevAddr) (i : Intent) (k : Nat) :
    (headerByte0 a i).getLsbD k = if k < 6 then (a.extractLsb' 16 6).getLsbD k else i.code.getLsbD (k - 6) :=
  BitVec.getLsbD_append

theorem headerByte0_intent (a : DevAddr) (i : Intent) : (headerByte0 a i).extractLsb' 6 2 = i.code := by
  apply BitVec.eq_of_getLsbD_eq
  intro k hk
  rw [BitVec.getLsbD_extractLsb', getLsbD_headerByte0, if_neg (by omega)]
  simp [hk]

theorem header_addr (a : DevAddr) (i : Intent) :
    (headerByte0 a i).extractLsb' 0 6 ++ headerByte1 a ++ headerByte2 a = a := by
  apply BitVec.eq_of_getLsbD_eq
  intro k hk
  have split3 : ((headerByte0 a i).extractLsb' 0 6 ++ headerByte1 a ++ headerByte2 a).getLsbD k =
      if k < 8 then (headerByte2 a).getLsbD k
      else if k - 8 < 8 then (headerByte1 a).getLsbD (k - 8)
      else ((headerByte0 a i).extractLsb' 0 6).getLsbD (k - 8 - 8) := by
    rw [BitVec.getLsbD_append, BitVec.getLsbD_append]
  rw [split3]
  by_cases h8 : k < 8
  · simp [h8, headerByte2]
  · by_cases h16 : k - 8 < 8
    · simp [h8, h16, headerByte1, show 8 + (k - 8) = k by omega]
    · have h6 : k - 8 - 8 < 6 := by omega
      rw [if_neg h8, if_neg h16, BitVec.getLsbD_extractLsb', getLsbD_headerByte0, if_pos (by omega),
        BitVec.getLsbD_extractLsb']
      simp [h6, show 16 + (k - 8 - 8) = k by omega]

/-- The device reads a framed write as the write it is. -/
theorem decodeTransaction_write (a : DevAddr) (p : List Byte) :
    decodeTransaction (hdr a .write ++ p) = .ok (.writeAccess a p) := by
  simp only [hdr, List.cons_append, List.nil_append, decodeTransaction, unhdr, headerByte0_intent,
    decodeIntent_code, Except.map, header_addr]

/-- The device reads a framed read as the read it is. -/
theorem decodeTransaction_read (a : DevAddr) (ds : List Byte) :
    decodeTransaction (hdr a .read ++ ds) = .ok (.readAccess a ds) := by
  simp only [hdr, List.cons_append, List.nil_append, decodeTransaction, unhdr, headerByte0_intent,
    decodeIntent_code, Except.map, header_addr]

/-- The device reads one byte as a host command. -/
theorem decodeTransaction_command (c : Byte) : decodeTransaction [c] = .ok (.hostCommand c) := rfl

theorem headerByte0_toNat (a : DevAddr) (i : Intent) : (headerByte0 a i).toNat = i.code.toNat * 64 + a.toNat / 65536 := by
  have ha := a.isLt
  unfold headerByte0
  rw [BitVec.toNat_append, BitVec.extractLsb'_toNat, Nat.shiftRight_eq_div_pow, ← Nat.shiftLeft_add_eq_or_of_lt,
      Nat.shiftLeft_eq]
  · norm_num; omega
  · exact Nat.mod_lt _ (by norm_num)

theorem headerByte1_toNat (a : DevAddr) : (headerByte1 a).toNat = a.toNat / 256 % 256 := by
  unfold headerByte1
  rw [BitVec.extractLsb'_toNat, Nat.shiftRight_eq_div_pow]

theorem headerByte2_toNat (a : DevAddr) : (headerByte2 a).toNat = a.toNat % 256 := by
  unfold headerByte2
  rw [BitVec.extractLsb'_toNat, Nat.shiftRight_eq_div_pow]; norm_num

theorem intentBits_toNat (b0 : Byte) : (b0.extractLsb' 6 2).toNat = b0.toNat / 64 := by
  have := b0.isLt
  rw [BitVec.extractLsb'_toNat, Nat.shiftRight_eq_div_pow]; norm_num; omega

theorem headerAddr_toNat (b0 b1 b2 : Byte) :
    (b0.extractLsb' 0 6 ++ b1 ++ b2).toNat = b0.toNat % 64 * 65536 + b1.toNat * 256 + b2.toNat := by
  have h1 := b1.isLt
  have h2 := b2.isLt
  rw [BitVec.toNat_append, BitVec.toNat_append, BitVec.extractLsb'_toNat, ← Nat.shiftLeft_add_eq_or_of_lt h2,
    ← Nat.shiftLeft_add_eq_or_of_lt h1, Nat.shiftLeft_eq, Nat.shiftLeft_eq, Nat.shiftRight_eq_div_pow]
  norm_num; omega

/-- The header decoder by cases of the two intent bits. -/
theorem unhdr_eq (b0 b1 b2 : Byte) : unhdr b0 b1 b2 =
   if b0.toNat / 64 = 0 then .ok (.read, b0.extractLsb' 0 6 ++ b1 ++ b2) else if b0.toNat/64 = 2 then .ok (.write,
       b0.extractLsb' 0 6 ++ b1 ++ b2) else .error (.reservedIntent (b0.extractLsb' 6 2)) := by
  have := b0.isLt
  unfold unhdr decodeIntent
  rw [intentBits_toNat]
  have h : b0.toNat/64 < 4 := by omega
  interval_cases b0.toNat/64 <;> rfl

end Sys2Proof
end

