-- ==== Sys2Proof/Laws/Env.lean ====
section
/-! SUPPORT. What the consumer, one transport call and one framed transaction can do, said once each. -/

namespace Sys2Proof.Machine

/-! ## Draws -/

theorem Env.call_eq_peekCall (e : Env) : e.call = e.peekCall 0 := by
  unfold Env.call Env.peekCall
  cases e.calls <;> rfl

theorem Env.peekCall_popCall (e : Env) (k : Nat) : e.popCall.peekCall k = e.peekCall (k + 1) := by
  unfold Env.peekCall
  have h : e.callNo + 1 + k = e.callNo + (k + 1) := by omega
  cases hc : e.calls with
  | nil => simp [hc, h]
  | cons d ds => simp [hc, h]

/-- The answers to come depend on two fields alone. -/
theorem Env.peekCall_congr {e e' : Env} (h1 : e'.calls = e.calls) (h2 : e'.callNo = e.callNo) (k : Nat) :
    e'.peekCall k = e.peekCall k := by
  simp only [Env.peekCall, h1, h2]

theorem Env.peekTick_congr {e e' : Env} (h1 : e'.ticks = e.ticks) (h2 : e'.tickNo = e.tickNo) (k : Nat) :
    e'.peekTick k = e.peekTick k := by
  simp only [Env.peekTick, h1, h2]

theorem Env.tick_eq_peekTick (e : Env) : e.tick = e.peekTick 0 := by
  unfold Env.tick Env.peekTick
  cases e.ticks <;> rfl

/-! ## The consumer -/

/-- What the consumer alone can have done to the device memory (20_memory.md R88). -/
structure Drift (cfg : Cfg) (m m' : Memory) : Prop where
  /-- Only the bytes of RP can have changed. -/
  outside : ∀ x, ¬ onRP cfg x → m'.read x = m.read x
  /-- The canonical form is kept. -/
  wf : m.wf = true → m'.wf = true
  /-- No byte becomes unwritten. -/
  written : ∀ x, (m.read x).isSome → (m'.read x).isSome
  /-- RP moves forward by at most the distance to WP, and not at all if it is there already. -/
  forward : CfgFacts cfg → ∀ r w, m.readLE cfg.regRP 4 = some r → m.readLE cfg.regWP 4 = some w →
    ∃ n, n ≤ dist cfg r w ∧
      (m'.readLE cfg.regRP 4 = some r ∧ n = 0 ∨
        r ≠ w ∧ w < cfg.fifoCap ∧ 0 < n ∧ m'.readLE cfg.regRP 4 = some (red cfg (r + n)))

theorem Drift.refl (cfg : Cfg) (m : Memory) : Drift cfg m m :=
  ⟨fun _ _ => rfl, id, fun _ => id, fun _ _ _ h _ => ⟨0, Nat.zero_le _, .inl ⟨h, rfl⟩⟩⟩

/-- The value of WP does not drift. -/
theorem Drift.wp {cfg : Cfg} {m m' : Memory} (h : Drift cfg m m') (c : CfgFacts cfg) :
    m'.readLE cfg.regWP 4 = m.readLE cfg.regWP 4 :=
  Memory.readLE_congr _ _ _ _ fun x h1 h2 => h.outside x fun hx => by
    have := c.rp_wp
    simp only [onRP, within] at hx
    omega

/-- A value away from RP does not drift. -/
theorem Drift.readLE {cfg : Cfg} {m m' : Memory} (h : Drift cfg m m') (a n : Nat)
    (hd : ∀ x, within a n x → ¬ onRP cfg x) : m'.readLE a n = m.readLE a n :=
  Memory.readLE_congr _ _ _ _ fun x h1 h2 => h.outside x (hd x ⟨h1, h2⟩)

theorem Drift.trans {cfg : Cfg} {m1 m2 m3 : Memory} (h : Drift cfg m1 m2) (g : Drift cfg m2 m3) :
    Drift cfg m1 m3 := by
  refine ⟨fun x hx => (g.outside x hx).trans (h.outside x hx), fun w => g.wf (h.wf w),
    fun x w => g.written x (h.written x w), fun c r w hr hw => ?_⟩
  have hcap := c.cap_pos
  obtain ⟨n, hn, hcase⟩ := h.forward c r w hr hw
  rcases hcase with ⟨hr2, rfl⟩ | ⟨hne, hwc, hpos, hr2⟩
  · exact g.forward c r w hr2 ((h.wp c).trans hw)
  · obtain ⟨k, hk, hcase2⟩ := g.forward c _ w hr2 ((h.wp c).trans hw)
    rw [dist_add_left hcap _ _ _ hn] at hk
    rcases hcase2 with ⟨hr3, rfl⟩ | ⟨-, -, hkpos, hr3⟩
    · exact ⟨n, hn, .inr ⟨hne, hwc, hpos, hr3⟩⟩
    · exact ⟨n + k, by omega, .inr ⟨hne, hwc, by omega, by rw [hr3, red_red_add, Nat.add_assoc]⟩⟩

/-- If RP already equals WP it stays. -/
theorem Drift.still {cfg : Cfg} {m m' : Memory} (h : Drift cfg m m') (c : CfgFacts cfg) {r : Nat}
    (hr : m.readLE cfg.regRP 4 = some r) (hw : m.readLE cfg.regWP 4 = some r) : m'.readLE cfg.regRP 4 = some r := by
  obtain ⟨n, -, hcase⟩ := h.forward c r r hr hw
  rcases hcase with ⟨h1, -⟩ | ⟨hne, -⟩
  · exact h1
  · exact absurd rfl hne

/-- The value of RP after the consumer alone has acted. -/
theorem Drift.rp_value {cfg : Cfg} (c : CfgFacts cfg) {m m' : Memory} {r w : Nat} (hd : Drift cfg m m')
    (hr : m.readLE cfg.regRP 4 = some r) (hw : m.readLE cfg.regWP 4 = some w) :
    ∃ n ≤ dist cfg r w, m'.readLE cfg.regRP 4 = some (if n = 0 then r else red cfg (r + n)) := by
  obtain ⟨n, hn, h⟩ := hd.forward c r w hr hw
  refine ⟨n, hn, ?_⟩
  rcases h with h | h
  · simp [h]
  · rw [if_neg (by omega)]; exact h.2.2.2

/-- Everything a step of the consumer can do (20_memory.md R88). -/
theorem consumerStep_cases (cfg : Cfg) (z : Bool) (n : Nat) (e : Env) :
    consumerStep cfg z n e = e ∨
      ∃ r w, e.mem.readLE cfg.regRP 4 = some r ∧ e.mem.readLE cfg.regWP 4 = some w ∧ r ≠ w ∧ w < cfg.fifoCap ∧
        0 < n ∧ n ≤ dist cfg r w ∧
        consumerStep cfg z n e =
          { e with
            mem := e.mem.writeBytes cfg.regRP (leBytes 4 (red cfg (r + n)))
            reads := e.reads.take cfg z e.mem (ringOffsets cfg r (red cfg (r + n))) } := by
  unfold consumerStep
  cases hr : e.mem.readLE cfg.regRP 4 with
  | none => exact .inl rfl
  | some r =>
    cases hw : e.mem.readLE cfg.regWP 4 with
    | none => exact .inl rfl
    | some w =>
      by_cases hc : r ≠ w ∧ w < cfg.fifoCap ∧ 0 < n ∧ n ≤ dist cfg r w
      · exact .inr ⟨r, w, rfl, rfl, hc.1, hc.2.1, hc.2.2.1, hc.2.2.2, by simp only [if_pos hc]⟩
      · exact .inl (by simp only [if_neg hc])

theorem fifoBytes_fst (cfg : Cfg) (m : Memory) (offs : List Nat) : (fifoBytes cfg m offs).map Prod.fst = offs := by
  rw [fifoBytes, List.map_map]
  exact List.map_id offs

theorem drawnBytes_fst (rd : ConsumerReads) (k : Nat) (offs : List Nat) : (drawnBytes rd k offs).map Prod.fst = offs := by
  induction offs generalizing k with
  | nil => rfl
  | cons o os ih => rw [drawnBytes, List.map_cons, ih]

/-- The bytes drawn are those State lists, as far as it lists them. -/
theorem drawnBytes_snd (rd : ConsumerReads) (offs : List Nat) (as bs cs : List Byte) (h : rd.draws = as ++ bs ++ cs)
    (hl : bs.length = offs.length) : (drawnBytes rd as.length offs).map Prod.snd = bs.map some := by
  induction offs generalizing as bs with
  | nil => simp [List.length_eq_zero_iff.1 hl, drawnBytes]
  | cons o os ih =>
    cases bs with
    | nil => simp at hl
    | cons b bs =>
      have hd : rd.draw as.length = b := by simp [ConsumerReads.draw, h]
      rw [drawnBytes, List.map_cons, List.map_cons, hd, ← ih (as ++ [b]) bs (by simp [h]) (by simpa using hl)]
      simp

/-- The log of what the consumer has read has only grown. -/
def ConsumerReads.Grows (rd rd' : ConsumerReads) : Prop := ∃ l, rd'.log = rd.log ++ l

theorem ConsumerReads.Grows.refl (rd : ConsumerReads) : rd.Grows rd := ⟨[], by simp⟩

theorem ConsumerReads.Grows.trans {a b c : ConsumerReads} (h : a.Grows b) (g : b.Grows c) : a.Grows c := by
  obtain ⟨l, hl⟩ := h
  obtain ⟨k, hk⟩ := g
  exact ⟨l ++ k, by rw [hk, hl, List.append_assoc]⟩

/-- What the consumer's reading keeps. -/
theorem ConsumerReads.take_grows (cfg : Cfg) (z : Bool) (m : Memory) (offs : List Nat) (rd : ConsumerReads) :
    rd.Grows (rd.take cfg z m offs) := by
  unfold ConsumerReads.take
  split_ifs <;> exact ⟨_, rfl⟩

/-- A step of the consumer touches the device memory and what the consumer has read alone. -/
theorem consumerStep_frame (cfg : Cfg) (z : Bool) (n : Nat) (e : Env) :
    ∃ m rd, consumerStep cfg z n e = { e with mem := m, reads := rd } ∧ e.reads.Grows rd ∧ Drift cfg e.mem m := by
  rcases consumerStep_cases cfg z n e with h | ⟨r, w, hr, hw, hne, hwc, hn, hnd, h⟩
  · exact ⟨e.mem, e.reads, h, .refl _, Drift.refl _ _⟩
  · refine ⟨_, _, h, ConsumerReads.take_grows _ _ _ _ _, ?_, fun hwf => Memory.wf_writeBytes hwf _ _, fun x => Memory.isSome_read_writeBytes _ _ _ _,
      fun c r' w' hr' hw' => ?_⟩
    · intro x hx
      apply Memory.read_writeBytes_of_not_mem
      simp only [onRP, within, not_and, not_lt] at hx
      rw [leBytes_length]
      omega
    · rw [hr] at hr'
      rw [hw] at hw'
      cases hr'
      cases hw'
      refine ⟨n, hnd, .inr ⟨hne, hwc, hn, Memory.readLE_writeBytes _ _ _ _ c.rp_in ?_⟩⟩
      have h1 := red_lt c.cap_pos (r + n)
      have h2 := c.fifo_in
      have h3 : (256 : Nat) ^ 4 = 4294967296 := by norm_num
      have h4 : addrLimit = 4194304 := rfl
      omega

/-- The point before a call: the consumer's doing, and one draw of a move (20_memory.md R88). -/
theorem Env.gap_frame (cfg : Cfg) (z : Bool) (e : Env) :
    ∃ m rd, e.gap cfg z = { e with mem := m, reads := rd, moves := e.moves.tail, moveNo := e.moveNo + 1 } ∧
      e.reads.Grows rd ∧ Drift cfg e.mem m := by
  obtain ⟨m, rd, h, hg, hd⟩ := consumerStep_frame cfg z e.move e.popMove
  exact ⟨m, rd, h, hg, hd⟩

theorem Env.gap_call (cfg : Cfg) (z : Bool) (e : Env) : (e.gap cfg z).call = e.call := by
  obtain ⟨m, rd, h, -⟩ := e.gap_frame cfg z
  rw [h]
  rfl

/-- The consumer's moves within a read. -/
theorem consumerMoves_frame (cfg : Cfg) (z : Bool) (ns : List Nat) (e : Env) :
    ∃ m rd, consumerMoves cfg z ns e = { e with mem := m, reads := rd } ∧ e.reads.Grows rd ∧ Drift cfg e.mem m := by
  induction ns generalizing e with
  | nil => exact ⟨e.mem, e.reads, by simp [consumerMoves], .refl _, Drift.refl _ _⟩
  | cons n ns ih =>
    obtain ⟨m, rd, h, hg, hd⟩ := consumerStep_frame cfg z n e
    obtain ⟨m', rd', h', hg', hd'⟩ := ih (consumerStep cfg z n e)
    refine ⟨m', rd', ?_, ?_, ?_⟩
    · rw [consumerMoves, h', h]
    · rw [h] at hg'
      exact hg.trans hg'
    · rw [h] at hd'
      exact hd.trans hd'

/-! ## Transport calls -/

/-- What the calls of an operation leave alone in the environment: the clock and the answers of the clock; and the logs only
grow. -/
structure EnvKept (cfg : Cfg) (e e' : Env) : Prop where
  clock : e'.clock = e.clock
  ticks : e'.ticks = e.ticks
  tickNo : e'.tickNo = e.tickNo
  reads : e.reads.Grows e'.reads

theorem EnvKept.refl (cfg : Cfg) (e : Env) : EnvKept cfg e e := ⟨rfl, rfl, rfl, .refl _⟩

theorem EnvKept.trans {cfg : Cfg} {e1 e2 e3 : Env} (h : EnvKept cfg e1 e2) (g : EnvKept cfg e2 e3) :
    EnvKept cfg e1 e3 :=
  ⟨g.clock.trans h.clock, g.ticks.trans h.ticks, g.tickNo.trans h.tickNo, h.reads.trans g.reads⟩

/-- Everything `TxWrite` can do. -/
theorem txWrite_cases (cfg : Cfg) (z : Bool) (bs : List Byte) (e : Env) :
    ∃ m, Drift cfg e.mem m ∧ EnvKept cfg e (txWrite cfg z bs e).2 ∧
      (txWrite cfg z bs e).1 = e.call.fails ∧
      (txWrite cfg z bs e).2.wire = e.wire ++ [.write bs e.call.fails] ∧
      (txWrite cfg z bs e).2.tx = e.openTx ++ bs ∧
      (txWrite cfg z bs e).2.txFailed = e.call.fails.isSome ∧
      (∀ k, (txWrite cfg z bs e).2.peekCall k = e.peekCall (k + 1)) ∧
      (txWrite cfg z bs e).2.mem =
        (if e.call.fails.isSome then deviceCommitPrefix e.call.commit (e.openTx ++ bs) m else m) := by
  obtain ⟨m, rd, h, hg, hd⟩ := e.gap_frame cfg z
  refine ⟨m, hd, ?_⟩
  have hc := e.gap_call cfg z
  have ho : (e.gap cfg z).openTx = e.openTx := by rw [h]; rfl
  have hp : ∀ c k, ((e.gap cfg z).logCall c).peekCall k = e.peekCall (k + 1) := by
    intro c k
    rw [← Env.peekCall_popCall]
    exact Env.peekCall_congr (by rw [h]; rfl) (by rw [h]; rfl) k
  unfold txWrite
  simp only [hc, ho]
  cases hf : e.call.fails with
  | none =>
    refine ⟨⟨by rw [h]; rfl, by rw [h]; rfl, by rw [h]; rfl, by rw [h]; exact hg⟩, rfl, by rw [h]; rfl, rfl, rfl, fun k => ?_,
      by rw [h]; rfl⟩
    exact hp (.write bs none) k
  | some x =>
    refine ⟨⟨by rw [h]; rfl, by rw [h]; rfl, by rw [h]; rfl, by rw [h]; exact hg⟩, rfl, by rw [h]; rfl, rfl, rfl, fun k => ?_,
      by rw [h]; rfl⟩
    exact hp (.write bs (some x)) k

/-- Everything `TxFlush` can do. -/
theorem txFlush_cases (cfg : Cfg) (z : Bool) (e : Env) :
    ∃ m, Drift cfg e.mem m ∧ EnvKept cfg e (txFlush cfg z e).2 ∧
      (txFlush cfg z e).1 = e.call.fails ∧
      (txFlush cfg z e).2.wire = e.wire ++ [.flush e.call.fails] ∧
      (txFlush cfg z e).2.tx = (if e.call.fails.isSome then e.openTx else []) ∧
      (txFlush cfg z e).2.txFailed = e.call.fails.isSome ∧
      (∀ k, (txFlush cfg z e).2.peekCall k = e.peekCall (k + 1)) ∧
      (txFlush cfg z e).2.mem =
        (if e.call.fails.isSome then deviceCommitPrefix e.call.commit e.openTx m else deviceCommit e.openTx m) := by
  obtain ⟨m, rd, h, hg, hd⟩ := e.gap_frame cfg z
  refine ⟨m, hd, ?_⟩
  have hc := e.gap_call cfg z
  have ho : (e.gap cfg z).openTx = e.openTx := by rw [h]; rfl
  have hp : ∀ c k, ((e.gap cfg z).logCall c).peekCall k = e.peekCall (k + 1) := by
    intro c k
    rw [← Env.peekCall_popCall]
    exact Env.peekCall_congr (by rw [h]; rfl) (by rw [h]; rfl) k
  unfold txFlush
  simp only [hc, ho]
  cases hf : e.call.fails with
  | none =>
    refine ⟨⟨by rw [h]; rfl, by rw [h]; rfl, by rw [h]; rfl, by rw [h]; exact hg⟩, rfl, by rw [h]; rfl, rfl, rfl, fun k => ?_,
      by rw [h]; rfl⟩
    exact hp (.flush none) k
  | some x =>
    refine ⟨⟨by rw [h]; rfl, by rw [h]; rfl, by rw [h]; rfl, by rw [h]; exact hg⟩, rfl, by rw [h]; rfl, rfl, rfl, fun k => ?_,
      by rw [h]; rfl⟩
    exact hp (.flush (some x)) k

theorem deviceBytes_length (d : CallDraw) (callNo : Nat) (m : Memory) (a k n : Nat) :
    (deviceBytes d callNo m a k n).length = n := by
  induction n generalizing k with
  | zero => rfl
  | succ n ih => simp [deviceBytes, ih]

theorem tornBytes_length (d : CallDraw) (callNo : Nat) (es : List Env) (last : Env) (a k n : Nat) :
    (tornBytes d callNo es last a k n).length = n := by
  induction n generalizing k with
  | zero => rfl
  | succ n ih => simp [tornBytes, ih]

/-- Where every byte is written, the device answers the bytes of the memory. -/
theorem deviceBytes_eq (d : CallDraw) (callNo : Nat) (m : Memory) (a k n : Nat) (bs : List Byte) (hn : bs.length = n)
    (h : ∀ i < n, m.read (a + k + i) = bs[i]?) : deviceBytes d callNo m a k n = bs := by
  induction n generalizing k bs with
  | zero => simp [deviceBytes, List.length_eq_zero_iff.1 hn]
  | succ n ih =>
    cases bs with
    | nil => simp at hn
    | cons b bs =>
      have h0 := h 0 (by omega)
      rw [add_zero, List.getElem?_cons_zero] at h0
      rw [deviceBytes, h0, ih (k + 1) bs (by simpa using hn) fun i hi => ?_]
      · rfl
      · have := h (i + 1) (by omega)
        rwa [List.getElem?_cons_succ, show a + k + (i + 1) = a + (k + 1) + i by omega] at this

/-- Where the bytes hold a value, the device answers its little-endian bytes. -/
theorem deviceBytes_of_readLE (d : CallDraw) (callNo : Nat) (m : Memory) (a n v : Nat) (h : m.readLE a n = some v) :
    deviceBytes d callNo m a 0 n = leBytes n v := by
  apply deviceBytes_eq
  · exact leBytes_length n v
  · exact ((Memory.readLE_eq_some_iff m a n v).1 h).2

/-- Byte `k` of the device's answer is the byte it holds, or a draw. -/
theorem deviceBytes_getElem? (d : CallDraw) (callNo : Nat) (m : Memory) (a j n k : Nat) (hk : k < n) :
    (deviceBytes d callNo m a j n)[k]? = some (drawnByte d callNo (j + k) (m.read (a + (j + k)))) := by
  induction n generalizing j k with
  | zero => omega
  | succ n ih =>
    cases k with
    | zero => rfl
    | succ k =>
      rw [deviceBytes, List.getElem?_cons_succ, ih (j + 1) k (by omega), show j + 1 + k = j + (k + 1) by omega]

/-- Every consumer state within a read is reached from the first by the consumer alone. -/
theorem consumerStates_drift (cfg : Cfg) (z : Bool) (ns : List Nat) (e e' : Env) (h : e' ∈ consumerStates cfg z ns e) :
    Drift cfg e.mem e'.mem := by
  induction ns generalizing e with
  | nil =>
    rw [consumerStates, List.mem_singleton] at h
    subst h
    exact Drift.refl _ _
  | cons n ns ih =>
    rw [consumerStates, List.mem_cons] at h
    rcases h with rfl | h
    · exact Drift.refl _ _
    · obtain ⟨m, rd, hs, -, hd⟩ := consumerStep_frame cfg z n e
      have := ih _ h
      rw [hs] at this
      exact hd.trans this

/-- Byte `k` of a torn read is the byte of some consumer state within the call. -/
theorem tornBytes_getElem? (cfg : Cfg) (z : Bool) (d : CallDraw) (callNo : Nat) (ns : List Nat) (e : Env) (a j n k : Nat) (hk : k < n) :
    ∃ m, Drift cfg e.mem m ∧
      (tornBytes d callNo (consumerStates cfg z ns e) (consumerMoves cfg z ns e) a j n)[k]? =
        some (drawnByte d callNo (j + k) (m.read (a + (j + k)))) := by
  induction n generalizing j k with
  | zero => omega
  | succ n ih =>
    cases k with
    | zero =>
      refine ⟨_, ?_, rfl⟩
      rw [List.getD_eq_getElem?_getD]
      cases hg : (consumerStates cfg z ns e)[d.picks.getD j 0]? with
      | none =>
        obtain ⟨m, rd, hs, -, hd⟩ := consumerMoves_frame cfg z ns e
        rw [Option.getD_none, hs]
        exact hd
      | some e' => exact consumerStates_drift cfg z ns e e' (List.mem_of_getElem? hg)
    | succ k =>
      obtain ⟨m, hd, h⟩ := ih (j + 1) k (by omega)
      exact ⟨m, hd, by rw [tornBytes, List.getElem?_cons_succ, h, show j + 1 + k = j + (k + 1) by omega]⟩

/-- Everything `TxRead` can do. -/
theorem txRead_cases (cfg : Cfg) (z : Bool) (n : Nat) (e : Env) :
    ∃ m got, Drift cfg e.mem m ∧ EnvKept cfg e (txRead cfg z n e).2 ∧
      (txRead cfg z n e).1 = (got, e.call.fails) ∧
      (txRead cfg z n e).2.wire = e.wire ++ [.read n got e.call.fails] ∧
      (txRead cfg z n e).2.tx = e.openTx ∧
      (txRead cfg z n e).2.txFailed = (e.call.fails.isSome || shortRead n got) ∧
      (∀ k, (txRead cfg z n e).2.peekCall k = e.peekCall (k + 1)) ∧
      (txRead cfg z n e).2.mem = m ∧ got.length ≤ n ∧
      (e.call.fails = none → ∀ a ds, decodeTransaction e.openTx = .ok (.readAccess a ds) →
        (e.call.count = none → got.length = n) ∧
          (got.length = n →
            (mayTear cfg a.toNat n = false → got = deviceBytes e.call e.callNo m a.toNat 0 n) ∧
            ∀ k < n, ∃ m', Drift cfg e.mem m' ∧
              got[k]? = some (drawnByte e.call e.callNo k (m'.read (a.toNat + k))))) := by
  obtain ⟨m, rd, h, hg, hd⟩ := e.gap_frame cfg z
  have hc := e.gap_call cfg z
  have ho : (e.gap cfg z).openTx = e.openTx := by rw [h]; rfl
  have hrd : ∃ m' rd' bs, deviceRead cfg z e.call e.openTx n (e.gap cfg z) =
      (bs, { e.gap cfg z with mem := m', reads := rd' }) ∧ rd.Grows rd' ∧ Drift cfg m m' ∧ bs.length ≤ n ∧
      (∀ a ds, decodeTransaction e.openTx = .ok (.readAccess a ds) → bs.length = n ∧
        (mayTear cfg a.toNat n = false → bs = deviceBytes e.call e.callNo m' a.toNat 0 n) ∧
        ∀ k < n, ∃ m'', Drift cfg e.mem m'' ∧
          bs[k]? = some (drawnByte e.call e.callNo k (m''.read (a.toNat + k)))) := by
    have same : ∀ bs : List Byte, (bs, e.gap cfg z) =
        (bs, { e.gap cfg z with mem := m, reads := rd }) := by
      intro bs
      rw [h]
    unfold deviceRead
    cases hdec : decodeTransaction e.openTx with
    | error x => exact ⟨m, rd, [], same _, .refl _, Drift.refl _ _, by simp, fun _ _ h => by simp at h⟩
    | ok t =>
      cases t with
      | hostCommand c => exact ⟨m, rd, [], same _, .refl _, Drift.refl _ _, by simp, fun _ _ h => by simp at h⟩
      | writeAccess a p => exact ⟨m, rd, [], same _, .refl _, Drift.refl _ _, by simp, fun _ _ h => by simp at h⟩
      | readAccess a ds =>
        dsimp only
        split_ifs with ht
        · obtain ⟨m', rd', hm, hgr, hdm⟩ := consumerMoves_frame cfg z e.call.during (e.gap cfg z)
          have hgm : (e.gap cfg z).mem = m := by rw [h]
          rw [hgm] at hdm
          rw [show (e.gap cfg z).reads = rd by rw [h]] at hgr
          refine ⟨m', rd', _, by rw [hm], hgr, hdm, (tornBytes_length ..).le,
            fun a' ds' h1 => ⟨tornBytes_length .., fun h2 => ?_, fun k hk => ?_⟩⟩
          · simp only [Except.ok.injEq, Transaction.readAccess.injEq] at h1
            rw [h1.1, h2] at ht
            exact absurd ht (by simp)
          · simp only [Except.ok.injEq, Transaction.readAccess.injEq] at h1
            obtain ⟨m'', hd'', hk'⟩ := tornBytes_getElem? cfg z e.call (e.gap cfg z).callNo e.call.during (e.gap cfg z) a.toNat 0 n k hk
            rw [hgm] at hd''
            refine ⟨m'', hd.trans hd'', ?_⟩
            rw [hm, Nat.zero_add, h1.1, show (e.gap cfg z).callNo = e.callNo by rw [h]] at hk'
            rw [h1.1, show (e.gap cfg z).callNo = e.callNo by rw [h]]
            exact hk'
        · refine ⟨m, rd, _, same _, .refl _, Drift.refl _ _, (deviceBytes_length ..).le,
            fun a' ds' h1 => ⟨deviceBytes_length .., fun _ => ?_, fun k hk => ⟨m, hd, ?_⟩⟩⟩
          · simp only [Except.ok.injEq, Transaction.readAccess.injEq] at h1
            rw [h1.1, h]
          · simp only [Except.ok.injEq, Transaction.readAccess.injEq] at h1
            rw [deviceBytes_getElem? _ _ _ _ _ _ _ hk, Nat.zero_add, h1.1, h]
  obtain ⟨m', rd', bs, hr, hg', hd', hlen, hval⟩ := hrd
  unfold txRead
  simp only [hc, ho, hr]
  have hpk : ∀ (e' : Env) k, e'.calls = e.calls.tail → e'.callNo = e.callNo + 1 →
      e'.peekCall k = e.peekCall (k + 1) := by
    intro e' k h1 h2
    rw [← Env.peekCall_popCall]
    exact Env.peekCall_congr h1 h2 k
  cases hf : e.call.fails with
  | none =>
    refine ⟨m', (match e.call.count with | some k => bs.take k | none => bs), hd.trans hd',
      ⟨by simp [h], by simp [h], by simp [h], hg.trans hg'⟩, rfl,
      by simp only [h]; cases e.call.count <;> rfl, rfl, rfl, fun k => ?_, rfl, ?_, ?_⟩
    · exact hpk _ k (by simp [h]) (by simp [h])
    · cases e.call.count with
      | none => exact hlen
      | some k => exact (List.length_take_le' k bs).trans hlen
    · intro _ a ds h1
      obtain ⟨hl, hv⟩ := hval a ds h1
      cases e.call.count with
      | none => exact ⟨fun _ => hl, fun _ => hv⟩
      | some k =>
        refine ⟨by simp, fun hk => ?_⟩
        have : bs.take k = bs := List.take_of_length_le (by rw [List.length_take] at hk; omega)
        simp only [this]
        exact hv
  | some x =>
    refine ⟨m, e.call.fill.take n, hd, ⟨by simp [h], by simp [h], by simp [h], by simpa [h] using hg⟩, rfl, by simp [h], rfl, rfl,
      fun k => ?_, by simp [h], List.length_take_le n _, by simp⟩
    exact hpk _ k (by simp [h]) (by simp [h])

end Sys2Proof.Machine
end

