-- ==== Sys2Proof/Laws/Transactions.lean ====
section
/-! SUPPORT. What one framed transaction and one access through the latched error can do, said once each. -/

namespace Sys2Proof.Machine

theorem openTx_of_closed {e : Env} (h : e.txFailed = false → e.tx = []) : e.openTx = [] := by
  unfold Env.openTx
  cases hf : e.txFailed with
  | true => rfl
  | false => exact h hf

theorem openTx_of_fields {e : Env} {l : List Byte} (h1 : e.tx = l) (h2 : e.txFailed = false) : e.openTx = l := by
  unfold Env.openTx
  rw [h1, h2]
  rfl

theorem hdr_length (a : DevAddr) (i : Intent) : (hdr a i).length = 3 := rfl

theorem deviceCommitPrefix_hdr (n : Nat) (a : DevAddr) (m : Memory) :
    deviceCommitPrefix n (hdr a .write) m = m := by
  have := decodeTransaction_write a []
  rw [List.append_nil] at this
  unfold deviceCommitPrefix
  rw [this]
  simp [Memory.writeBytes]

theorem deviceCommitPrefix_write (n : Nat) (a : DevAddr) (p : List Byte) (m : Memory) :
    deviceCommitPrefix n (hdr a .write ++ p) m = m.writeBytes a.toNat (p.take n) := by
  unfold deviceCommitPrefix
  rw [decodeTransaction_write]

theorem deviceCommit_write (a : DevAddr) (p : List Byte) (m : Memory) :
    deviceCommit (hdr a .write ++ p) m = m.writeBytes a.toNat p := by
  unfold deviceCommit
  rw [decodeTransaction_write]

theorem deviceCommitPrefix_read (n : Nat) (a : DevAddr) (ds : List Byte) (m : Memory) :
    deviceCommitPrefix n (hdr a .read ++ ds) m = m := by
  unfold deviceCommitPrefix
  rw [decodeTransaction_read]

theorem deviceCommit_read (a : DevAddr) (ds : List Byte) (m : Memory) : deviceCommit (hdr a .read ++ ds) m = m := by
  unfold deviceCommit
  rw [decodeTransaction_read]

/-- What every framed transaction keeps in the environment, and how it leaves the open transaction. -/
structure TxDone (cfg : Cfg) (failed : Bool) (e e' : Env) : Prop where
  kept : EnvKept cfg e e'
  failed_iff : e'.txFailed = failed
  closed : failed = false → e'.tx = []

/-! ## A write transaction -/

/-- Everything a write transaction can do: the calls of the trace, and a prefix of the payload committed, all of it on
success. -/
theorem sendWrite_cases (cfg : Cfg) (z : Bool) (a : DevAddr) (p : List Byte) (e : Env) (ho : e.openTx = []) :
    ∃ m j l, Drift cfg e.mem m ∧ j ≤ p.length ∧
      TxDone cfg (sendWrite cfg z a p e).1.isSome e (sendWrite cfg z a p e).2 ∧
      (sendWrite cfg z a p e).2.mem = m.writeBytes a.toNat (p.take j) ∧
      ((sendWrite cfg z a p e).1 = none → j = p.length) ∧
      (sendWrite cfg z a p e).2.wire = e.wire ++ l ∧
      WriteTrace (hdr a .write) p (sendWrite cfg z a p e).1 l := by
  obtain ⟨m1, d1, k1, f1, w1, t1, x1, -, y1⟩ := txWrite_cases cfg z (hdr a .write) e
  obtain ⟨m2, d2, k2, f2, w2, t2, x2, -, y2⟩ := txWrite_cases cfg z p (txWrite cfg z (hdr a .write) e).2
  obtain ⟨m3, d3, k3, f3, w3, t3, x3, -, y3⟩ := txFlush_cases cfg z (txWrite cfg z p (txWrite cfg z (hdr a .write) e).2).2
  rw [ho, List.nil_append] at t1 y1
  unfold sendWrite
  simp only [f1]
  cases h1 : e.call.fails with
  | some x =>
    rw [h1] at w1 x1 y1
    simp only [Option.isSome_some, if_true, deviceCommitPrefix_hdr] at y1
    refine ⟨m1, 0, _, d1, Nat.zero_le _, ⟨k1, x1, by simp⟩, by rw [y1]; simp [Memory.writeBytes], by simp, w1, .headerFails x⟩
  | none =>
    rw [h1] at w1 x1 y1
    simp only [Option.isSome_none, Bool.false_eq_true, if_false] at y1
    rw [openTx_of_fields t1 x1] at t2 y2
    rw [y1] at d2
    simp only [f2]
    cases h2 : (txWrite cfg z (hdr a .write) e).2.call.fails with
    | some x =>
      rw [h2] at w2 x2 y2
      simp only [Option.isSome_some, if_true, deviceCommitPrefix_write] at y2
      refine ⟨m2, min (txWrite cfg z (hdr a .write) e).2.call.commit p.length, _, d1.trans d2, Nat.min_le_right _ _,
        ⟨k1.trans k2, x2, by simp⟩, ?_, by simp, by rw [w2, w1]; simp, .payloadFails x⟩
      rw [y2]
      congr 1
      rcases Nat.le_total (txWrite cfg z (hdr a .write) e).2.call.commit p.length with h | h
      · rw [Nat.min_eq_left h]
      · rw [Nat.min_eq_right h, List.take_of_length_le h, List.take_length]
    | none =>
      rw [h2] at w2 x2 y2
      simp only [Option.isSome_none, Bool.false_eq_true, if_false] at y2
      rw [openTx_of_fields t2 x2] at t3 y3
      rw [y2] at d3
      simp only [closeTx, f3]
      cases h3 : (txWrite cfg z p (txWrite cfg z (hdr a .write) e).2).2.call.fails with
      | some x =>
        rw [h3] at w3 x3 y3
        simp only [Option.isSome_some, if_true, deviceCommitPrefix_write] at y3
        refine ⟨m3, min (txWrite cfg z p (txWrite cfg z (hdr a .write) e).2).2.call.commit p.length, _,
          (d1.trans d2).trans d3, Nat.min_le_right _ _, ⟨(k1.trans k2).trans k3, x3, by simp⟩, ?_, by simp,
          by rw [w3, w2, w1]; simp, .flushFails x⟩
        rw [y3]
        congr 1
        rcases Nat.le_total (txWrite cfg z p (txWrite cfg z (hdr a .write) e).2).2.call.commit p.length with h | h
        · rw [Nat.min_eq_left h]
        · rw [Nat.min_eq_right h, List.take_of_length_le h, List.take_length]
      | none =>
        rw [h3] at w3 x3 y3 t3
        simp only [Option.isSome_none, Bool.false_eq_true, if_false, deviceCommit_write] at y3 t3
        refine ⟨m3, p.length, _, (d1.trans d2).trans d3, Nat.le_refl _, ⟨(k1.trans k2).trans k3, x3, fun _ => t3⟩, ?_,
          fun _ => rfl, by rw [w3, w2, w1]; simp, .done⟩
        rw [y3, List.take_length]

/-- A write transaction succeeds when its three calls do, and uses up their answers. -/
theorem sendWrite_works (cfg : Cfg) (z : Bool) (a : DevAddr) (p : List Byte) (e : Env) (h : e.works 3) :
    (sendWrite cfg z a p e).1 = none ∧ ∀ k, (sendWrite cfg z a p e).2.peekCall k = e.peekCall (k + 3) := by
  obtain ⟨m1, -, -, f1, -, -, -, p1, -⟩ := txWrite_cases cfg z (hdr a .write) e
  obtain ⟨m2, -, -, f2, -, -, -, p2, -⟩ := txWrite_cases cfg z p (txWrite cfg z (hdr a .write) e).2
  obtain ⟨m3, -, -, f3, -, -, -, p3, -⟩ := txFlush_cases cfg z (txWrite cfg z p (txWrite cfg z (hdr a .write) e).2).2
  rw [Env.call_eq_peekCall, (h 0 (by omega)).1] at f1
  rw [Env.call_eq_peekCall, p1, (h 1 (by omega)).1] at f2
  rw [Env.call_eq_peekCall, p2, p1, (h 2 (by omega)).1] at f3
  unfold sendWrite
  simp only [f1, f2, closeTx, f3]
  exact ⟨rfl, fun k => by rw [p3, p2, p1]⟩

/-! ## A host-command transaction -/

/-- Everything a host-command transaction can do: nothing to the device (20_memory.md R92). -/
theorem sendCommand_cases (cfg : Cfg) (z : Bool) (c : Byte) (e : Env) (ho : e.openTx = []) :
    ∃ m l, Drift cfg e.mem m ∧ TxDone cfg (sendCommand cfg z c e).1.isSome e (sendCommand cfg z c e).2 ∧
      (sendCommand cfg z c e).2.mem = m ∧ (sendCommand cfg z c e).2.wire = e.wire ++ l ∧
      CommandTrace c (sendCommand cfg z c e).1 l := by
  obtain ⟨m1, d1, k1, f1, w1, t1, x1, -, y1⟩ := txWrite_cases cfg z [c] e
  obtain ⟨m2, d2, k2, f2, w2, t2, x2, -, y2⟩ := txFlush_cases cfg z (txWrite cfg z [c] e).2
  rw [ho, List.nil_append] at t1 y1
  unfold sendCommand
  simp only [f1]
  cases h1 : e.call.fails with
  | some x =>
    rw [h1] at w1 x1 y1
    exact ⟨m1, _, d1, ⟨k1, x1, by simp⟩, by rw [y1]; rfl, w1, .writeFails x⟩
  | none =>
    rw [h1] at w1 x1 y1
    simp only [Option.isSome_none, Bool.false_eq_true, if_false] at y1
    rw [openTx_of_fields t1 x1] at t2 y2
    rw [y1] at d2
    simp only [closeTx, f2]
    cases h2 : (txWrite cfg z [c] e).2.call.fails with
    | some x =>
      rw [h2] at w2 x2 y2
      exact ⟨m2, _, d1.trans d2, ⟨k1.trans k2, x2, by simp⟩, by rw [y2]; rfl, by rw [w2, w1]; simp,
        .flushFails x⟩
    | none =>
      rw [h2] at w2 x2 y2 t2
      exact ⟨m2, _, d1.trans d2, ⟨k1.trans k2, x2, fun _ => t2⟩, by rw [y2]; rfl, by rw [w2, w1]; simp, .done⟩

/-- A host-command transaction succeeds when its two calls do. -/
theorem sendCommand_works (cfg : Cfg) (z : Bool) (c : Byte) (e : Env) (h : e.works 2) : (sendCommand cfg z c e).1 = none := by
  obtain ⟨m1, -, -, f1, -, -, -, p1, -⟩ := txWrite_cases cfg z [c] e
  obtain ⟨m2, -, -, f2, -, -, -, p2, -⟩ := txFlush_cases cfg z (txWrite cfg z [c] e).2
  rw [Env.call_eq_peekCall, (h 0 (by omega)).1] at f1
  rw [Env.call_eq_peekCall, p1, (h 1 (by omega)).1] at f2
  unfold sendCommand
  simp only [f1, closeTx, f2]
  rfl

/-! ## A read transaction -/

/-- Everything a read transaction can do: nothing to the device (20_memory.md R73), and on success `n` bytes, those of the
device where they are written and the read cannot tear (R86, R91). -/
theorem sendRead_cases (cfg : Cfg) (z : Bool) (a : DevAddr) (n : Nat) (e : Env) (ho : e.openTx = []) :
    ∃ m1 m2 l, Drift cfg e.mem m1 ∧ Drift cfg m1 m2 ∧
      TxDone cfg (match (sendRead cfg z a n e).1 with | .ok _ => false | .error _ => true) e (sendRead cfg z a n e).2 ∧
      (sendRead cfg z a n e).2.mem = m2 ∧
      (sendRead cfg z a n e).2.wire = e.wire ++ l ∧
      ReadTrace (readRequestBytes cfg a) n (sendRead cfg z a n e).1 l ∧
      (mayTear cfg a.toNat n = false → ∀ got, (sendRead cfg z a n e).1 = .ok got →
        ∀ v, m1.readLE a.toNat n = some v → got = leBytes n v) ∧
      (∀ got, (sendRead cfg z a n e).1 = .ok got → ∃ callNo, ∀ k < n, ∃ m, Drift cfg e.mem m ∧
        got[k]? = some (drawnByte (e.peekCall 1) callNo k (m.read (a.toNat + k)))) ∧
      (∀ got, (sendRead cfg z a n e).1 = .ok got → ∀ k, (sendRead cfg z a n e).2.peekCall k = e.peekCall (k + 3)) := by
  obtain ⟨m1, d1, k1, f1, w1, t1, x1, p1, y1⟩ := txWrite_cases cfg z (readRequestBytes cfg a) e
  obtain ⟨m2, got, d2, k2, f2, w2, t2, x2, p2, y2, hlen, hval⟩ :=
    txRead_cases cfg z n (txWrite cfg z (readRequestBytes cfg a) e).2
  obtain ⟨m3, d3, k3, f3, w3, t3, x3, p3, y3⟩ :=
    txFlush_cases cfg z (txRead cfg z n (txWrite cfg z (readRequestBytes cfg a) e).2).2
  rw [ho, List.nil_append] at t1 y1
  have hcp : ∀ j m, deviceCommitPrefix j (readRequestBytes cfg a) m = m := fun j m => deviceCommitPrefix_read j a _ m
  have hcc : ∀ m, deviceCommit (readRequestBytes cfg a) m = m := fun m => deviceCommit_read a _ m
  rw [hcp, ite_self] at y1
  rw [y1] at d2
  unfold sendRead
  simp only [f1]
  cases h1 : e.call.fails with
  | some x =>
    rw [h1] at w1 x1
    exact ⟨m1, m1, _, d1, Drift.refl _ _, ⟨k1, x1, by simp⟩, y1, w1, .headerFails x, by simp, by simp, by simp⟩
  | none =>
    rw [h1] at w1 x1
    rw [openTx_of_fields t1 x1] at t2 hval
    simp only [f2]
    cases h2 : (txWrite cfg z (readRequestBytes cfg a) e).2.call.fails with
    | some x =>
      rw [h2] at w2 x2
      exact ⟨m2, m2, _, d1.trans d2, Drift.refl _ _, ⟨k1.trans k2, x2, by simp⟩, y2, by rw [w2, w1]; simp,
        .readFails x got, by simp, by simp, by simp⟩
    | none =>
      rw [h2] at w2 x2
      simp only [Option.isSome_none, Bool.false_or] at x2
      by_cases hs : shortRead n got = true
      · simp only [hs, if_true]
        rw [hs] at x2
        exact ⟨m2, m2, _, d1.trans d2, Drift.refl _ _, ⟨k1.trans k2, x2, by simp⟩, y2, by rw [w2, w1]; simp,
          .short got (by simpa [shortRead] using hs), by simp, by simp, by simp⟩
      · rw [Bool.not_eq_true] at hs
        have hl : got.length = n := by
          simp only [shortRead, decide_eq_false_iff_not, not_lt] at hs
          omega
        rw [hs] at x2
        rw [openTx_of_fields t2 x2, hcp, hcc, ite_self] at y3
        rw [y2] at d3
        simp only [hs, Bool.false_eq_true, if_false, closeTx, f3]
        cases h3 : (txRead cfg z n (txWrite cfg z (readRequestBytes cfg a) e).2).2.call.fails with
        | some x =>
          rw [h3] at w3 x3
          exact ⟨m2, m3, _, d1.trans d2, d3, ⟨(k1.trans k2).trans k3, x3, by simp⟩, y3,
            by simp only [Option.map_some, w3, w2, w1]; simp, .flushFails x got hl, by simp, by simp, by simp⟩
        | none =>
          rw [h3] at w3 x3 t3
          refine ⟨m2, m3, _, d1.trans d2, d3, ⟨(k1.trans k2).trans k3, x3, fun _ => t3⟩, y3,
            by simp only [Option.map_none, w3, w2, w1]; simp, .done got hl, ?_, ?_, fun _ _ k => by simp only [Option.map_none]; rw [p3, p2, p1]⟩
          · intro htear got' hg v hv
            simp only [Option.map_none, Except.ok.injEq] at hg
            subst hg
            rw [((hval h2 a _ (decodeTransaction_read a _)).2 hl).1 htear]
            exact deviceBytes_of_readLE _ _ _ _ _ _ hv
          · intro got' hg
            simp only [Option.map_none, Except.ok.injEq] at hg
            subst hg
            have hc2 : (txWrite cfg z (readRequestBytes cfg a) e).2.call = e.peekCall 1 := by rw [Env.call_eq_peekCall, p1]
            refine ⟨(txWrite cfg z (readRequestBytes cfg a) e).2.callNo, fun k hk => ?_⟩
            obtain ⟨m', hd', hk'⟩ := ((hval h2 a _ (decodeTransaction_read a _)).2 hl).2 k hk
            rw [hc2] at hk'
            rw [y1] at hd'
            exact ⟨m', d1.trans hd', hk'⟩

/-- A read transaction succeeds when its three calls do, and uses up their answers. -/
theorem sendRead_works (cfg : Cfg) (z : Bool) (a : DevAddr) (n : Nat) (e : Env) (ho : e.openTx = []) (h : e.works 3) :
    (∃ got, (sendRead cfg z a n e).1 = .ok got) ∧ ∀ k, (sendRead cfg z a n e).2.peekCall k = e.peekCall (k + 3) := by
  obtain ⟨m1, -, -, f1, -, t1, x1, p1, -⟩ := txWrite_cases cfg z (readRequestBytes cfg a) e
  obtain ⟨m2, got, -, -, f2, -, t2, x2, p2, -, -, hval⟩ := txRead_cases cfg z n (txWrite cfg z (readRequestBytes cfg a) e).2
  obtain ⟨m3, -, -, f3, -, -, -, p3, -⟩ :=
    txFlush_cases cfg z (txRead cfg z n (txWrite cfg z (readRequestBytes cfg a) e).2).2
  rw [Env.call_eq_peekCall, (h 0 (by omega)).1] at f1 x1
  rw [ho, List.nil_append] at t1
  have h2 : (txWrite cfg z (readRequestBytes cfg a) e).2.call = e.peekCall 1 := by rw [Env.call_eq_peekCall, p1]
  have hl : got.length = n := by
    rw [openTx_of_fields t1 x1, h2] at hval
    exact (hval (h 1 (by omega)).1 a _ (decodeTransaction_read a _)).1 (h 1 (by omega)).2
  have hs : shortRead n got = false := by simp [shortRead, hl]
  rw [h2, (h 1 (by omega)).1] at f2
  rw [Env.call_eq_peekCall, p2, p1, (h 2 (by omega)).1] at f3
  unfold sendRead
  simp only [f1, f2, hs, Bool.false_eq_true, if_false, closeTx, f3, Option.map_none]
  exact ⟨⟨got, rfl⟩, fun k => by rw [p3, p2, p1]⟩

end Sys2Proof.Machine
end

