-- ==== Sys2Proof/Laws/Accessor.lean ====
section
/-! SUPPORT. What the accessor's operations can do to the state, in one relation that composes: `Acts P s s'` says that `s'` comes
from `s` by accesses that store only to addresses of which `P` is true. -/

namespace Sys2Proof.Machine

/-! ## The device memory -/

/-- What accesses that store where `P` is true, and the consumer between them, can have done to the device memory. -/
structure MemActs (cfg : Cfg) (P : Nat → Prop) (m m' : Memory) : Prop where
  outside : ∀ x, ¬ P x → ¬ onRP cfg x → m'.read x = m.read x
  wf : m.wf = true → m'.wf = true
  written : ∀ x, (m.read x).isSome → (m'.read x).isSome
  forward : CfgFacts cfg → (∀ x, P x → ¬ onRP cfg x ∧ ¬ onWP cfg x) →
    ∀ r w, m.readLE cfg.regRP 4 = some r → m.readLE cfg.regWP 4 = some w →
      ∃ n, n ≤ dist cfg r w ∧
        (m'.readLE cfg.regRP 4 = some r ∧ n = 0 ∨
          r ≠ w ∧ w < cfg.fifoCap ∧ 0 < n ∧ m'.readLE cfg.regRP 4 = some (red cfg (r + n)))

theorem MemActs.of_drift {cfg : Cfg} {P : Nat → Prop} {m m' : Memory} (h : Drift cfg m m') : MemActs cfg P m m' :=
  ⟨fun x _ hx => h.outside x hx, h.wf, h.written, fun c _ => h.forward c⟩

theorem MemActs.mono {cfg : Cfg} {P Q : Nat → Prop} {m m' : Memory} (h : MemActs cfg P m m') (hPQ : ∀ x, P x → Q x) :
    MemActs cfg Q m m' :=
  ⟨fun x hx => h.outside x fun hp => hx (hPQ x hp), h.wf, h.written, fun c hq => h.forward c fun x hp => hq x (hPQ x hp)⟩

/-- WP keeps its value where nothing stores to it. -/
theorem MemActs.wp {cfg : Cfg} {P : Nat → Prop} {m m' : Memory} (h : MemActs cfg P m m') (c : CfgFacts cfg)
    (hP : ∀ x, P x → ¬ onWP cfg x) : m'.readLE cfg.regWP 4 = m.readLE cfg.regWP 4 :=
  Memory.readLE_congr _ _ _ _ fun x h1 h2 => h.outside x (fun hp => hP x hp ⟨h1, h2⟩) fun hx => by
    have := c.rp_wp
    simp only [onRP, within] at hx
    omega

theorem MemActs.trans {cfg : Cfg} {P : Nat → Prop} {m1 m2 m3 : Memory} (h : MemActs cfg P m1 m2)
    (g : MemActs cfg P m2 m3) : MemActs cfg P m1 m3 := by
  refine ⟨fun x hp hx => (g.outside x hp hx).trans (h.outside x hp hx), fun w => g.wf (h.wf w),
    fun x w => g.written x (h.written x w), fun c hP r w hr hw => ?_⟩
  have hcap := c.cap_pos
  have hw2 := (h.wp c fun x hx => (hP x hx).2).trans hw
  obtain ⟨n, hn, hcase⟩ := h.forward c hP r w hr hw
  rcases hcase with ⟨hr2, rfl⟩ | ⟨hne, hwc, hpos, hr2⟩
  · exact g.forward c hP r w hr2 hw2
  · obtain ⟨k, hk, hcase2⟩ := g.forward c hP _ w hr2 hw2
    rw [dist_add_left hcap _ _ _ hn] at hk
    rcases hcase2 with ⟨hr3, rfl⟩ | ⟨-, -, hkpos, hr3⟩
    · exact ⟨n, hn, .inr ⟨hne, hwc, hpos, hr3⟩⟩
    · exact ⟨n + k, by omega, .inr ⟨hne, hwc, by omega, by rw [hr3, red_red_add, Nat.add_assoc]⟩⟩

theorem MemActs.writeBytes (cfg : Cfg) (P : Nat → Prop) (m : Memory) (a : Nat) (bs : List Byte)
    (hP : ∀ x, within a bs.length x → P x) : MemActs cfg P m (m.writeBytes a bs) := by
  refine ⟨fun x hp _ => ?_, fun h => Memory.wf_writeBytes h _ _, fun x => Memory.isSome_read_writeBytes _ _ _ _,
    fun c h r w hr hw => ⟨0, Nat.zero_le _, .inl ⟨?_, rfl⟩⟩⟩
  · apply Memory.read_writeBytes_of_not_mem
    by_contra hc
    exact hp (hP x (by simp only [within]; omega))
  · rw [← hr]
    exact Memory.readLE_congr _ _ _ _ fun x h1 h2 => Memory.read_writeBytes_of_not_mem _ _ _ _ (by
      by_contra hc
      exact (h x (hP x (by simp only [within]; omega))).1 ⟨h1, h2⟩)

/-! ## The calls -/

/-- Whole transactions in a row, all of them successful. -/
inductive Complete (cfg : Cfg) : List TxCall → Prop
  | nil : Complete cfg []
  | write {a : DevAddr} {p : List Byte} {l k : List TxCall} :
      WriteTrace (hdr a .write) p none l → Complete cfg k → Complete cfg (l ++ k)
  | command {c : Byte} {l k : List TxCall} : CommandTrace c none l → Complete cfg k → Complete cfg (l ++ k)
  | read {a : DevAddr} {n : Nat} {got : List Byte} {l k : List TxCall} :
      ReadTrace (readRequestBytes cfg a) n (.ok got) l → Complete cfg k → Complete cfg (l ++ k)

theorem Complete.append_framed {cfg : Cfg} {l k : List TxCall} (h : Complete cfg l) (g : Framed cfg k) :
    Framed cfg (l ++ k) := by
  induction h with
  | nil => exact g
  | write h _ ih => rw [List.append_assoc]; exact .write h ih
  | command h _ ih => rw [List.append_assoc]; exact .command h ih
  | read h _ ih => rw [List.append_assoc]; exact .read h ih

theorem Complete.framed {cfg : Cfg} {l : List TxCall} (h : Complete cfg l) : Framed cfg l := by
  have := h.append_framed .nil
  rwa [List.append_nil] at this

theorem Complete.append {cfg : Cfg} {l k : List TxCall} (h : Complete cfg l) (g : Complete cfg k) :
    Complete cfg (l ++ k) := by
  induction h with
  | nil => exact g
  | write h _ ih => rw [List.append_assoc]; exact .write h ih
  | command h _ ih => rw [List.append_assoc]; exact .command h ih
  | read h _ ih => rw [List.append_assoc]; exact .read h ih

theorem WriteTrace.ne_nil {h p : List Byte} {o : Option Reason} {l : List TxCall} (t : WriteTrace h p o l) : l ≠ [] := by
  cases t <;> simp

theorem CommandTrace.ne_nil {c : Byte} {o : Option Reason} {l : List TxCall} (t : CommandTrace c o l) : l ≠ [] := by
  cases t <;> simp

theorem ReadTrace.ne_nil {h : List Byte} {n : Nat} {o : Except Reason (List Byte)} {l : List TxCall}
    (t : ReadTrace h n o l) : l ≠ [] := by
  cases t <;> simp

/-! ## The state -/

/-- Between operations no byte of a successful transaction is left in the transport (20_memory.md R84). -/
def Env.Closed (e : Env) : Prop := e.txFailed = false → e.tx = []

/-- What a sequence of accesses that store where `P` is true can do to the state. -/
structure Acts (P : Nat → Prop) (s s' : State) : Prop where
  cfg : s'.cfg = s.cfg
  woff : s'.woff = s.woff
  fault : s'.fault = s.fault
  reqIdx : s'.reqIdx = s.reqIdx
  port : s'.port = s.port
  /-- A latched error stays, and nothing is sent under it. -/
  poisoned : ∀ r, s.err = .failed r → s'.err = .failed r ∧ s'.env = s.env
  kept : EnvKept s.cfg s.env s'.env
  mem : MemActs s.cfg P s.env.mem s'.env.mem
  closed : s'.env.Closed
  wire : ∃ l, s'.env.wire = s.env.wire ++ l ∧ Framed s.cfg l ∧ (s'.err = .ok → Complete s.cfg l) ∧
    (l = [] → s'.env.txFailed = s.env.txFailed) ∧ (l ≠ [] → s'.err = .ok → s'.env.txFailed = false)
  haz : ∀ h, s.ghost.haz.has h = true → s'.ghost.haz.has h = true
  ghost : GhostOk s.cfg s.ghost → GhostOk s.cfg s'.ghost

theorem Acts.refl (P : Nat → Prop) (s : State) (h : s.env.Closed) : Acts P s s :=
  ⟨rfl, rfl, rfl, rfl, rfl, fun _ h => ⟨h, rfl⟩, EnvKept.refl _ _, .of_drift (Drift.refl _ _), h,
    ⟨[], by simp, .nil, fun _ => .nil, fun _ => rfl, fun h => absurd rfl h⟩, fun _ => id, id⟩

theorem Acts.mono {P Q : Nat → Prop} {s s' : State} (h : Acts P s s') (hPQ : ∀ x, P x → Q x) : Acts Q s s' :=
  { h with mem := h.mem.mono hPQ }

theorem Acts.trans {P : Nat → Prop} {s1 s2 s3 : State} (h : Acts P s1 s2) (g : Acts P s2 s3) : Acts P s1 s3 := by
  obtain ⟨l, hl, hlf, hlc, hl0, hl1⟩ := h.wire
  obtain ⟨k, hk, hkf, hkc, hk0, hk1⟩ := g.wire
  have hgk := g.kept
  have hgm := g.mem
  have hgg := g.ghost
  rw [h.cfg] at hgk hgm hgg hkf hkc
  refine ⟨g.cfg.trans h.cfg, g.woff.trans h.woff, g.fault.trans h.fault, g.reqIdx.trans h.reqIdx, g.port.trans h.port,
    fun r hr => ?_, h.kept.trans hgk, h.mem.trans hgm, g.closed, ?_, fun x hx => g.haz x (h.haz x hx), fun x => hgg (h.ghost x)⟩
  · obtain ⟨h1, h2⟩ := h.poisoned r hr
    obtain ⟨g1, g2⟩ := g.poisoned r h1
    exact ⟨g1, g2.trans h2⟩
  · cases he : s2.err with
    | ok =>
      refine ⟨l ++ k, by rw [hk, hl, List.append_assoc], (hlc he).append_framed hkf, fun h3 => (hlc he).append (hkc h3),
        fun hn => ?_, fun hn h3 => ?_⟩
      · rw [List.append_eq_nil_iff] at hn
        exact (hk0 hn.2).trans (hl0 hn.1)
      · by_cases hkn : k = []
        · rw [hkn, List.append_nil] at hn
          exact (hk0 hkn).trans (hl1 hn he)
        · exact hk1 hkn h3
    | failed r =>
      obtain ⟨g1, g2⟩ := g.poisoned r he
      exact ⟨l, by rw [g2, hl], hlf, fun h3 => by rw [g1] at h3; exact absurd h3 (by simp), fun hn => by rw [g2, hl0 hn],
        fun _ h3 => by rw [g1] at h3; exact absurd h3 (by simp)⟩

/-! ## Accesses -/

theorem accessed_eq (r : Option Reason × Env) (s : State) (h : s.err = .ok) :
    s.accessed r = ((errOf r.1).status, { s with env := r.2, err := errOf r.1 }) := by
  obtain ⟨o, e⟩ := r
  cases s
  cases h
  cases o <;> rfl

/-- `doWrite` under a latched error sends nothing (40_transactions.md R140). -/
theorem doWrite_poisoned (addr n v : Nat) (s : State) (r : Reason) (h : s.err = .failed r) :
    doWrite addr n v s = (.err r, s) := by
  simp only [doWrite, h]

/-- `doWrite` with a clean error register. -/
theorem doWrite_eq (addr n v : Nat) (s : State) (h : s.err = .ok) :
    doWrite addr n v s =
      ((errOf (sendWrite s.cfg (ghostWrite s.cfg addr n v s.ghost).haz.any (BitVec.ofNat 22 addr) (leBytes n v) s.env).1).status,
        { s with
          ghost := ghostWrite s.cfg addr n v s.ghost
          env := (sendWrite s.cfg (ghostWrite s.cfg addr n v s.ghost).haz.any (BitVec.ofNat 22 addr) (leBytes n v) s.env).2
          err := errOf (sendWrite s.cfg (ghostWrite s.cfg addr n v s.ghost).haz.any (BitVec.ofNat 22 addr) (leBytes n v) s.env).1 }) := by
  cases s
  cases h
  exact accessed_eq _ _ rfl

/-- The status of a write is what the error register says after it. -/
theorem doWrite_status (addr n v : Nat) (s : State) : (doWrite addr n v s).1 = (doWrite addr n v s).2.err.status := by
  cases h : s.err with
  | ok => rw [doWrite_eq _ _ _ _ h]
  | failed r => rw [doWrite_poisoned _ _ _ _ r h]; simp only [h, Err.status]

theorem errOf_eq_ok {o : Option Reason} : errOf o = .ok ↔ o = none := by cases o <;> simp [errOf]

/-- A write is an access that stores to its own range. -/
theorem doWrite_acts (addr n v : Nat) (s : State) (hc : s.env.Closed) (ha : addr < addrLimit) :
    Acts (within addr n) s (doWrite addr n v s).2 := by
  cases h : s.err with
  | failed r =>
    rw [doWrite_poisoned _ _ _ _ r h]
    exact Acts.refl _ _ hc
  | ok =>
    obtain ⟨m, j, l, hd, hj, ht, hm, hjn, hw, htr⟩ :=
      sendWrite_cases s.cfg _ (BitVec.ofNat 22 addr) (leBytes n v) s.env (openTx_of_closed hc)
    rw [doWrite_eq _ _ _ _ h]
    have htn : (BitVec.ofNat 22 addr).toNat = addr := by
      rw [BitVec.toNat_ofNat]
      exact Nat.mod_eq_of_lt ha
    rw [htn] at hm
    rw [leBytes_length] at hj
    refine ⟨rfl, rfl, rfl, rfl, rfl, fun r hr => by rw [h] at hr; exact absurd hr (by simp), ht.kept, ?_, ?_, ⟨l, hw, ?_, ?_, fun hn => absurd hn htr.ne_nil, ?_⟩,
      fun x hx => ghostWrite_haz _ _ _ _ _ _ hx, fun g => ghostWrite_ok _ _ _ _ g⟩
    · rw [hm]
      refine (MemActs.of_drift hd).trans (MemActs.writeBytes _ _ _ _ _ fun x hx => ?_)
      simp only [within, List.length_take, leBytes_length] at hx ⊢
      omega
    · intro hf
      rw [ht.failed_iff] at hf
      exact ht.closed hf
    · cases ho : (sendWrite s.cfg (ghostWrite s.cfg addr n v s.ghost).haz.any (BitVec.ofNat 22 addr) (leBytes n v) s.env).1 with
      | some r => rw [ho] at htr; exact .failedWrite htr
      | none =>
        rw [ho] at htr
        have := Framed.write (cfg := s.cfg) htr .nil
        rwa [List.append_nil] at this
    · intro he
      rw [errOf_eq_ok] at he
      rw [he] at htr
      have := Complete.write (cfg := s.cfg) htr .nil
      rwa [List.append_nil] at this
    · intro _ he
      rw [errOf_eq_ok] at he
      rw [he] at ht
      exact ht.failed_iff

/-- A write's stores come after the consumer's last turn in it, and are a prefix of its bytes (20_memory.md R87). -/
theorem doWrite_mem (addr n v : Nat) (s : State) (hc : s.env.Closed) (ha : addr < addrLimit) :
    ∃ m j, Drift s.cfg s.env.mem m ∧ j ≤ n ∧
      (doWrite addr n v s).2.env.mem = m.writeBytes addr ((leBytes n v).take j) := by
  cases h : s.err with
  | failed r =>
    rw [doWrite_poisoned _ _ _ _ r h]
    exact ⟨s.env.mem, 0, Drift.refl _ _, Nat.zero_le _, by simp [Memory.writeBytes]⟩
  | ok =>
    obtain ⟨m, j, l, hd, hj, -, hm, -⟩ := sendWrite_cases s.cfg (ghostWrite s.cfg addr n v s.ghost).haz.any
      (BitVec.ofNat 22 addr) (leBytes n v) s.env (openTx_of_closed hc)
    rw [doWrite_eq _ _ _ _ h]
    rw [BitVec.toNat_ofNat, Nat.mod_eq_of_lt ha] at hm
    rw [leBytes_length] at hj
    exact ⟨m, j, hd, hj, hm⟩

/-- A successful write: the calls, and the bytes stored after whatever the consumer did. -/
theorem doWrite_works (addr n v : Nat) (s : State) (hc : s.env.Closed) (he : s.err = .ok) (ha : addr < addrLimit)
    (hw : s.env.works 3) :
    ∃ m, Drift s.cfg s.env.mem m ∧ (doWrite addr n v s).1 = .ok ∧ (doWrite addr n v s).2.err = .ok ∧
      (doWrite addr n v s).2.env.mem = m.writeBytes addr (leBytes n v) ∧
      (doWrite addr n v s).2.ghost = ghostWrite s.cfg addr n v s.ghost ∧
      (doWrite addr n v s).2.env.wire =
        s.env.wire ++ [.write (hdr (BitVec.ofNat 22 addr) .write) none, .write (leBytes n v) none, .flush none] ∧
      (doWrite addr n v s).2.env.tx = [] ∧ (doWrite addr n v s).2.env.txFailed = false ∧
      ∀ k, (doWrite addr n v s).2.env.peekCall k = s.env.peekCall (k + 3) := by
  obtain ⟨m, j, l, hd, hj, ht, hm, hjn, hwi, htr⟩ :=
    sendWrite_cases s.cfg _ (BitVec.ofNat 22 addr) (leBytes n v) s.env (openTx_of_closed hc)
  obtain ⟨hok, hp⟩ := sendWrite_works s.cfg _ (BitVec.ofNat 22 addr) (leBytes n v) s.env hw
  have htn : (BitVec.ofNat 22 addr).toNat = addr := by
    rw [BitVec.toNat_ofNat]
    exact Nat.mod_eq_of_lt ha
  rw [doWrite_eq _ _ _ _ he]
  rw [hok] at htr ht ⊢
  refine ⟨m, hd, rfl, rfl, ?_, rfl, ?_, ht.closed rfl, ht.failed_iff, hp⟩
  · rw [hm, hjn hok, htn, List.take_length]
  · cases htr
    exact hwi

/-- `doRead` under a latched error sends nothing (40_transactions.md R140). -/
theorem doRead_poisoned (addr n : Nat) (s : State) (r : Reason) (h : s.err = .failed r) :
    doRead addr n s = ((.err r, 0), s) := by
  simp only [doRead, h]

theorem doRead_error (addr n : Nat) (s : State) (h : s.err = .ok) (r : Reason)
    (hr : (sendRead s.cfg s.ghost.haz.any (BitVec.ofNat 22 addr) n s.env).1 = .error r) :
    doRead addr n s =
      ((.err r, 0), { s with env := (sendRead s.cfg s.ghost.haz.any (BitVec.ofNat 22 addr) n s.env).2, err := .failed r }) := by
  simp only [doRead, h, hr, State.failWith, State.latch, Err.status]

theorem doRead_ok (addr n : Nat) (s : State) (h : s.err = .ok) (got : List Byte)
    (hr : (sendRead s.cfg s.ghost.haz.any (BitVec.ofNat 22 addr) n s.env).1 = .ok got) :
    doRead addr n s =
      ((.ok, BitVec.ofNat 32 (fromLE got)),
        { s with
          env := (sendRead s.cfg s.ghost.haz.any (BitVec.ofNat 22 addr) n s.env).2
          ghost := ghostRead s.cfg addr n (fromLE got) s.ghost }) := by
  simp only [doRead, h, hr]

theorem doRead_status (addr n : Nat) (s : State) : (doRead addr n s).1.1 = (doRead addr n s).2.err.status := by
  cases h : s.err with
  | failed r => rw [doRead_poisoned _ _ _ r h]; simp only [h, Err.status]
  | ok =>
    cases hr : (sendRead s.cfg s.ghost.haz.any (BitVec.ofNat 22 addr) n s.env).1 with
    | error r => rw [doRead_error _ _ _ h r hr]; rfl
    | ok got => rw [doRead_ok _ _ _ h got hr]; simp only [h, Err.status]

/-- A read is an access that stores nothing. -/
theorem doRead_acts (addr n : Nat) (s : State) (hc : s.env.Closed) :
    Acts (fun _ => False) s (doRead addr n s).2 := by
  cases h : s.err with
  | failed r =>
    rw [doRead_poisoned _ _ _ r h]
    exact Acts.refl _ _ hc
  | ok =>
    obtain ⟨m1, m2, l, hd1, hd2, ht, hm, hw, htr, -⟩ :=
      sendRead_cases s.cfg _ (BitVec.ofNat 22 addr) n s.env (openTx_of_closed hc)
    have hmem : MemActs s.cfg (fun _ => False) s.env.mem (sendRead s.cfg s.ghost.haz.any (BitVec.ofNat 22 addr) n s.env).2.mem := by
      rw [hm]
      exact .of_drift (hd1.trans hd2)
    have hcl : (sendRead s.cfg s.ghost.haz.any (BitVec.ofNat 22 addr) n s.env).2.Closed := fun hf =>
      ht.closed (ht.failed_iff.symm.trans hf)
    cases hr : (sendRead s.cfg s.ghost.haz.any (BitVec.ofNat 22 addr) n s.env).1 with
    | error r =>
      rw [hr] at htr
      rw [doRead_error _ _ _ h r hr]
      exact ⟨rfl, rfl, rfl, rfl, rfl, fun r hr => by rw [h] at hr; exact absurd hr (by simp), ht.kept, hmem, hcl,
        ⟨l, hw, .failedRead htr, fun he => absurd he (by simp), fun hn => absurd hn htr.ne_nil,
          fun _ he => absurd he (by simp)⟩, fun _ hx => hx, id⟩
    | ok got =>
      rw [hr] at htr
      rw [doRead_ok _ _ _ h got hr]
      have h1 := Complete.read (cfg := s.cfg) htr .nil
      rw [List.append_nil] at h1
      exact ⟨rfl, rfl, rfl, rfl, rfl, fun r hr => by rw [h] at hr; exact absurd hr (by simp), ht.kept, hmem, hcl,
        ⟨l, hw, h1.framed, fun _ => h1, fun hn => absurd hn htr.ne_nil, fun _ _ => by rw [hr] at ht; exact ht.failed_iff⟩, fun x hx => ghostRead_haz _ _ _ _ _ _ hx,
        fun g => ghostRead_ok _ _ _ _ g⟩

/-- A successful read: the calls, the value, and the ghost observation of it. -/
theorem doRead_works (addr n : Nat) (s : State) (hc : s.env.Closed) (he : s.err = .ok) (ha : addr < addrLimit)
    (hw : s.env.works 3) :
    ∃ m1 m2 got, Drift s.cfg s.env.mem m1 ∧ Drift s.cfg m1 m2 ∧ got.length = n ∧
      (doRead addr n s).1 = (.ok, BitVec.ofNat 32 (fromLE got)) ∧ (doRead addr n s).2.err = .ok ∧
      (doRead addr n s).2.env.mem = m2 ∧
      (doRead addr n s).2.ghost = ghostRead s.cfg addr n (fromLE got) s.ghost ∧
      (doRead addr n s).2.env.wire =
        s.env.wire ++ [.write (readRequestBytes s.cfg (BitVec.ofNat 22 addr)) none, .read n got none, .flush none] ∧
      (doRead addr n s).2.env.tx = [] ∧ (doRead addr n s).2.env.txFailed = false ∧
      (∀ k, (doRead addr n s).2.env.peekCall k = s.env.peekCall (k + 3)) ∧
      (mayTear s.cfg addr n = false → ∀ v, m1.readLE addr n = some v → got = leBytes n v) ∧
      (∃ callNo, ∀ k < n, ∃ m, Drift s.cfg s.env.mem m ∧
        got[k]? = some (drawnByte (s.env.peekCall 1) callNo k (m.read (addr + k)))) := by
  obtain ⟨m1, m2, l, hd1, hd2, ht, hm, hwi, htr, hval, hby, -⟩ :=
    sendRead_cases s.cfg _ (BitVec.ofNat 22 addr) n s.env (openTx_of_closed hc)
  obtain ⟨⟨got, hok⟩, hp⟩ := sendRead_works s.cfg _ (BitVec.ofNat 22 addr) n s.env (openTx_of_closed hc) hw
  have htn : (BitVec.ofNat 22 addr).toNat = addr := by
    rw [BitVec.toNat_ofNat]
    exact Nat.mod_eq_of_lt ha
  rw [htn] at hval hby
  rw [doRead_ok _ _ _ he got hok]
  rw [hok] at htr ht
  refine ⟨m1, m2, got, hd1, hd2, ?_, rfl, he, hm, rfl, ?_, ht.closed rfl, ht.failed_iff, hp, fun htear v hv =>
    hval htear got hok v hv, hby got hok⟩
  · cases htr with
    | done _ h => exact h
  · cases htr
    exact hwi

/-- A host command is an access that stores nothing. -/
theorem doCommand_acts (c : Byte) (s : State) (hc : s.env.Closed) : Acts (fun _ => False) s (doCommand c s).2 := by
  cases h : s.err with
  | failed r =>
    simp only [doCommand, h]
    exact Acts.refl _ _ hc
  | ok =>
    obtain ⟨m, l, hd, ht, hm, hw, htr⟩ := sendCommand_cases s.cfg _ c s.env (openTx_of_closed hc)
    simp only [doCommand, h]
    rw [accessed_eq _ _ h]
    refine ⟨rfl, rfl, rfl, rfl, rfl, fun r hr => by rw [h] at hr; exact absurd hr (by simp), ht.kept,
      by rw [hm]; exact .of_drift hd, fun hf => ht.closed (ht.failed_iff.symm.trans hf), ⟨l, hw, ?_, ?_, fun hn => absurd hn htr.ne_nil, ?_⟩,
      fun _ hx => hx, id⟩
    · cases ho : (sendCommand s.cfg s.ghost.haz.any c s.env).1 with
      | some r => rw [ho] at htr; exact .failedCommand htr
      | none =>
        rw [ho] at htr
        have := Framed.command (cfg := s.cfg) htr .nil
        rwa [List.append_nil] at this
    · intro he
      rw [errOf_eq_ok] at he
      rw [he] at htr
      have := Complete.command (cfg := s.cfg) htr .nil
      rwa [List.append_nil] at this
    · intro _ he
      rw [errOf_eq_ok] at he
      rw [he] at ht
      exact ht.failed_iff

end Sys2Proof.Machine
end

