-- ==== Sys2Proof/Laws/Fifo.lean ====
section
/-! SUPPORT. The laws of the wrapped write and of the appends built on it (42_fifo_writer.md R170 to R175). -/

namespace Sys2Proof.Machine

/-- Address `x` holds one of the `n` bytes appended at offset `o`. -/
def onAppend (cfg : Cfg) (o n x : Nat) : Prop := ∃ k < n, x = fifoAddr cfg o k

theorem onAppend_window {cfg : Cfg} (c : CfgFacts cfg) {o n x : Nat} (h : onAppend cfg o n x) : onWindow cfg x := by
  obtain ⟨k, -, rfl⟩ := h
  have := red_lt c.cap_pos (o + k)
  simp only [onWindow, within, fifoAddr]
  omega

theorem window_not_ptr {cfg : Cfg} (c : CfgFacts cfg) {x : Nat} (h : onWindow cfg x) : ¬ onRP cfg x ∧ ¬ onWP cfg x := by
  have h1 := c.fifo_rp
  have h2 := c.fifo_wp
  simp only [onWindow, onRP, onWP, within] at *
  omega

theorem fifoAddr_of_lt {cfg : Cfg} {o k : Nat} (h : o + k < cfg.fifoCap) : fifoAddr cfg o k = cfg.fifoBase + o + k := by
  rw [fifoAddr, red_of_lt h, Nat.add_assoc]

theorem fifoAddr_of_ge {cfg : Cfg} {o k : Nat} (h1 : cfg.fifoCap ≤ o + k) (h2 : o + k < 2 * cfg.fifoCap) :
    fifoAddr cfg o k = cfg.fifoBase + (o + k - cfg.fifoCap) := by
  rw [fifoAddr, red, Nat.mod_eq_sub_mod h1, Nat.mod_eq_of_lt (by omega)]

/-- Offsets go round the ring: `FIFO_BASE + red(o)` from the next offset is the next bytes' place. -/
theorem fifoAddr_next (cfg : Cfg) (o j k : Nat) : fifoAddr cfg (red cfg (o + j)) k = fifoAddr cfg o (j + k) := by
  rw [fifoAddr, fifoAddr, red_red_add, Nat.add_assoc]

/-- Within one turn of the ring, different bytes have different places. -/
theorem fifoAddr_inj {cfg : Cfg} (c : CfgFacts cfg) {o i j : Nat} (hi : i < cfg.fifoCap) (hj : j < cfg.fifoCap)
    (h : fifoAddr cfg o i = fifoAddr cfg o j) : i = j := by
  simp only [fifoAddr, Nat.add_left_cancel_iff] at h
  rw [← dist_red_add c.cap_pos o i hi, h, dist_red_add c.cap_pos o j hj]

theorem tailLength_le (cfg : Cfg) (o n : Nat) : tailLength cfg o n ≤ n := Nat.min_le_left _ _

theorem onAppend_tail {cfg : Cfg} {o n x : Nat} (h : within (cfg.fifoBase + o) (tailLength cfg o n) x) :
    onAppend cfg o n x := by
  simp only [within, tailLength] at h
  exact ⟨x - (cfg.fifoBase + o), by omega, by rw [fifoAddr_of_lt (by omega)]; omega⟩

theorem onAppend_head {cfg : Cfg} {o n x : Nat} (ho : o < cfg.fifoCap) (hn : n ≤ cfg.fifoCap)
    (h : within cfg.fifoBase (n - tailLength cfg o n) x) : onAppend cfg o n x := by
  simp only [within, tailLength] at h
  exact ⟨x - cfg.fifoBase + (cfg.fifoCap - o), by omega, by rw [fifoAddr_of_ge (by omega) (by omega)]; omega⟩

/-! ## The wrapped write -/

theorem writeWrapped_status (o : Nat) (bs : List Byte) (s : State) :
    (writeWrapped o bs s).1 = (writeWrapped o bs s).2.err.status := by
  unfold writeWrapped
  dsimp only
  have h := doWrite_status (s.cfg.fifoBase + o) (tailLength s.cfg o bs.length)
    (fromLE (bs.take (tailLength s.cfg o bs.length))) s
  split_ifs
  · cases hd : (doWrite (s.cfg.fifoBase + o) (tailLength s.cfg o bs.length)
      (fromLE (bs.take (tailLength s.cfg o bs.length))) s).1 with
    | ok => exact doWrite_status _ _ _ _
    | err x => exact hd.symm.trans h
    | timeout => exact hd.symm.trans h
  · exact h

/-- A wrapped write is an access that stores to its own bytes of the window. -/
theorem writeWrapped_acts (o : Nat) (bs : List Byte) (s : State) (c : CfgFacts s.cfg) (hc : s.env.Closed)
    (ho : o < s.cfg.fifoCap) (hn : bs.length ≤ s.cfg.fifoCap) :
    Acts (onAppend s.cfg o bs.length) s (writeWrapped o bs s).2 := by
  unfold writeWrapped
  dsimp only
  have hfi := c.fifo_in
  have h1 := (doWrite_acts (s.cfg.fifoBase + o) (tailLength s.cfg o bs.length)
    (fromLE (bs.take (tailLength s.cfg o bs.length))) s hc (by omega)).mono (Q := onAppend s.cfg o bs.length)
      fun x hx => onAppend_tail hx
  split_ifs
  · cases hd : (doWrite (s.cfg.fifoBase + o) (tailLength s.cfg o bs.length)
      (fromLE (bs.take (tailLength s.cfg o bs.length))) s).1 with
    | ok =>
      have h2 := (doWrite_acts s.cfg.fifoBase (bs.length - tailLength s.cfg o bs.length)
        (fromLE (bs.drop (tailLength s.cfg o bs.length))) _ h1.closed (by omega)).mono
        (Q := onAppend s.cfg o bs.length) fun x hx => onAppend_head ho hn hx
      exact h1.trans h2
    | err x => exact h1
    | timeout => exact h1
  · exact h1

theorem leBytes_fromLE_of_length {n : Nat} {bs : List Byte} (h : bs.length = n) : leBytes n (fromLE bs) = bs := by
  subst h
  exact leBytes_fromLE bs

/-- A successful wrapped write: the calls, and each byte at its place in the ring. -/
theorem writeWrapped_works (o : Nat) (bs : List Byte) (s : State) (c : CfgFacts s.cfg) (hc : s.env.Closed)
    (he : s.err = .ok) (ho : o < s.cfg.fifoCap) (hn : bs.length ≤ s.cfg.fifoCap) (hw : s.env.works 6) :
    (writeWrapped o bs s).1 = .ok ∧ (writeWrapped o bs s).2.err = .ok ∧
      (writeWrapped o bs s).2.env.wire = s.env.wire ++ wrapTrace s.cfg o bs ∧
      (∀ k < bs.length, (writeWrapped o bs s).2.env.mem.read (fifoAddr s.cfg o k) = bs[k]?) ∧
      (∃ d ≤ 6, ∀ k, (writeWrapped o bs s).2.env.peekCall k = s.env.peekCall (k + d)) ∧
      (writeWrapped o bs s).2.env.tx = [] ∧ (writeWrapped o bs s).2.env.txFailed = false ∧
      (writeWrapped o bs s).2.ghost =
        (if tailLength s.cfg o bs.length < bs.length then
          ghostWrite s.cfg s.cfg.fifoBase (bs.length - tailLength s.cfg o bs.length)
            (fromLE (bs.drop (tailLength s.cfg o bs.length)))
            (ghostWrite s.cfg (s.cfg.fifoBase + o) (tailLength s.cfg o bs.length)
              (fromLE (bs.take (tailLength s.cfg o bs.length))) s.ghost)
        else ghostWrite s.cfg (s.cfg.fifoBase + o) (tailLength s.cfg o bs.length)
              (fromLE (bs.take (tailLength s.cfg o bs.length))) s.ghost) := by
  have hfi := c.fifo_in
  set j := tailLength s.cfg o bs.length with hj
  have hjn : j ≤ bs.length := tailLength_le _ _ _
  have hjc : j = min bs.length (s.cfg.fifoCap - o) := hj
  have htl : (bs.take j).length = j := by rw [List.length_take]; omega
  have hdl : (bs.drop j).length = bs.length - j := by rw [List.length_drop]
  obtain ⟨m1, d1, s1, e1, y1, g1, w1, t1, f1, p1⟩ := doWrite_works (s.cfg.fifoBase + o) j (fromLE (bs.take j)) s hc he
    (by omega) (fun i hi => hw i (by omega))
  rw [leBytes_fromLE_of_length htl] at y1 w1
  have hA := doWrite_acts (s.cfg.fifoBase + o) j (fromLE (bs.take j)) s hc (by omega)
  have place1 : ∀ k < j, (doWrite (s.cfg.fifoBase + o) j (fromLE (bs.take j)) s).2.env.mem.read (fifoAddr s.cfg o k) =
      bs[k]? := by
    intro k hk
    rw [y1, fifoAddr_of_lt (by omega), Memory.read_writeBytes_of_lt _ _ _ _ (by omega) (by omega),
      List.getElem?_take_of_lt hk]
  unfold writeWrapped wrapTrace
  simp only [← hj]
  by_cases hlt : j < bs.length
  · simp only [if_pos hlt, s1]
    obtain ⟨m2, d2, s2, e2, y2, g2, w2, t2, f2, p2⟩ := doWrite_works s.cfg.fifoBase (bs.length - j) (fromLE (bs.drop j)) _
      hA.closed e1 (by omega) (fun k hk => by rw [p1]; exact hw _ (by omega))
    rw [leBytes_fromLE_of_length hdl] at y2 w2
    refine ⟨s2, e2, by rw [w2, w1]; simp, fun k hk => ?_, ⟨6, by omega, fun k => by rw [p2, p1]⟩, t2, f2, ?_⟩
    · by_cases hkj : k < j
      · rw [y2, Memory.read_writeBytes_of_not_mem, d2.outside, place1 k hkj]
        · rw [hA.cfg]
          exact (window_not_ptr c (onAppend_window c ⟨k, hk, rfl⟩)).1
        · rw [fifoAddr_of_lt (by omega)]
          omega
      · have hk2 : fifoAddr s.cfg o k = s.cfg.fifoBase + (k - j) := by
          rw [fifoAddr_of_ge (by omega) (by omega)]
          omega
        rw [y2, hk2, Memory.read_writeBytes_of_lt _ _ _ _ (by omega) (by omega), List.getElem?_drop]
        congr 1
        omega
    · rw [g2, g1, hA.cfg]
  · simp only [if_neg hlt, List.append_nil]
    exact ⟨s1, e1, w1, fun k hk => place1 k (by omega), ⟨3, by omega, p1⟩, t1, f1, g1⟩

/-! ## Appending words -/

/-- What the append hook leaves alone: everything but the ghost. -/
theorem appendWord_eq (o : Nat) (w : Word) (s : State) :
    appendWord o w s = writeWrapped o (leBytes 4 w.toNat) { s with ghost := fifoAppendHook s.cfg 4 s.ghost } := rfl

theorem Acts.of_ghost {P : Nat → Prop} {s : State} (g : Ghost) (hc : s.env.Closed)
    (hh : ∀ h, s.ghost.haz.has h = true → g.haz.has h = true) (hg : GhostOk s.cfg s.ghost → GhostOk s.cfg g) :
    Acts P s { s with ghost := g } :=
  ⟨rfl, rfl, rfl, rfl, rfl, fun _ h => ⟨h, rfl⟩, EnvKept.refl _ _, .of_drift (Drift.refl _ _), hc,
    ⟨[], by simp, .nil, fun _ => .nil, fun _ => rfl, fun h => absurd rfl h⟩, hh, hg⟩

theorem appendWord_status (o : Nat) (w : Word) (s : State) : (appendWord o w s).1 = (appendWord o w s).2.err.status :=
  writeWrapped_status _ _ _

theorem appendWord_acts (o : Nat) (w : Word) (s : State) (c : CfgFacts s.cfg) (hc : s.env.Closed) (ho : o < s.cfg.fifoCap) :
    Acts (onAppend s.cfg o 4) s (appendWord o w s).2 := by
  have h1 : Acts (onAppend s.cfg o 4) s { s with ghost := fifoAppendHook s.cfg 4 s.ghost } :=
    .of_ghost _ hc (fun h hx => fifoAppendHook_haz _ _ _ _ hx) fun g => fifoAppendHook_ok _ _ g
  have h2 := writeWrapped_acts o (leBytes 4 w.toNat) { s with ghost := fifoAppendHook s.cfg 4 s.ghost } c hc ho
    (by rw [leBytes_length]; exact c.cap_ge)
  rw [leBytes_length] at h2
  exact h1.trans h2

theorem appendWords_nil (o : Nat) (s : State) : appendWords [] o s = (o, s) := rfl

theorem appendWords_cons (w : Word) (ws : List Word) (o : Nat) (s : State) :
    appendWords (w :: ws) o s = appendWords ws (nextOffset s.cfg o) (appendWord o w s).2 := rfl

/-- Appends are accesses that store inside the window, and their offset goes forward by 4 a word, whatever the error register
holds (42_fifo_writer.md R175). -/
theorem appendWords_acts (ws : List Word) (o : Nat) (s : State) (c : CfgFacts s.cfg) (hc : s.env.Closed)
    (ho : o < s.cfg.fifoCap) :
    Acts (onAppend s.cfg o (4 * ws.length)) s (appendWords ws o s).2 ∧
      (appendWords ws o s).1 = red s.cfg (o + 4 * ws.length) := by
  induction ws generalizing o s with
  | nil =>
    refine ⟨Acts.refl _ _ hc, ?_⟩
    rw [appendWords_nil, List.length_nil, Nat.mul_zero, Nat.add_zero, red_of_lt ho]
  | cons w ws ih =>
    have h1 := appendWord_acts o w s c hc ho
    have hno : nextOffset s.cfg o < s.cfg.fifoCap := red_lt c.cap_pos _
    obtain ⟨h2, h3⟩ := ih (nextOffset s.cfg o) (appendWord o w s).2 (h1.cfg ▸ c) h1.closed (h1.cfg ▸ hno)
    rw [appendWords_cons]
    constructor
    · refine (h1.mono ?_).trans (h2.mono ?_)
      · rintro x ⟨k, hk, rfl⟩
        exact ⟨k, by rw [List.length_cons]; omega, rfl⟩
      · rw [h1.cfg]
        rintro x ⟨k, hk, rfl⟩
        exact ⟨4 + k, by rw [List.length_cons]; omega, by rw [nextOffset, fifoAddr_next]⟩
    · rw [h3, h1.cfg, nextOffset, red_red_add, List.length_cons]
      congr 1
      omega

/-- Successful appends: the calls in order, and the bytes of every word that the later ones do not overwrite. -/
theorem appendWords_works (ws : List Word) (o : Nat) (s : State) (c : CfgFacts s.cfg) (hc : s.env.Closed)
    (he : s.err = .ok) (ho : o < s.cfg.fifoCap) (hw : s.env.works (6 * ws.length)) :
    (appendWords ws o s).2.err = .ok ∧
      (appendWords ws o s).2.env.wire = s.env.wire ++ appendTrace s.cfg o ws ∧
      (∀ (i : Nat) (w : Word), ws[i]? = some w → 4 * (ws.length - i) ≤ s.cfg.fifoCap → ∀ k < 4,
        (appendWords ws o s).2.env.mem.read (fifoAddr s.cfg o (4 * i + k)) = (leBytes 4 w.toNat)[k]?) ∧
      (ws ≠ [] → (appendWords ws o s).2.env.tx = [] ∧ (appendWords ws o s).2.env.txFailed = false) := by
  induction ws generalizing o s with
  | nil => exact ⟨he, by simp [appendWords_nil, appendTrace], by simp, fun h => absurd rfl h⟩
  | cons w ws ih =>
    rw [List.length_cons] at hw
    have h1 := appendWord_acts o w s c hc ho
    have hno : nextOffset s.cfg o < s.cfg.fifoCap := red_lt c.cap_pos _
    obtain ⟨-, e1, w1, p1, ⟨d, hd, q1⟩, t1, f1, -⟩ := writeWrapped_works o (leBytes 4 w.toNat)
      { s with ghost := fifoAppendHook s.cfg 4 s.ghost } c hc he ho (by rw [leBytes_length]; exact c.cap_ge)
      (fun k hk => hw k (by omega))
    rw [leBytes_length] at p1
    simp only [← appendWord_eq] at e1 w1 p1 q1 t1 f1
    obtain ⟨e2, w2, p2, t2⟩ := ih (nextOffset s.cfg o) (appendWord o w s).2 (h1.cfg ▸ c) h1.closed e1 (h1.cfg ▸ hno)
      (fun k hk => by rw [q1]; exact hw _ (by omega))
    have h2 := (appendWords_acts ws (nextOffset s.cfg o) (appendWord o w s).2 (h1.cfg ▸ c) h1.closed (h1.cfg ▸ hno)).1
    rw [h1.cfg] at w2 p2 h2
    rw [appendWords_cons]
    refine ⟨e2, by rw [w2, w1, appendTrace, List.append_assoc], fun i v hi hfit k hk => ?_, fun _ => ?_⟩
    · cases i with
      | zero =>
        rw [List.getElem?_cons_zero, Option.some.injEq] at hi
        subst hi
        rw [List.length_cons] at hfit
        rw [h2.mem.outside, show 4 * 0 + k = k by omega, p1 k hk]
        · rintro ⟨i, hi, hx⟩
          rw [nextOffset, fifoAddr_next] at hx
          have := fifoAddr_inj c (by omega) (by omega) hx
          omega
        · rw [h1.cfg]
          exact (window_not_ptr c (onAppend_window c ⟨_, Nat.lt_succ_self _, rfl⟩)).1
      | succ i =>
        rw [List.getElem?_cons_succ] at hi
        rw [List.length_cons] at hfit
        have := p2 i v hi (by omega) k hk
        rw [nextOffset, fifoAddr_next] at this
        rw [show 4 * (i + 1) + k = 4 + (4 * i + k) by omega]
        exact this
    · by_cases hws : ws = []
      · subst hws
        exact ⟨t1, f1⟩
      · exact t2 hws

end Sys2Proof.Machine
end

