-- ==== Sys2Proof/Laws/Exec.lean ====
section
/-! SUPPORT. Everything an operation can do, said once: `exec_cases`, `exec_fault` and `exec_errclr` together cover every
operation in every state. -/

namespace Sys2Proof.Machine

/-! ## Statuses -/

theorem Err.status_eq_ok {e : Err} : e.status = .ok ↔ e = .ok := by cases e <;> simp [Err.status]

theorem Err.status_eq_err {e : Err} {r : Reason} : e.status = .err r ↔ e = .failed r := by cases e <;> simp [Err.status]

theorem Err.status_ne_timeout (e : Err) : e.status ≠ .timeout := by cases e <;> simp [Err.status]

/-! ## Waits -/

/-- The operations that poll (43_fifo_sync.md). -/
def isWait : Instr → Bool
  | .fifoWaitEmpty _ => true
  | .fifoWaitOffset _ _ => true
  | .rd8 _ => false
  | .rd16 _ => false
  | .rd32 _ => false
  | .wr8 _ _ => false
  | .wr16 _ _ => false
  | .wr32 _ _ => false
  | .hostcmd _ => false
  | .errq => false
  | .errclr => false
  | .dlappend _ _ => false
  | .fifoWord _ _ => false
  | .fifoCmd _ _ _ => false
  | .fifoText _ _ _ _ _ _ => false
  | .fifoPublish _ => false

/-- How a pass of a wait ends, from the state `s1` after its polls: it returns what the error register says, or, with no error,
it has read the clock and returns `TIMEOUT` or goes on. -/
inductive PassEnds (s1 : State) : State → Prop
  | returned : PassEnds s1 (s1.complete s1.err.status .absent)
  | timedOut : s1.err = .ok → PassEnds s1 ({ s1 with env := s1.env.popTick }.complete .timeout .absent)
  | goesOn : s1.err = .ok → PassEnds s1 { s1 with env := s1.env.popTick }

theorem pollAgain_ends (deadline : Option Nat) (s : State) (h : s.err = .ok) : PassEnds s (pollAgain deadline s) := by
  unfold pollAgain
  dsimp only
  split_ifs
  · exact .timedOut h
  · exact .goesOn h

theorem pollPtr_status (reg : Nat) (s : State) : (pollPtr reg s).1.1 = (pollPtr reg s).2.err.status := doRead_status _ _ _

theorem pollPtr_acts (reg : Nat) (s : State) (hc : s.env.Closed) : Acts (fun _ => False) s (pollPtr reg s).2 :=
  doRead_acts _ _ _ hc

theorem waitOffsetPass_cases (expected : Nat) (deadline : Option Nat) (s : State) (hc : s.env.Closed) :
    ∃ s1, Acts (fun _ => False) s s1 ∧ PassEnds s1 (waitOffsetPass expected deadline s) := by
  refine ⟨(pollPtr s.cfg.regRP s).2, pollPtr_acts _ _ hc, ?_⟩
  have hs := pollPtr_status s.cfg.regRP s
  unfold waitOffsetPass
  dsimp only
  cases hp : (pollPtr s.cfg.regRP s).1.1 with
  | ok =>
    rw [hp] at hs
    dsimp only
    split_ifs
    · rw [hs]
      exact .returned
    · exact pollAgain_ends _ _ (Err.status_eq_ok.1 hs.symm)
  | err x =>
    rw [hp] at hs
    dsimp only
    rw [hs]
    exact .returned
  | timeout =>
    rw [hp] at hs
    exact absurd hs.symm (Err.status_ne_timeout _)

theorem waitEmptyPass_cases (deadline : Option Nat) (s : State) (hc : s.env.Closed) :
    ∃ s1, Acts (fun _ => False) s s1 ∧ PassEnds s1 (waitEmptyPass deadline s) := by
  have hs := pollPtr_status s.cfg.regRP s
  have ha := pollPtr_acts s.cfg.regRP s hc
  unfold waitEmptyPass
  dsimp only
  cases hp : (pollPtr s.cfg.regRP s).1.1 with
  | ok =>
    dsimp only
    have hs2 := pollPtr_status (pollPtr s.cfg.regRP s).2.cfg.regWP (pollPtr s.cfg.regRP s).2
    have ha2 := pollPtr_acts (pollPtr s.cfg.regRP s).2.cfg.regWP (pollPtr s.cfg.regRP s).2 ha.closed
    refine ⟨_, ha.trans ha2, ?_⟩
    cases hp2 : (pollPtr (pollPtr s.cfg.regRP s).2.cfg.regWP (pollPtr s.cfg.regRP s).2).1.1 with
    | ok =>
      rw [hp2] at hs2
      dsimp only
      split_ifs
      · rw [hs2]
        exact .returned
      · exact pollAgain_ends _ _ (Err.status_eq_ok.1 hs2.symm)
    | err x =>
      rw [hp2] at hs2
      dsimp only
      rw [hs2]
      exact .returned
    | timeout =>
      rw [hp2] at hs2
      exact absurd hs2.symm (Err.status_ne_timeout _)
  | err x =>
    rw [hp] at hs
    dsimp only
    refine ⟨_, ha, ?_⟩
    rw [hs]
    exact .returned
  | timeout =>
    rw [hp] at hs
    exact absurd hs.symm (Err.status_ne_timeout _)

/-! ## Every operation -/

/-- How an operation ends, from the state `s1` after its accesses. -/
inductive OpEnds (i : Instr) (s s1 : State) : State → Prop
  /-- `ERRQ` returns `OK` and the error register. -/
  | queried : i = .errq → s1 = s → OpEnds i s s1 (s.complete .ok (.error s.err))
  /-- An operation returns what the error register says, with its value; an append has written `WOFF`. -/
  | returned (o : Nat) (v : Value) : i ≠ .errq → (appendsToFifo i = false → o = s.woff) → (0 < s.cfg.fifoCap → s.woff < s.cfg.fifoCap → o < s.cfg.fifoCap) →
      OpEnds i s s1 ({ s1 with woff := o }.complete s1.err.status v)
  /-- A wait has read the clock. -/
  | timedOut : isWait i = true → s1.err = .ok →
      OpEnds i s s1 ({ s1 with env := s1.env.popTick }.complete .timeout .absent)
  | goesOn : isWait i = true → s1.err = .ok → OpEnds i s s1 { s1 with env := s1.env.popTick }

/-- A fault check passes exactly where the last byte of the transfer is a device byte. -/
theorem addrFault_eq_none_iff {a n : Nat} (hn : 0 < n) : addrFault a n = none ↔ a + n ≤ addrLimit := by
  unfold addrFault
  split_ifs <;> simp <;> omega

theorem addr_lt_of_fault {a n : Nat} (hn : 0 < n) (h : addrFault a n = none) : a < addrLimit := by
  have := (addrFault_eq_none_iff hn).1 h
  omega

theorem checked_of_none {f : Option FaultRec} {s t : State} (h : f = none) : checked f s t = .next t := by
  subst h
  rfl

theorem OpEnds.plain {i : Instr} {s s1 : State} (v : Value) (hi : i ≠ .errq) (hw : s1.woff = s.woff) :
    OpEnds i s s1 (s1.complete s1.err.status v) := by
  have := OpEnds.returned (i := i) (s := s) (s1 := s1) s.woff v hi (fun _ => rfl) (fun _ h => h)
  rw [← hw] at this
  exact this

theorem OpEnds.of_pass {i : Instr} {s s1 t : State} (h : PassEnds s1 t) (hi : isWait i = true) (hq : i ≠ .errq)
    (hw : s1.woff = s.woff) : OpEnds i s s1 t := by
  cases h with
  | returned => exact .plain _ hq hw
  | timedOut h => exact .timedOut hi h
  | goesOn h => exact .goesOn hi h

theorem unlessPoisoned_cases {s t : State} (hc : s.env.Closed)
    (h : ∃ s1, Acts (fun _ => False) s s1 ∧ PassEnds s1 t) :
    ∃ s1, Acts (fun _ => False) s s1 ∧ PassEnds s1 (unlessPoisoned s t) := by
  unfold unlessPoisoned
  cases he : s.err with
  | ok => exact h
  | failed r =>
    refine ⟨s, Acts.refl _ _ hc, ?_⟩
    have := PassEnds.returned (s1 := s)
    rw [he] at this
    exact this

theorem appendAll_cases (i : Instr) (off : Option Word) (ws : List Word) (s : State) (c : CfgFacts s.cfg)
    (hc : s.env.Closed) (hi : i ≠ .errq) (ha : appendsToFifo i = true) :
    Acts (onAppend s.cfg (startOffset off s) (4 * ws.length)) s (appendWords ws (startOffset off s) s).2 ∧
      OpEnds i s (appendWords ws (startOffset off s) s).2 (appendAll off ws s) := by
  obtain ⟨h1, h2⟩ := appendWords_acts ws (startOffset off s) s c hc (red_lt c.cap_pos _)
  refine ⟨h1, ?_⟩
  exact .returned _ _ hi (fun h => by rw [ha] at h; exact absurd h (by simp)) fun h _ => by
    rw [h2]
    exact red_lt h _

/-- Everything an operation other than `ERRCLR` can do where it raises no fault. -/
theorem exec_cases (i : Instr) (s : State) (c : CfgFacts s.cfg) (hc : s.env.Closed) (hr : raisedBy i s = none)
    (hi : i ≠ .errclr) :
    ∃ s1 t, exec i s = .next t ∧ Acts (mayStore i s) s s1 ∧ OpEnds i s s1 t := by
  have read : ∀ (n : Nat) (a : Word) (i : Instr), 0 < n → i ≠ .errq → addrFault a.toNat n = none →
      ∃ s1 t, readOp n a s = .next t ∧ Acts (fun _ => False) s s1 ∧ OpEnds i s s1 t := by
    intro n a i hn hq h
    have ha := doRead_acts a.toNat n s hc
    refine ⟨_, _, checked_of_none h, ha, ?_⟩
    unfold returnRead
    rw [doRead_status]
    exact .plain _ hq ha.woff
  have write : ∀ (n : Nat) (a : Word) (d : Nat) (i : Instr), 0 < n → i ≠ .errq → addrFault a.toNat n = none →
      ∃ s1 t, checked (addrFault a.toNat n) s (returnStatus (doWrite a.toNat n d s)) = .next t ∧
        Acts (within a.toNat n) s s1 ∧ OpEnds i s s1 t := by
    intro n a d i hn hq h
    have ha := doWrite_acts a.toNat n d s hc (addr_lt_of_fault hn h)
    refine ⟨_, _, checked_of_none h, ha, ?_⟩
    unfold returnStatus
    rw [doWrite_status]
    exact .plain _ hq ha.woff
  cases i with
  | rd8 a => exact read 1 a _ (by omega) (by simp) hr
  | rd16 a => exact read 2 a _ (by omega) (by simp) hr
  | rd32 a => exact read 4 a _ (by omega) (by simp) hr
  | wr8 a d => exact write 1 a d.toNat _ (by omega) (by simp) hr
  | wr16 a d => exact write 2 a d.toNat _ (by omega) (by simp) hr
  | wr32 a d => exact write 4 a d.toNat _ (by omega) (by simp) hr
  | hostcmd code =>
    have ha := doCommand_acts (code.setWidth 8) s hc
    have hst : (doCommand (code.setWidth 8) s).1 = (doCommand (code.setWidth 8) s).2.err.status := by
      cases h : s.err with
      | ok => simp only [doCommand, h]; rw [accessed_eq _ _ h]
      | failed r => simp only [doCommand, h, Err.status]
    refine ⟨_, _, rfl, ha, ?_⟩
    unfold returnStatus
    rw [hst]
    exact .plain _ (by simp) ha.woff
  | errq => exact ⟨s, _, rfl, Acts.refl _ _ hc, .queried rfl rfl⟩
  | errclr => exact absurd rfl hi
  | dlappend off word =>
    have h1 : Acts (within (dlAddr s.cfg off.toNat) 4) s { s with ghost := dlOverflowCheck s.cfg off.toNat s.ghost } :=
      .of_ghost _ hc (fun h hx => dlOverflowCheck_haz _ _ _ _ hx) fun g => dlOverflowCheck_ok _ _ g
    have h2 := doWrite_acts (dlAddr s.cfg off.toNat) 4 word.toNat
      { s with ghost := dlOverflowCheck s.cfg off.toNat s.ghost } hc (addr_lt_of_fault (by omega) hr)
    have ha := h1.trans h2
    refine ⟨_, _, checked_of_none hr, ha, ?_⟩
    rw [doWrite_status]
    exact .plain _ (by simp) ha.woff
  | fifoWord off word =>
    have ha := appendWord_acts (startOffset off s) word s c hc (red_lt c.cap_pos _)
    refine ⟨_, _, rfl, ha, ?_⟩
    unfold returnAppend
    rw [appendWord_status]
    exact .returned _ _ (by simp) (by simp [appendsToFifo]) fun h _ => red_lt h _
  | fifoCmd off opcode words =>
    obtain ⟨h1, h2⟩ := appendAll_cases (.fifoCmd off opcode words) off (opcode :: words) s c hc (by simp) rfl
    refine ⟨_, _, rfl, h1.mono ?_, h2⟩
    rintro x ⟨k, hk, hx⟩
    exact ⟨k, by rw [List.length_cons] at hk; omega, hx⟩
  | fifoText off x y font options text =>
    obtain ⟨h1, h2⟩ := appendAll_cases (.fifoText off x y font options text) off (textWords s.cfg x y font options text) s c
      hc (by simp) rfl
    exact ⟨_, _, checked_of_none hr, h1, h2⟩
  | fifoPublish v =>
    have hp := c.wp_in
    have ha := doWrite_acts s.cfg.regWP (ptrBytes s.cfg) (operandOr s.woff v) s hc (by omega)
    refine ⟨_, _, checked_of_none hr, ha, ?_⟩
    unfold returnStatus
    rw [doWrite_status]
    exact .plain _ (by simp) ha.woff
  | fifoWaitEmpty deadline =>
    obtain ⟨s1, h1, h2⟩ := unlessPoisoned_cases hc (waitEmptyPass_cases deadline s hc)
    exact ⟨s1, _, rfl, h1, .of_pass h2 rfl (by simp) h1.woff⟩
  | fifoWaitOffset expected deadline =>
    obtain ⟨s1, h1, h2⟩ := unlessPoisoned_cases hc (waitOffsetPass_cases (operandOr s.woff expected) deadline s hc)
    exact ⟨s1, _, checked_of_none hr, h1, .of_pass h2 rfl (by simp) h1.woff⟩

/-- A fault check that fails ends the operation at once (60_exceptions.md R206). -/
theorem exec_raises (i : Instr) (s : State) (f : FaultRec) (h : raisedBy i s = some f) :
    exec i s = .next (s.raiseFault f) := by
  cases i <;> simp only [raisedBy, reduceCtorEq] at h <;>
    simp only [exec, execRd8, execRd16, execRd32, execWr8, execWr16, execWr32, execDlappend, execFifoText, execFifoPublish,
      execFifoWaitOffset, readOp, writeOp, checked, h]

/-- What the end of an operation leaves as its accesses left it. -/
theorem OpEnds.same {i : Instr} {s s1 t : State} (h : OpEnds i s s1 t) :
    t.cfg = s1.cfg ∧ t.err = s1.err ∧ t.fault = s1.fault ∧ t.ghost = s1.ghost ∧ t.env.mem = s1.env.mem ∧
      t.env.wire = s1.env.wire ∧ t.env.tx = s1.env.tx ∧ t.env.txFailed = s1.env.txFailed ∧
      t.env.reads = s1.env.reads := by
  cases h with
  | queried _ h =>
    subst h
    exact ⟨rfl, rfl, rfl, rfl, rfl, rfl, rfl, rfl, rfl⟩
  | returned o v => exact ⟨rfl, rfl, rfl, rfl, rfl, rfl, rfl, rfl, rfl⟩
  | timedOut => exact ⟨rfl, rfl, rfl, rfl, rfl, rfl, rfl, rfl, rfl⟩
  | goesOn => exact ⟨rfl, rfl, rfl, rfl, rfl, rfl, rfl, rfl, rfl⟩

/-- Every next state of `exec` is one of three: a fault was raised, `ERRCLR` cleared the error register, or the operation made
its accesses and ended. -/
theorem exec_next {i : Instr} {s t : State} (c : CfgFacts s.cfg) (hc : s.env.Closed) (h : exec i s = .next t) :
    (∃ f, raisedBy i s = some f ∧ t = s.raiseFault f) ∨
      (i = .errclr ∧ t = s.clearErr.complete .ok .absent) ∨
      ∃ s1, raisedBy i s = none ∧ i ≠ .errclr ∧ Acts (mayStore i s) s s1 ∧ OpEnds i s s1 t := by
  cases hr : raisedBy i s with
  | some f =>
    rw [exec_raises i s f hr] at h
    cases h
    exact .inl ⟨f, rfl, rfl⟩
  | none =>
    by_cases hi : i = .errclr
    · subst hi
      cases h
      exact .inr (.inl ⟨rfl, rfl⟩)
    · obtain ⟨s1, t', h1, h2, h3⟩ := exec_cases i s c hc hr hi
      rw [h1] at h
      cases h
      exact .inr (.inr ⟨s1, rfl, hi, h2, h3⟩)

theorem exec_errclr (s : State) : exec .errclr s = .next (s.clearErr.complete .ok .absent) := rfl

end Sys2Proof.Machine
end

