-- ==== Sys2Proof/Laws/Operands.lean ====
section
/-! SUPPORT. The laws of operand forms: address checks (20_memory.md R71), words and their bytes, and the text payload
(30_encoding.md R115). -/

namespace Sys2Proof.Machine

/-- Byte `k` of a word. -/
theorem leBytes_word (w : Word) (k : Nat) (hk : k < 4) : (leBytes 4 w.toNat)[k]? = some (w.extractLsb' (8 * k) 8) := by
  rw [leBytes_getElem? _ _ _ hk]
  congr 1
  apply BitVec.eq_of_toNat_eq
  rw [BitVec.extractLsb'_toNat, BitVec.toNat_ofNat, Nat.shiftRight_eq_div_pow, show (256:Nat) = 2^8 by norm_num, ← pow_mul]

theorem textBytes_length (t : List Byte) : (textBytes t).length = 4 * (t.length / 4 + 1) := by
  simp [textBytes]; omega

/-- Bytes in groups of four and their words, byte for byte (30_encoding.md R115). -/
theorem wordsOfBytes_spec : ∀ (n : Nat) (bs : List Byte), bs.length = 4 * n → (wordsOfBytes bs).length = n ∧
    ∀ g k, g < n → k < 4 → ((wordsOfBytes bs)[g]?.map fun w => w.extractLsb' (8 * k) 8) = bs[4 * g + k]? := by
  intro n
  induction n with
  | zero => intro bs h; simp at h; subst h; simp [wordsOfBytes]
  | succ n ih =>
    intro bs h
    match bs, h with
    | b0 :: b1 :: b2 :: b3 :: rest, h =>
      obtain ⟨h1, h2⟩ := ih rest (by simp at h; omega)
      refine ⟨by simp [wordsOfBytes, h1], fun g k hg hk => ?_⟩
      cases g with
      | zero =>
        simp only [wordsOfBytes, List.getElem?_cons_zero, Option.map_some]
        rw [← leBytes_word _ k hk, BitVec.toNat_ofNat, Nat.mod_eq_of_lt, leBytes_fromLE_of_length (n := 4) (bs :=
            [b0,b1,b2,b3]) rfl]
        · simp only [Nat.mul_zero, Nat.zero_add]
          rw [show b0 :: b1 :: b2 :: b3 :: rest = [b0,b1,b2,b3] ++ rest from rfl, List.getElem?_append_left (by simpa using hk)]
        · have := fromLE_lt [b0,b1,b2,b3]; simpa using this
      | succ g =>
        rw [wordsOfBytes, List.getElem?_cons_succ, h2 g k (by omega) hk, show 4 * (g+1) + k = 4 * g + k + 4 by omega]
        simp

theorem word_toNat_ofNat {a : Nat} (ha : a < 2^32) : (BitVec.ofNat 32 a).toNat = a :=
    by rw [BitVec.toNat_ofNat]; exact Nat.mod_eq_of_lt ha

theorem fromLE_lt_word {got : List Byte} (h : got.length = 4) : fromLE got < 2^32 := by
  have := fromLE_lt got; rw [h] at this; exact this

theorem addrFault_some {a n : Nat} (h : 2^22 ≤ a + n - 1) : addrFault a n = some (.addrRange a n) := by
  unfold addrFault; rw [if_pos]; exact h

theorem addrFault_none {a n : Nat} (h : a + n - 1 < 2^22) : addrFault a n = none := by
  unfold addrFault; rw [if_neg]; simp only [addrLimit]; omega

/-- Two regions are disjoint where no address lies in both. -/
theorem regionsDisjoint_iff (a n b m : Nat) :
    disjoint (a, n) (b, m) = true ↔ ∀ x, ¬(within a n x ∧ within b m x) := by
  simp only [disjoint, Bool.or_eq_true, decide_eq_true_eq, within]
  constructor
  · intro h x; omega
  · intro h
    by_contra hc
    exact h (max a b) (by omega)

end Sys2Proof.Machine
end

