-- ==== Sys2Proof/Laws/Step.lean ====
section
/-! SUPPORT. What each shape of operation and each step does, in the form later proofs cite: the meaning an operation runs, what its
accesses leave, and that the invariant is kept. -/

namespace Sys2Proof.Machine

theorem readLE_isSome_mono {m m' : Memory} (h : ∀ x, (m.read x).isSome → (m'.read x).isSome) (a n : Nat)
    (hs : (m.readLE a n).isSome) : (m'.readLE a n).isSome := by
  rw [Memory.readLE_isSome_iff] at *
  exact fun k hk => h _ (hs k hk)

/-- The ghost part of the invariant. -/
theorem State.Inv.ghostOk {s : State} (h : s.Inv) : GhostOk s.cfg s.ghost := ⟨h.pubOff_lt, h.lastRP_lt, h.dirty_wf⟩

/-- An access that returns. -/
theorem Acts.returns {P} {s s1 : State} (ha : Acts P s s1) (st : Status) (v : Value) :
    s.Returns (s1.complete st v) st v :=
  ⟨by simp [State.complete, ha.port], by simp [State.complete, ha.port], by simp [State.complete, ha.reqIdx], ha.cfg, ha.fault⟩

/-- An access that returns after an offset or a clock reading is written. -/
theorem Acts.returns_with {P} {s s1 : State} (ha : Acts P s s1) (o : Nat) (g : Env) (st : Status) (v : Value) :
    s.Returns ({ s1 with woff := o, env := g }.complete st v) st v :=
  ⟨by simp [State.complete, ha.port], by simp [State.complete, ha.port], by simp [State.complete, ha.reqIdx], ha.cfg, ha.fault⟩

/-- Accesses keep the invariant. -/
theorem Acts.inv {s s1 : State} {P} (hi : s.Inv) (hA : Acts P s s1) : s1.Inv := by
  have hg := hA.ghost (State.Inv.ghostOk hi)
  refine ⟨by rw [hA.cfg]; exact hi.configured, by rw [hA.cfg, hA.woff]; exact hi.woff_lt,
      by rw [hA.cfg]; exact hg.pubOff_lt, by rw [hA.cfg]; exact hg.lastRP_lt,
    by rw [hA.cfg]; exact hg.dirty_wf, hA.mem.wf hi.mem_wf, ?_, ?_, hA.closed,
    by rw [hA.port, hA.reqIdx]; exact hi.one_result_each⟩
  · unfold State.rp; rw [hA.cfg]; exact readLE_isSome_mono hA.mem.written _ _ hi.rp_written
  · unfold State.wp; rw [hA.cfg]; exact readLE_isSome_mono hA.mem.written _ _ hi.wp_written

/-- Raising a fault changes `FAULT` alone. -/
theorem raiseFault_same (f : FaultRec) (s : State) : (s.raiseFault f).err = s.err ∧ (s.raiseFault f).woff = s.woff ∧
    (s.raiseFault f).ghost = s.ghost ∧ (s.raiseFault f).env = s.env ∧ (s.raiseFault f).port = s.port ∧
    (s.raiseFault f).cfg = s.cfg ∧ (s.raiseFault f).reqIdx = s.reqIdx := by
  unfold State.raiseFault
  cases s.fault <;> exact ⟨rfl, rfl, rfl, rfl, rfl, rfl, rfl⟩

/-- Every operation keeps the invariant. -/
theorem exec_inv {i : Instr} {s t : State} (h : s.Inv) (he : exec i s = .next t) : t.Inv := by
  rcases exec_next (cfgFacts h.configured) h.tx_closed he with ⟨f, -, rfl⟩ | ⟨-, rfl⟩ | ⟨s1, -, -, ha, ho⟩
  · unfold State.raiseFault
    cases s.fault with
    | none => exact ⟨h.configured, h.woff_lt, h.pubOff_lt, h.lastRP_lt, h.dirty_wf, h.mem_wf, h.rp_written, h.wp_written,
        h.tx_closed, h.one_result_each⟩
    | some f => exact h
  · exact ⟨h.configured, h.woff_lt, h.pubOff_lt, h.lastRP_lt, h.dirty_wf, h.mem_wf, h.rp_written, h.wp_written,
      h.tx_closed, by simp [State.complete, State.clearErr, h.one_result_each]⟩
  · obtain ⟨e1, e2, e3, e4, e5, e6, e7, e8, e9⟩ := ho.same
    have hg := ha.ghost (State.Inv.ghostOk h)
    have hcf : t.cfg = s.cfg := e1.trans ha.cfg
    have hw : t.woff < s.cfg.fifoCap := by
      cases ho with
      | queried _ _ => exact h.woff_lt
      | returned o v _ _ h3 => exact h3 (by have := h.woff_lt; omega) h.woff_lt
      | timedOut => exact ha.woff ▸ h.woff_lt
      | goesOn => exact ha.woff ▸ h.woff_lt
    refine ⟨by rw [hcf]; exact h.configured, by rw [hcf]; exact hw, by rw [hcf, e4]; exact hg.pubOff_lt,
      by rw [hcf, e4]; exact hg.lastRP_lt, by rw [hcf, e4]; exact hg.dirty_wf, by rw [e5]; exact ha.mem.wf h.mem_wf, ?_,
          ?_, ?_, ?_⟩
    · unfold State.rp; rw [e5, hcf]; exact readLE_isSome_mono ha.mem.written _ _ h.rp_written
    · unfold State.wp; rw [e5, hcf]; exact readLE_isSome_mono ha.mem.written _ _ h.wp_written
    · rw [e7, e8]; exact ha.closed
    · have h1 := h.one_result_each
      have h2 := ha.port
      have h3 := ha.reqIdx
      cases ho <;> simp [State.complete, h2, h3, h1]

/-- An operation that raises no fault completes and leaves `FAULT`. -/
theorem exec_next_fault (i : Instr) (s : State) (hi : s.Inv) (h : raisedBy i s = none) : ∃ t, exec i s = .next t ∧
    t.fault = s.fault := by
  by_cases hc : i = .errclr
  · subst hc; exact ⟨_, rfl, rfl⟩
  · obtain ⟨s1, t, h1, h2, h3⟩ := exec_cases i s (cfgFacts hi.configured) hi.tx_closed h hc
    refine ⟨t, h1, ?_⟩
    cases h3 with
    | queried _ h => rfl
    | returned o v => exact h2.fault
    | timedOut => exact h2.fault
    | goesOn => exact h2.fault

/-- Everything the consumer's turn at the end of a step can do. -/
theorem between_frame (s : State) :
    ∃ m rd, s.between =
        { s with
          env := { s.env with mem := m, reads := rd, moves := s.env.moves.tail, moveNo := s.env.moveNo + 1 } } ∧
      s.env.reads.Grows rd ∧ Drift s.cfg s.env.mem m := by
  obtain ⟨m, rd, h, hg, hd⟩ := s.env.gap_frame s.cfg s.ghost.haz.any
  exact ⟨m, rd, by rw [State.between, h], hg, hd⟩

/-- The consumer's turn keeps the invariant. -/
theorem between_inv {s : State} (h : s.Inv) : s.between.Inv := by
  obtain ⟨m, rd, hb, -, hd⟩ := between_frame s
  rw [hb]
  exact ⟨h.configured, h.woff_lt, h.pubOff_lt, h.lastRP_lt, h.dirty_wf, hd.wf h.mem_wf,
    readLE_isSome_mono hd.written _ _ h.rp_written, readLE_isSome_mono hd.written _ _ h.wp_written, h.tx_closed,
    h.one_result_each⟩

/-- What the consumer's turn leaves to the transport and the clock. -/
theorem between_kept (s : State) : s.between.env.clock = s.env.clock ∧ s.between.env.wire = s.env.wire ∧
    (∀ k, s.between.env.peekCall k = s.env.peekCall k) ∧ ∀ k, s.between.env.peekTick k = s.env.peekTick k := by
  obtain ⟨m, rd, hb, -⟩ := between_frame s
  rw [hb]
  exact ⟨rfl, rfl, fun _ => rfl, fun _ => rfl⟩

/-- A step that goes on is an operation or nothing, and then the consumer's turn. -/
theorem step_next {s t : State} (h : step s = .next t) :
    (∃ i u, exec i s = .next u ∧ s.fault = none ∧ t = u.between) ∨ t = s.between := by
  unfold step at h
  cases hf : fetch s with
  | none =>
    rw [hf] at h
    simp only [idle] at h
    cases hfa : s.fault with
    | some f => rw [hfa] at h; simp at h
    | none =>
      rw [hfa] at h
      simp only [Host.Outcome.next.injEq] at h
      exact .inr h.symm
  | some r =>
    rw [hf] at h
    simp only at h
    cases hd : decode r with
    | error e => rw [hd] at h; simp at h
    | ok i =>
      rw [hd] at h
      simp only at h
      cases hfa : s.fault with
      | some f => rw [hfa] at h; simp at h
      | none =>
        rw [hfa] at h
        simp only at h
        cases he : exec i s with
        | next u => rw [he] at h; cases h; exact .inl ⟨i, u, he, rfl, rfl⟩
        | fault f => rw [he] at h; cases h
        | refused x => rw [he] at h; cases h

/-- A step runs the decoded operation, and then the consumer has its turn. -/
theorem step_of_decode {s : State} {r : Request} {i : Instr} (h : s.port.pending.head? = some r) (hd : decode r = .ok i)
    (hf : s.fault = none) : step s = thenConsumer (exec i s) := by
  simp [step, fetch, h, hd, hf]

theorem isWait_iff {i : Instr} (h : isWait i = true) : (∃ d, i = .fifoWaitEmpty d) ∨ ∃ e d, i = .fifoWaitOffset e d := by
  cases i <;> simp [isWait] at h ⊢

theorem IsRead.pos {i : Instr} {a n : Nat} (h : IsRead i a n) : 0 < n := by cases h <;> omega

/-- A read that does not fault. -/
theorem exec_read {i : Instr} {a n : Nat} (h : IsRead i a n) (s : State) (hb : a + n ≤ 2 ^ 22) :
    exec i s = .next (returnRead (doRead a n s)) := by
  cases h <;> exact checked_of_none ((addrFault_eq_none_iff (by omega)).2 hb)

theorem IsWrite.pos {i : Instr} {a n v : Nat} (h : IsWrite i a n v) : 0 < n := by cases h <;> omega

/-- A write that does not fault. -/
theorem exec_write {i : Instr} {a n v : Nat} (h : IsWrite i a n v) (s : State) (hb : a + n ≤ 2 ^ 22) :
    exec i s = .next (returnStatus (doWrite a n v s)) := by
  cases h <;> exact checked_of_none ((addrFault_eq_none_iff (by omega)).2 hb)

/-- Every operation of one write transaction is `doWrite` from a state that may differ in its ghost. -/
theorem exec_oneWrite {i : Instr} {a n v : Nat} {val : Value} {s : State} (h : OneWrite s i a n v val)
    (hr : raisedBy i s = none) :
    ∃ g, exec i s = .next ((doWrite a n v { s with ghost := g }).2.complete (doWrite a n v { s with ghost := g }).1 val) := by
  cases h with
  | write h => cases h <;> exact ⟨s.ghost, checked_of_none hr⟩
  | dlappend off w => exact ⟨_, checked_of_none hr⟩
  | publish v => exact ⟨s.ghost, checked_of_none hr⟩

/-- The one write of an operation that does not fault lies inside the device. -/
theorem OneWrite.bounds {i : Instr} {a n v : Nat} {val : Value} {s : State} (c : CfgFacts s.cfg)
    (h : OneWrite s i a n v val) (hr : raisedBy i s = none) :
   0 < n ∧ a + n ≤ addrLimit := by
  cases h with
  | write h => cases h <;> exact ⟨by omega, (addrFault_eq_none_iff (by omega)).1 hr⟩
  | dlappend off w => exact ⟨by omega, (addrFault_eq_none_iff (by omega)).1 hr⟩
  | publish v => 
    have := c.ptr
    simp only [ptrBytes, this]
    exact ⟨by omega, c.wp_in⟩

theorem errOf_status (o : Option Reason) : (errOf o).status = statusOf o := by cases o <;> rfl

theorem CfgFacts.regRP_toNat {s : State} (c : CfgFacts s.cfg) : (BitVec.ofNat 32 s.cfg.regRP).toNat = s.cfg.regRP := by
  have := c.rp_in
  exact word_toNat_ofNat (by simp only [addrLimit] at this; omega)

theorem CfgFacts.regWP_toNat {s : State} (c : CfgFacts s.cfg) : (BitVec.ofNat 32 s.cfg.regWP).toNat = s.cfg.regWP := by
  rw [BitVec.toNat_ofNat]; have := c.wp_in; exact Nat.mod_eq_of_lt (by simp only [addrLimit] at this; omega)

/-- Every append that does not fault is `appendAll`. -/
theorem exec_append {i : Instr} {off : Option Word} {ws : List Word} {s : State} (h : IsAppend s.cfg i off ws)
    (hr : raisedBy i s = none) :
    exec i s = .next (appendAll off ws s) := by
  cases h with
  | word off w =>
    simp only [exec, execFifoWord, appendAll, appendWords_cons, appendWords_nil]
    rw [appendWord_status]
  | cmd off c ws => rfl
  | text off x y f o t => exact checked_of_none hr

theorem IsAppend.ne_nil {cfg : Cfg} {i : Instr} {off : Option Word} {ws : List Word} (h : IsAppend cfg i off ws) : ws ≠ [] := by
  cases h <;> simp [textWords]

/-- What every append does, whatever the error register and the transport say. -/
theorem appendAll_facts (off : Option Word) (ws : List Word) (s : State) (hi : s.Inv) :
    Acts (fun x => ∃ k < 4 * ws.length, x = fifoAddr s.cfg (startOffset off s) k) s (appendWords ws (startOffset off s) s).2 ∧
    s.Returns (appendAll off ws s) (appendWords ws (startOffset off s) s).2.err.status (.offset (red s.cfg
        (startOffset off s + 4 * ws.length))) ∧
    (appendAll off ws s).woff = red s.cfg (startOffset off s + 4 * ws.length) ∧
        (appendAll off ws s).err = (appendWords ws (startOffset off s) s).2.err ∧
    (appendAll off ws s).env = (appendWords ws (startOffset off s) s).2.env ∧
        (appendAll off ws s).ghost = (appendWords ws (startOffset off s) s).2.ghost := by
  have c := cfgFacts hi.configured
  obtain ⟨h1, h2⟩ := appendWords_acts ws (startOffset off s) s c hi.tx_closed (red_lt c.cap_pos _)
  refine ⟨h1, ?_, h2, rfl, rfl, rfl⟩
  unfold appendAll returnAppend
  dsimp only
  rw [h2]
  exact Acts.returns_with h1 _ _ _ _

theorem exec_publish {s : State} (v : Option Word) (hv : operandOr s.woff v < s.cfg.fifoCap) :
    exec (.fifoPublish v) s = .next (returnStatus (doWrite s.cfg.regWP (ptrBytes s.cfg) (operandOr s.woff v) s)) :=
  checked_of_none (by simp [offsetFault, Nat.not_le.2 hv])

theorem exec_waitOffset {s : State} (e : Option Word) (d : Option Nat) (he : s.err = .ok)
    (h : operandOr s.woff e < s.cfg.fifoCap) :
    exec (.fifoWaitOffset e d) s = .next (waitOffsetPass (operandOr s.woff e) d s) := by
  have : exec (.fifoWaitOffset e d) s = .next (unlessPoisoned s (waitOffsetPass (operandOr s.woff e) d s)) :=
      checked_of_none (by simp [offsetFault, Nat.not_le.2 h])
  rw [this]; simp only [unlessPoisoned, he]

theorem exec_waitEmpty {s : State} (d : Option Nat) (he : s.err = .ok) :
    exec (.fifoWaitEmpty d) s = .next (waitEmptyPass d s) := by
  simp only [exec, execFifoWaitEmpty, unlessPoisoned, he]

/-- A transport that works for `n` calls works for the rest of them after some. -/
theorem Env.works_shift {e e' : Env} {n k d : Nat} (h : e.works n) (hp : ∀ j, e'.peekCall j = e.peekCall (j + d))
    (hk : k + d ≤ n) : e'.works k :=
  fun j hj => by rw [hp]; exact h _ (by omega)

/-- A call that, if it is a payload write, carries a whole word. -/
def WholeWord (c : TxCall) : Prop := ∀ bs e, c = .write bs e → (∃ a : DevAddr, bs = hdr a .write) ∨ bs.length = 4

theorem doWrite_wholeWords (addr v : Nat) (s : State) (hc : s.env.Closed) :
    ∃ l, (doWrite addr 4 v s).2.env.wire = s.env.wire ++ l ∧ ∀ c ∈ l, WholeWord c := by
  cases h : s.err with
  | failed r => exact ⟨[], by rw [doWrite_poisoned _ _ _ _ r h]; simp, by simp⟩
  | ok =>
    obtain ⟨m, j, l, hd, hj, ht, hm, hjn, hw, htr⟩ :=
      sendWrite_cases s.cfg _ (BitVec.ofNat 22 addr) (leBytes 4 v) s.env (openTx_of_closed hc)
    refine ⟨l, by rw [doWrite_eq _ _ _ _ h]; exact hw, ?_⟩
    have h4 : (leBytes 4 v).length = 4 := leBytes_length 4 v
    generalize (sendWrite s.cfg (ghostWrite s.cfg addr 4 v s.ghost).haz.any (BitVec.ofNat 22 addr) (leBytes 4 v) s.env).1 = q at htr
    clear hd hj ht hm hjn hw
    generalize leBytes 4 v = p at *
    cases htr <;> intro c hc' bs e hce <;> subst hce <;> simp at hc' <;>
      rcases hc' with ⟨rfl, rfl⟩ | ⟨rfl, rfl⟩ <;> first | exact .inl ⟨_, rfl⟩ | exact .inr h4

theorem appendWords_wholeWords (ws : List Word) (o : Nat) (s : State) (c : CfgFacts s.cfg) (hc : s.env.Closed)
    (ho : o < s.cfg.fifoCap) (h4 : 4 ∣ o) :
    ∃ l, (appendWords ws o s).2.env.wire = s.env.wire ++ l ∧ ∀ c ∈ l, WholeWord c := by
  induction ws generalizing o s with
  | nil => exact ⟨[], by simp [appendWords_nil], by simp⟩
  | cons w ws ih =>
    have hA := appendWord_acts o w s c hc ho
    have h4c := CfgFacts.four_dvd c
    have hl : tailLength s.cfg o 4 = 4 := by
      simp only [tailLength]; omega
    have hw : ∃ l, (appendWord o w s).2.env.wire = s.env.wire ++ l ∧ ∀ c ∈ l, WholeWord c := by
      obtain ⟨l, h1, h2⟩ := doWrite_wholeWords (s.cfg.fifoBase + o) (fromLE ((leBytes 4 w.toNat).take 4))
        { s with ghost := fifoAppendHook s.cfg 4 s.ghost } hc
      refine ⟨l, ?_, h2⟩
      rw [appendWord_eq, writeWrapped]
      simp only [leBytes_length, hl, lt_irrefl, if_false]
      exact h1
    obtain ⟨l1, h1, h2⟩ := hw
    have hn4 : 4 ∣ nextOffset s.cfg o := by
      unfold nextOffset red
      exact (Nat.dvd_mod_iff h4c).2 (by omega)
    obtain ⟨l2, h3, h4⟩ := ih (nextOffset s.cfg o) (appendWord o w s).2 (hA.cfg ▸ c) hA.closed
        (by rw [hA.cfg]; exact red_lt c.cap_pos _) hn4
    refine ⟨l1 ++ l2, by rw [appendWords_cons, h3, h1, List.append_assoc], fun c hc' => ?_⟩
    rcases List.mem_append.1 hc' with h | h
    · exact h2 c h
    · exact h4 c h

end Sys2Proof.Machine
end

