-- ==== Sys2Proof/Laws/Hazards.lean ====
section
/-! SUPPORT. Exactly what the hazard bookkeeping records (70_reset_and_hazards.md R225 to R231). -/

namespace Sys2Proof.Machine

/-- Which offsets a write marks. -/
theorem ghostWindow_dirty (cfg : Cfg) (a n : Nat) (g : Ghost) (o : Nat) :
    o ∈ (ghostWindow cfg a n g).dirty ↔ o ∈ g.dirty ∨ (onWindow cfg (cfg.fifoBase + o) ∧ within a n (cfg.fifoBase + o)) := by
  induction n generalizing a g with
  | zero => simp only [ghostWindow, within]; constructor
            · exact .inl
            · rintro (h | ⟨-, h⟩); exacts [h, by omega]
  | succ n ih =>
    have hb : o ∈ (ghostWindowByte cfg a g).dirty ↔ o ∈ g.dirty ∨ (onWindow cfg (cfg.fifoBase + o) ∧ a = cfg.fifoBase + o) := by
      unfold ghostWindowByte
      split_ifs with h
      · simp only [inWindow, Bool.and_eq_true, decide_eq_true_eq] at h
        simp only [mem_markDirty, Ghost.flagIf_dirty, onWindow, within]
        constructor
        · rintro (rfl | h2)
          · exact .inr ⟨by omega, by omega⟩
          · exact .inl h2
        · rintro (h2 | ⟨h2, h3⟩)
          · exact .inr h2
          · exact .inl (by omega)
      · simp only [inWindow, Bool.and_eq_true, decide_eq_true_eq] at h
        constructor
        · exact .inl
        · rintro (h2 | ⟨h2, h3⟩)
          · exact h2
          · simp only [onWindow, within] at h2; omega
    rw [ghostWindow, ih, hb]
    simp only [within]
    constructor
    · rintro ((h | ⟨h, h2⟩) | ⟨h, h2⟩)
      · exact .inl h
      · exact .inr ⟨h, by omega⟩
      · exact .inr ⟨h, by omega⟩
    · rintro (h | ⟨h, h2⟩)
      · exact .inl (.inl h)
      · by_cases he : a = cfg.fifoBase + o
        · exact .inl (.inr ⟨h, he⟩)
        · exact .inr ⟨h, by omega⟩

/-- When a write overruns. -/
theorem ghostWindow_overrun (cfg : Cfg) (a n : Nat) (g : Ghost) :
    (ghostWindow cfg a n g).haz.overrun = true ↔ g.haz.overrun = true ∨ ∃ o, onWindow cfg (cfg.fifoBase + o) ∧
        within a n (cfg.fifoBase + o) ∧ inRing cfg o g.lastRP g.pubOff = true := by
  induction n generalizing a g with
  | zero => simp only [ghostWindow, within]; constructor
            · exact .inl
            · rintro (h | ⟨o, -, h, -⟩); exacts [h, by omega]
  | succ n ih =>
    have hf := ghostWindow_frame cfg a 1 g
    simp only [ghostWindow] at hf
    have hb : (ghostWindowByte cfg a g).haz.overrun = true ↔ g.haz.overrun = true ∨ ∃ o, onWindow cfg (cfg.fifoBase + o) ∧
        a = cfg.fifoBase + o ∧ inRing cfg o g.lastRP g.pubOff = true := by
      unfold ghostWindowByte
      split_ifs with h
      · simp only [inWindow, Bool.and_eq_true, decide_eq_true_eq] at h
        have := Ghost.flagIf_has (inRing cfg (a - cfg.fifoBase) g.lastRP g.pubOff) .overrun .overrun g
        simp only [Hazards.has] at this
        show (Ghost.flagIf _ _ _).haz.overrun = true ↔ _
        rw [this]
        simp only [decide_true, Bool.and_true, Bool.or_eq_true]
        constructor
        · rintro (h2 | h2)
          · exact .inr ⟨a - cfg.fifoBase, by simp only [onWindow, within]; omega, by omega, h2⟩
          · exact .inl h2
        · rintro (h2 | ⟨o, h2, h3, h4⟩)
          · exact .inr h2
          · refine .inl ?_
            rw [show a - cfg.fifoBase = o by omega]; exact h4
      · simp only [inWindow, Bool.and_eq_true, decide_eq_true_eq] at h
        constructor
        · exact .inl
        · rintro (h2 | ⟨o, h2, h3, -⟩)
          · exact h2
          · simp only [onWindow, within] at h2; omega
    rw [ghostWindow, ih, hb, hf.1, hf.2.1]
    simp only [within]
    constructor
    · rintro ((h | ⟨o, h, h2, h3⟩) | ⟨o, h, h2, h3⟩)
      · exact .inl h
      · exact .inr ⟨o, h, by omega, h3⟩
      · exact .inr ⟨o, h, by omega, h3⟩
    · rintro (h | ⟨o, h, h2, h3⟩)
      · exact .inl (.inl h)
      · by_cases he : a = cfg.fifoBase + o
        · exact .inl (.inr ⟨o, h, he, h3⟩)
        · exact .inr ⟨o, h, by omega, h3⟩

theorem ghostWindow_other (cfg : Cfg) (a n : Nat) (g : Ghost) (x : Hazard) (hx : x ≠ .overrun) :
    (ghostWindow cfg a n g).haz.has x = g.haz.has x := by
  induction n generalizing a g with
  | zero => rfl
  | succ n ih =>
    rw [ghostWindow, ih]
    unfold ghostWindowByte
    split_ifs
    · show (Ghost.flagIf _ _ _).haz.has x = _
      rw [Ghost.flagIf_has]; simp [hx]
    · rfl

theorem ghostPublish_other (cfg : Cfg) (v : Nat) (g : Ghost) (x : Hazard) (h1 : x ≠ .unwritten) (h2 : x ≠ .full) :
    (ghostPublish cfg v g).haz.has x = g.haz.has x := by
  show (Ghost.flagIf _ _ (Ghost.flagIf _ _ _)).haz.has x = _
  rw [Ghost.flagIf_has, Ghost.flagIf_has]; simp [h1, h2]

theorem ghostWrite_other (cfg : Cfg) (a n v : Nat) (g : Ghost) (x : Hazard) (h1 : x ≠ .unwritten) (h2 : x ≠ .full)
    (h3 : x ≠ .overrun) (h4 : x ≠ .ptrAliased) :
    (ghostWrite cfg a n v g).haz.has x = g.haz.has x := by
  unfold ghostWrite
  dsimp only
  split_ifs
  · rw [ghostPublish_other _ _ _ _ h1 h2, Ghost.flagIf_has, ghostWindow_other _ _ _ _ _ h3]; simp [h4]
  · rw [Ghost.flagIf_has, ghostWindow_other _ _ _ _ _ h3]; simp [h4]

theorem doWrite_ghost (a n v : Nat) (s : State) (he : s.err = .ok) :
    (doWrite a n v s).2.ghost = ghostWrite s.cfg a n v s.ghost := by
  rw [doWrite_eq _ _ _ _ he]

/-- The ghost state an operation of one write transaction leaves: `ghostWrite` on the ghost it found, up to a display-list
overflow that was recorded first. -/
theorem exec_oneWrite_ghost {i : Instr} {a n v : Nat} {val : Value} {s t : State} (h : OneWrite s i a n v val)
    (hr : raisedBy i s = none) (he : s.err = .ok) (hx : exec i s = .next t) :
    ∃ g, t.ghost = ghostWrite s.cfg a n v g ∧ g.dirty = s.ghost.dirty ∧ g.pubOff = s.ghost.pubOff ∧
      g.lastRP = s.ghost.lastRP ∧ g.span = s.ghost.span ∧ ∀ x ≠ .dlOverflow, g.haz.has x = s.ghost.haz.has x := by
  have key : ∀ g, exec i s = .next ((doWrite a n v { s with ghost := g }).2.complete (doWrite a n v { s with ghost := g }).1 val) →
      t.ghost = ghostWrite s.cfg a n v g := by
    intro g h
    rw [h] at hx
    cases hx
    exact doWrite_ghost a n v { s with ghost := g } he
  cases h with
  | write h => cases h <;> exact ⟨s.ghost, key _ (checked_of_none hr), rfl, rfl, rfl, rfl, fun _ _ => rfl⟩
  | dlappend off w =>
    refine ⟨_, key _ (checked_of_none hr), ?_⟩
    unfold dlOverflowCheck
    cases s.cfg.dlCap with
    | none => exact ⟨rfl, rfl, rfl, rfl, fun _ _ => rfl⟩
    | some cap =>
      refine ⟨by simp, by simp, by simp, by simp, fun x hx => ?_⟩
      rw [Ghost.flagIf_has]
      simp [hx]
  | publish v => exact ⟨s.ghost, key _ (checked_of_none hr), rfl, rfl, rfl, rfl, fun _ _ => rfl⟩

/-- A write that is no publish only marks and aliases. -/
theorem ghostWrite_plain {cfg : Cfg} (c : CfgFacts cfg) {a n v : Nat} (h : ¬(a = cfg.regWP ∧ n = 4 ∧ v < cfg.fifoCap))
    (g : Ghost) :
    ghostWrite cfg a n v g = (ghostWindow cfg a n g).flagIf (isPtrAliased cfg a n v) .ptrAliased := by
  unfold ghostWrite
  dsimp only
  rw [if_neg]
  simp only [isWpWrite, ptrBytes, c.ptr, Bool.and_eq_true, decide_eq_true_eq]
  rintro ⟨⟨h1, h2⟩, h3⟩
  exact h ⟨h1, h2, h3⟩

theorem touches_iff (a n r : Nat) (hn : 0 < n) : touches a n r = true ↔ ∃ x, within a n x ∧ within r 4 x := by
  simp only [touches, Bool.and_eq_true, decide_eq_true_eq, within]
  constructor
  · intro h; exact ⟨max a r, by omega, by omega⟩
  · rintro ⟨x, h1, h2⟩; omega

/-- The three cases of R230, by addresses. -/
theorem isPtrAliased_iff {cfg : Cfg} (c : CfgFacts cfg) (a n v : Nat) (hn : 0 < n) :
    isPtrAliased cfg a n v = true ↔ (∃ x, within a n x ∧ onRP cfg x) ∨
        ((∃ x, within a n x ∧ onWP cfg x) ∧ ¬(a = cfg.regWP ∧ n = 4)) ∨
        (a = cfg.regWP ∧ n = 4 ∧ cfg.fifoCap ≤ v) := by
  simp only [isPtrAliased, Bool.or_eq_true, Bool.and_eq_true, touches_iff _ _ _ hn, isWpWrite, ptrBytes, c.ptr,
      Bool.not_eq_true', Bool.and_eq_false_iff, decide_eq_true_eq, decide_eq_false_iff_not, onRP, onWP, Nat.reduceDiv,
      not_and_or, or_assoc, and_assoc]

/-- The offsets of a ring interval. -/
theorem mem_ringOffsets_iff {cfg : Cfg} (c : CfgFacts cfg) (a b o : Nat) : o ∈ ringOffsets cfg a b ↔ o < cfg.fifoCap ∧
    inRing cfg o a b = true := by
  simp only [ringOffsets, List.mem_map, List.mem_range, inRing, decide_eq_true_eq]
  have hp := c.cap_pos
  constructor
  · rintro ⟨i, hi, rfl⟩
    have := dist_lt hp a b
    exact ⟨red_lt hp _, by rw [dist_red_add hp _ _ (by omega)]; exact hi⟩
  · rintro ⟨h1, h2⟩
    exact ⟨dist cfg a o, h2, by rw [add_dist hp, red_of_lt h1]⟩

/-- A full-width write of an offset at `REG_WP` is a publish and nothing else. -/
theorem ghostWrite_publish {cfg : Cfg} (c : CfgFacts cfg) (v : Nat) (hv : v < cfg.fifoCap) (g : Ghost) :
    ghostWrite cfg cfg.regWP (ptrBytes cfg) v g = ghostPublish cfg v g := by
  have h4 : ptrBytes cfg = 4 := by rw [ptrBytes, c.ptr]
  have hw := c.fifo_wp
  unfold ghostWrite
  dsimp only
  rw [h4, ghostWindow_outside _ _ _ _ (by omega)]
  have hal : isPtrAliased cfg cfg.regWP 4 v = false := by
    rw [← Bool.not_eq_true, isPtrAliased_iff c _ _ _ (by omega)]
    have := c.rp_wp
    rintro (⟨x, h1, h2⟩ | ⟨-, h⟩ | ⟨-, -, h⟩)
    · simp only [within, onRP] at h1 h2; omega
    · exact h ⟨rfl, rfl⟩
    · omega
  rw [hal, Ghost.flagIf_false, if_pos]
  simp [isWpWrite, h4, hv]

theorem ghostPublish_unwritten {cfg : Cfg} (c : CfgFacts cfg) (v : Nat) (g : Ghost) :
    (ghostPublish cfg v g).haz.unwritten = true ↔ g.haz.unwritten = true ∨
    ∃ o < cfg.fifoCap, inRing cfg o g.pubOff v = true ∧ o ∉ g.dirty := by
  show Hazards.has (Ghost.flagIf _ _ (Ghost.flagIf _ _ _)).haz .unwritten = true ↔ _
  rw [Ghost.flagIf_has, Ghost.flagIf_has]
  simp only [reduceCtorEq, decide_false, Bool.and_false, Bool.false_or, decide_true, Bool.and_true, Bool.or_eq_true,
      List.any_eq_true, mem_ringOffsets_iff c, Hazards.has]
  simp
  constructor
  · rintro (⟨o, h1, h2⟩ | h)
    · exact .inr ⟨o, h1.1, h1.2, h2⟩
    · exact .inl h
  · rintro (h | ⟨o, h1, h2, h3⟩)
    · exact .inr h
    · exact .inl ⟨o, ⟨h1, h2⟩, h3⟩

/-- A write inside the window moves no counter. -/
theorem doWrite_window_counts {s : State} (c : CfgFacts s.cfg) (a n v : Nat) (_hn : 0 < n) (ha : s.cfg.fifoBase ≤ a)
    (hb : a + n ≤ s.cfg.fifoBase + s.cfg.fifoCap) :
    (doWrite a n v s).2.ghost.span = s.ghost.span ∧ (doWrite a n v s).2.ghost.pubOff = s.ghost.pubOff ∧
        (doWrite a n v s).2.ghost.lastRP = s.ghost.lastRP ∧
    (doWrite a n v s).2.ghost.haz.full = s.ghost.haz.full := by
  cases he : s.err with
  | failed r => rw [doWrite_poisoned _ _ _ _ r he]; exact ⟨rfl, rfl, rfl, rfl⟩
  | ok =>
    have hw := c.fifo_wp
    rw [doWrite_ghost _ _ _ _ he, ghostWrite_plain c (by omega)]
    have hf := ghostWindow_frame s.cfg a n s.ghost
    refine ⟨by simpa using hf.2.2, by simpa using hf.1, by simpa using hf.2.1, ?_⟩
    have := Ghost.flagIf_has (isPtrAliased s.cfg a n v) .ptrAliased .full (ghostWindow s.cfg a n s.ghost)
    simp only [Hazards.has, reduceCtorEq, decide_false, Bool.and_false, Bool.false_or] at this
    rw [this]; exact ghostWindow_other _ _ _ _ .full (by simp)

theorem writeWrapped_window_counts {s : State} (c : CfgFacts s.cfg) (o : Nat) (bs : List Byte) (ho : o < s.cfg.fifoCap)
    (h0 : 0 < bs.length) (h4 : bs.length ≤ s.cfg.fifoCap) :
    (writeWrapped o bs s).2.ghost.span = s.ghost.span ∧ (writeWrapped o bs s).2.ghost.pubOff = s.ghost.pubOff ∧
        (writeWrapped o bs s).2.ghost.lastRP = s.ghost.lastRP ∧
    (writeWrapped o bs s).2.ghost.haz.full = s.ghost.haz.full := by
  have hj : tailLength s.cfg o bs.length = min bs.length (s.cfg.fifoCap - o) := rfl
  generalize tailLength s.cfg o bs.length = j at hj
  unfold writeWrapped
  dsimp only
  rw [show tailLength s.cfg o bs.length = j from hj.symm]
  have h1 := doWrite_window_counts c (s.cfg.fifoBase + o) j (fromLE (bs.take j)) (by omega) (by omega) (by omega)
  have hcf : (doWrite (s.cfg.fifoBase + o) j (fromLE (bs.take j)) s).2.cfg = s.cfg := by
    cases he : s.err with
    | failed r => rw [doWrite_poisoned _ _ _ _ r he]
    | ok => rw [doWrite_eq _ _ _ _ he]
  split_ifs
  · split
    · have h2 := doWrite_window_counts (s := (doWrite (s.cfg.fifoBase + o) j (fromLE (bs.take j)) s).2)
        (hcf.symm ▸ c) s.cfg.fifoBase (bs.length - j) (fromLE (bs.drop j)) (by omega) (by rw [hcf]) (by rw [hcf]; omega)
      exact ⟨h2.1.trans h1.1, h2.2.1.trans h1.2.1, h2.2.2.1.trans h1.2.2.1, h2.2.2.2.trans h1.2.2.2⟩
    · exact h1
    · exact h1
  · exact h1

/-- What appends add to the span, and when they fill the ring. -/
theorem appendWords_counts (ws : List Word) (o : Nat) (s : State) (c : CfgFacts s.cfg) (hc : s.env.Closed)
    (ho : o < s.cfg.fifoCap) :
    (appendWords ws o s).2.ghost.span = s.ghost.span + 4 * ws.length ∧
        (appendWords ws o s).2.ghost.pubOff = s.ghost.pubOff ∧ (appendWords ws o s).2.ghost.lastRP = s.ghost.lastRP ∧
      ((appendWords ws o s).2.ghost.haz.full = true ↔ s.ghost.haz.full = true ∨
        ws ≠ [] ∧ s.cfg.fifoCap ≤ dist s.cfg s.ghost.lastRP s.ghost.pubOff + s.ghost.span + 4 * ws.length) := by
  induction ws generalizing o s with
  | nil => simp [appendWords_nil]
  | cons w ws ih =>
    have hA := appendWord_acts o w s c hc ho
    have hw := writeWrapped_window_counts (s := { s with ghost := fifoAppendHook s.cfg 4 s.ghost }) c o
        (leBytes 4 w.toNat) ho (by simp) (by simpa using c.cap_ge)
    rw [← appendWord_eq] at hw
    obtain ⟨i1, i2, i3, i4⟩ := ih (nextOffset s.cfg o) (appendWord o w s).2 (hA.cfg ▸ c) hA.closed
        (by rw [hA.cfg]; exact red_lt c.cap_pos _)
    rw [hw.1] at i1
    rw [hw.2.1] at i2
    rw [hw.2.2.1] at i3
    rw [hw.1, hw.2.1, hw.2.2.1, hw.2.2.2, hA.cfg] at i4
    have hfull := Ghost.flagIf_has (decide (s.cfg.fifoCap ≤ dist s.cfg s.ghost.lastRP s.ghost.pubOff +
        (s.ghost.span + 4))) .full .full { s.ghost with span := s.ghost.span + 4 }
    simp only [Hazards.has, decide_true, Bool.and_true] at hfull
    have h5 : (fifoAppendHook s.cfg 4 s.ghost).haz.full = (decide
        (s.cfg.fifoCap ≤ dist s.cfg s.ghost.lastRP s.ghost.pubOff + (s.ghost.span + 4)) || s.ghost.haz.full) := hfull
    have h6 : (fifoAppendHook s.cfg 4 s.ghost).span = s.ghost.span + 4 := by simp [fifoAppendHook]
    have h7 : (fifoAppendHook s.cfg 4 s.ghost).pubOff = s.ghost.pubOff := by simp [fifoAppendHook]
    have h8 : (fifoAppendHook s.cfg 4 s.ghost).lastRP = s.ghost.lastRP := by simp [fifoAppendHook]
    simp only [h6, h7, h8] at i1 i2 i3 i4
    rw [appendWords_cons]
    refine ⟨by rw [i1, List.length_cons]; omega, i2, i3, ?_⟩
    rw [i4, h5, Bool.or_eq_true, decide_eq_true_eq, List.length_cons]
    by_cases hws : ws = []
    · subst hws; simp; rw [or_comm, Nat.add_assoc]
    · simp only [hws, ne_eq, not_false_eq_true, true_and, reduceCtorEq]
      constructor
      · rintro ((h | h) | h)
        · exact .inr (by omega)
        · exact .inl h
        · exact .inr (by omega)
      · rintro (h | h)
        · exact .inl (.inr h)
        · exact .inr (by omega)

/-! ## Which operation records which hazard -/

theorem checked_next {f : Option FaultRec} {s b t : State} (h : checked f s b = .next t) :
    (∃ x, t = s.raiseFault x) ∨ t = b := by
  cases f with
  | none => exact .inr (Host.Outcome.next.inj h).symm
  | some x => exact .inl ⟨x, (Host.Outcome.next.inj h).symm⟩

/-- What a checked operation records is what its body records. -/
theorem checked_hazard {f : Option FaultRec} {s b t : State} {x : Hazard} (h : checked f s b = .next t)
    (hb : b.ghost.haz.has x = s.ghost.haz.has x) : t.ghost.haz.has x = s.ghost.haz.has x := by
  rcases checked_next h with ⟨y, rfl⟩ | rfl
  · rw [State.raiseFault_ghost]
  · exact hb

/-- A write narrower than 4 bytes is no publish. -/
theorem ghostWrite_narrow {cfg : Cfg} (c : CfgFacts cfg) {a n v : Nat} (hn : n ≠ 4) (g : Ghost) {x : Hazard}
    (h1 : x ≠ .overrun) (h2 : x ≠ .ptrAliased) :
    (ghostWrite cfg a n v g).haz.has x = g.haz.has x := by
  rw [ghostWrite_plain c (by tauto), Ghost.flagIf_has, ghostWindow_other _ _ _ _ _ h1]; simp [h2]

/-- A write records what its ghost hook records. -/
theorem doWrite_hazard {a n v : Nat} {s : State} {x : Hazard} (h :
    (ghostWrite s.cfg a n v s.ghost).haz.has x = s.ghost.haz.has x) :
    (doWrite a n v s).2.ghost.haz.has x = s.ghost.haz.has x := by
  cases he : s.err with
  | failed r => rw [doWrite_poisoned _ _ _ _ r he]
  | ok => rw [doWrite_ghost _ _ _ _ he]; exact h

theorem ghostRead_other (cfg : Cfg) (a n v : Nat) (g : Ghost) (x : Hazard) (h1 : x ≠ .rpUnexpected) (h2 : x ≠ .wpReadback) :
    (ghostRead cfg a n v g).haz.has x = g.haz.has x := by
  unfold ghostRead
  dsimp only
  rw [Ghost.flagIf_has]
  simp only [h2, decide_false, Bool.and_false, Bool.false_or]
  split_ifs
  · unfold ghostObserveRP
    split_ifs
    · rfl
    · rw [Ghost.flagIf_has]; simp [h1]
  · rfl

theorem ghostRead_narrow {cfg : Cfg} (c : CfgFacts cfg) {a n v : Nat} (hn : n ≠ 4) (g : Ghost) : ghostRead cfg a n v g = g := by
  unfold ghostRead
  simp [c.ptrBytes_eq, hn, Ghost.flagIf]

theorem ghostRead_rp_other {cfg : Cfg} (c : CfgFacts cfg) (n v : Nat) (g : Ghost) (x : Hazard) (h1 : x ≠ .rpUnexpected) :
    (ghostRead cfg cfg.regRP n v g).haz.has x = g.haz.has x := by
  have h := c.rp_wp
  unfold ghostRead
  dsimp only
  have hne : cfg.regRP ≠ cfg.regWP := by omega
  simp only [hne, decide_false, Bool.false_and, Ghost.flagIf_false]
  split_ifs
  · unfold ghostObserveRP
    split_ifs
    · rfl
    · rw [Ghost.flagIf_has]; simp [h1]
  · rfl

/-- A read records what its ghost hook records. -/
theorem doRead_hazard {a n : Nat} {s : State} {x : Hazard} (h : ∀ v,
    (ghostRead s.cfg a n v s.ghost).haz.has x = s.ghost.haz.has x) :
    (doRead a n s).2.ghost.haz.has x = s.ghost.haz.has x := by
  cases he : s.err with
  | failed r => rw [doRead_poisoned _ _ _ r he]
  | ok =>
    cases hr : (sendRead s.cfg s.ghost.haz.any (BitVec.ofNat 22 a) n s.env).1 with
    | error r => rw [doRead_error _ _ _ he r hr]
    | ok got => rw [doRead_ok _ _ _ he got hr]; exact h _

theorem doWrite_window_hazard {s : State} (c : CfgFacts s.cfg) {a n v : Nat} (hn : 0 < n) (ha : s.cfg.fifoBase ≤ a)
    (hb : a + n ≤ s.cfg.fifoBase + s.cfg.fifoCap)
    {x : Hazard} (hx : x ≠ .overrun) : (doWrite a n v s).2.ghost.haz.has x = s.ghost.haz.has x := by
  apply doWrite_hazard
  have h1 := c.fifo_rp
  have h2 := c.fifo_wp
  rw [ghostWrite_plain c (by omega), Ghost.flagIf_has, ghostWindow_other _ _ _ _ _ hx]
  have : isPtrAliased s.cfg a n v = false := by
    rw [← Bool.not_eq_true, isPtrAliased_iff c _ _ _ hn]
    rintro (⟨y, h3, h4⟩ | ⟨⟨y, h3, h4⟩, -⟩ | ⟨h3, -⟩)
    · simp only [within, onRP] at h3 h4; omega
    · simp only [within, onWP] at h3 h4; omega
    · omega
  simp [this]

theorem writeWrapped_window_hazard {s : State} (c : CfgFacts s.cfg) (o : Nat) (bs : List Byte) (ho : o < s.cfg.fifoCap)
    (h0 : 0 < bs.length) (h4 : bs.length ≤ s.cfg.fifoCap)
    {x : Hazard} (hx : x ≠ .overrun) : (writeWrapped o bs s).2.ghost.haz.has x = s.ghost.haz.has x := by
  have hj : tailLength s.cfg o bs.length = min bs.length (s.cfg.fifoCap - o) := rfl
  unfold writeWrapped
  dsimp only
  generalize tailLength s.cfg o bs.length = j at *
  have h1 := doWrite_window_hazard (v := fromLE (bs.take j)) c (a := s.cfg.fifoBase + o) (n :=
      j) (by omega) (by omega) (by omega) hx
  have hcf : (doWrite (s.cfg.fifoBase + o) j (fromLE (bs.take j)) s).2.cfg = s.cfg := by
    cases he : s.err with
    | failed r => rw [doWrite_poisoned _ _ _ _ r he]
    | ok => rw [doWrite_eq _ _ _ _ he]
  split_ifs
  · split
    · exact (doWrite_window_hazard (s := (doWrite (s.cfg.fifoBase + o) j (fromLE (bs.take j)) s).2) (hcf.symm ▸ c)
        (by omega) (by rw [hcf]) (by rw [hcf]; omega) hx).trans h1
    · exact h1
    · exact h1
  · exact h1

theorem appendWords_hazard (ws : List Word) (o : Nat) (s : State) (c : CfgFacts s.cfg) (hc : s.env.Closed)
    (ho : o < s.cfg.fifoCap)
    {x : Hazard} (hx : x ≠ .overrun) (hf : x ≠ .full) : (appendWords ws o s).2.ghost.haz.has x = s.ghost.haz.has x := by
  induction ws generalizing o s with
  | nil => rfl
  | cons w ws ih =>
    have hA := appendWord_acts o w s c hc ho
    have hw := writeWrapped_window_hazard (s := { s with ghost := fifoAppendHook s.cfg 4 s.ghost }) c o
        (leBytes 4 w.toNat) ho (by simp) (by simpa using c.cap_ge) hx
    rw [← appendWord_eq] at hw
    rw [appendWords_cons, ih _ _ (hA.cfg ▸ c) hA.closed (by rw [hA.cfg]; exact red_lt c.cap_pos _), hw]
    show (Ghost.flagIf _ _ _).haz.has x = _
    rw [Ghost.flagIf_has]; simp [hf]

theorem pollAgain_ghost (d : Option Nat) (s : State) : (pollAgain d s).ghost = s.ghost := by
  unfold pollAgain; dsimp only; split_ifs <;> rfl

/-- What a write inside the window records. -/
theorem ghostWrite_window {cfg : Cfg} (c : CfgFacts cfg) {a n v : Nat} (_hn : 0 < n) (ha : cfg.fifoBase ≤ a)
    (hb : a + n ≤ cfg.fifoBase + cfg.fifoCap) (g : Ghost) :
    (∀ o, o ∈ (ghostWrite cfg a n v g).dirty ↔ o ∈ g.dirty ∨ within a n (cfg.fifoBase + o)) ∧
    ((ghostWrite cfg a n v g).haz.overrun = true ↔ g.haz.overrun = true ∨ ∃ o, within a n (cfg.fifoBase + o) ∧
        inRing cfg o g.lastRP g.pubOff = true) ∧
    (ghostWrite cfg a n v g).lastRP = g.lastRP ∧ (ghostWrite cfg a n v g).pubOff = g.pubOff := by
  have h2 := c.fifo_wp
  rw [ghostWrite_plain c (by omega)]
  have hf := ghostWindow_frame cfg a n g
  have hw : ∀ o, within a n (cfg.fifoBase + o) → onWindow cfg (cfg.fifoBase + o) := by
    intro o h; simp only [within, onWindow] at *; omega
  refine ⟨fun o => ?_, ?_, by simpa using hf.2.1, by simpa using hf.1⟩
  · rw [Ghost.flagIf_dirty, ghostWindow_dirty]
    constructor
    · rintro (h | h); exacts [.inl h, .inr h.2]
    · rintro (h | h); exacts [.inl h, .inr ⟨hw o h, h⟩]
  · have := Ghost.flagIf_has (isPtrAliased cfg a n v) .ptrAliased .overrun (ghostWindow cfg a n g)
    simp only [Hazards.has, reduceCtorEq, decide_false, Bool.and_false, Bool.false_or] at this
    rw [this, ghostWindow_overrun]
    constructor
    · rintro (h | ⟨o, -, h⟩); exacts [.inl h, .inr ⟨o, h⟩]
    · rintro (h | ⟨o, h, h'⟩); exacts [.inl h, .inr ⟨o, hw o h, h, h'⟩]

end Sys2Proof.Machine
end

