-- ==== Sys2Proof/Laws/Appends.lean ====
section
/-! SUPPORT. What the appends do whatever the transport answers: the transactions they begin, the bytes these store in the ring
and the window bytes they mark (42_fifo_writer.md R170 to R173, 20_memory.md R87, 70_reset_and_hazards.md R225). -/

namespace Sys2Proof.Machine

/-! ## Calls cut after the first failure -/

theorem Sent.append {ts us : List (Nat × List Byte)} {n q m p : Nat} {out : Option Reason} {l k : List TxCall}
    (h : Sent ts n q none l) (g : Sent us m p out k) : Sent (ts ++ us) (n + m) p out (l ++ k) := by
  generalize ho : (none : Option Reason) = o at h
  induction h with
  | nil => simpa using g
  | fails => cases ho
  | cons t _ ih =>
    rw [List.cons_append, List.append_assoc, Nat.add_assoc]
    exact .cons t (ih ho)

theorem Sent.append_of_fails {ts : List (Nat × List Byte)} {n q : Nat} {r : Reason} {l : List TxCall}
    (h : Sent ts n q (some r) l) (us : List (Nat × List Byte)) : Sent (ts ++ us) n q (some r) l := by
  generalize ho : some r = o at h
  induction h with
  | nil => cases ho
  | fails t => exact .fails t
  | cons t _ ih => exact .cons t (ih ho)

/-! ## The relation -/

/-- Where the ghost state of `s'` differs from that of `s` in the span and in hazards other than an overrun alone. -/
structure MarksKept (s s' : State) : Prop where
  dirty : s'.ghost.dirty = s.ghost.dirty
  overrun : s'.ghost.haz.overrun = s.ghost.haz.overrun
  pubOff : s'.ghost.pubOff = s.ghost.pubOff
  lastRP : s'.ghost.lastRP = s.ghost.lastRP

theorem MarksKept.refl (s : State) : MarksKept s s := ⟨rfl, rfl, rfl, rfl⟩

theorem MarksKept.trans {s1 s2 s3 : State} (h : MarksKept s1 s2) (g : MarksKept s2 s3) : MarksKept s1 s3 :=
  ⟨g.dirty.trans h.dirty, g.overrun.trans h.overrun, g.pubOff.trans h.pubOff, g.lastRP.trans h.lastRP⟩

/-- Making the write transactions `ts`, which carry the bytes `bs` to the ring from offset `o` on, leads from `s`, whose error
register is clean, to `s'`: `n` bytes went in whole transactions and `q` more are the failing one's, of all these `j` are stored
and all are marked. -/
structure Wrote (o : Nat) (bs : List Byte) (ts : List (Nat × List Byte)) (n q j : Nat) (out : Option Reason)
    (l : List TxCall) (s s' : State) : Prop where
  sent : Sent ts n q out l
  wire : s'.env.wire = s.env.wire ++ l
  err : s'.err = errOf out
  cfg : s'.cfg = s.cfg
  closed : s'.env.Closed
  n_le : n ≤ j
  j_le : j ≤ n + q
  le : n + q ≤ bs.length
  whole : out = none → n = bs.length ∧ q = 0
  stored : ∀ k < j, j ≤ k + s.cfg.fifoCap → s'.env.mem.read (fifoAddr s.cfg o k) = bs[k]?
  kept : MemKept s.cfg (onAppend s.cfg o j) s.env.mem s'.env.mem
  dirty : ∀ x, x ∈ s'.ghost.dirty ↔ x ∈ s.ghost.dirty ∨ ∃ k < n + q, x = red s.cfg (o + k)
  overrun : s'.ghost.haz.overrun = true ↔ s.ghost.haz.overrun = true ∨
    ∃ k < n + q, inRing s.cfg (red s.cfg (o + k)) s.ghost.lastRP s.ghost.pubOff = true
  pubOff : s'.ghost.pubOff = s.ghost.pubOff
  lastRP : s'.ghost.lastRP = s.ghost.lastRP

variable {o n q j n' q' j' : Nat} {bs bs' : List Byte} {ts ts' : List (Nat × List Byte)} {out out' : Option Reason}
  {l l' : List TxCall} {s s1 s' : State}

/-- Bookkeeping before the transactions that marks nothing. -/
theorem Wrote.of_marks {g : Ghost} (h : Wrote o bs ts n q j out l { s with ghost := g } s')
    (hk : MarksKept s { s with ghost := g }) : Wrote o bs ts n q j out l s s' :=
  { h with
    dirty := fun x => by rw [h.dirty, hk.dirty]
    overrun := by rw [h.overrun, hk.overrun, hk.pubOff, hk.lastRP]
    pubOff := h.pubOff.trans hk.pubOff
    lastRP := h.lastRP.trans hk.lastRP }

/-- After a failure nothing more is sent, stored or marked. -/
theorem Wrote.cut {r : Reason} (h : Wrote o bs ts n q j (some r) l s s1) (he : s'.err = s1.err) (hv : s'.env = s1.env)
    (hc : s'.cfg = s1.cfg) (hk : MarksKept s1 s') (bs' : List Byte) (ts' : List (Nat × List Byte)) :
    Wrote o (bs ++ bs') (ts ++ ts') n q j (some r) l s s' where
  sent := h.sent.append_of_fails ts'
  wire := by rw [hv, h.wire]
  err := he.trans h.err
  cfg := hc.trans h.cfg
  closed := by rw [hv]; exact h.closed
  n_le := h.n_le
  j_le := h.j_le
  le := by have := h.le; rw [List.length_append]; omega
  whole := fun hn => by simp at hn
  stored := fun k hk hfit => by
    have := h.le
    have := h.j_le
    rw [hv, h.stored k hk hfit, List.getElem?_append_left (by omega)]
  kept := by rw [hv]; exact h.kept
  dirty := fun x => by rw [hk.dirty, h.dirty]
  overrun := by rw [hk.overrun, h.overrun]
  pubOff := hk.pubOff.trans h.pubOff
  lastRP := hk.lastRP.trans h.lastRP

/-- Transactions in a row. -/
theorem Wrote.trans (c : CfgFacts s.cfg) (h : Wrote o bs ts n q j none l s s1)
    (g : Wrote (red s.cfg (o + bs.length)) bs' ts' n' q' j' out' l' s1 s') :
    Wrote o (bs ++ bs') (ts ++ ts') (bs.length + n') q' (bs.length + j') out' (l ++ l') s s' := by
  obtain ⟨hn, hq⟩ := h.whole rfl
  have hj : j = bs.length := by have := h.n_le; have := h.j_le; omega
  have hcap := c.cap_pos
  have gst := g.stored
  have gk := g.kept
  have gd := g.dirty
  have go := g.overrun
  simp only [h.cfg, fifoAddr_next] at gst gk gd go
  refine ⟨hn ▸ h.sent.append g.sent, by rw [g.wire, h.wire, List.append_assoc], g.err, g.cfg.trans h.cfg, g.closed,
    by have := g.n_le; omega, by have := g.j_le; omega, by have := g.le; rw [List.length_append]; omega,
    fun ho => by have := g.whole ho; rw [List.length_append]; omega, fun k hk hfit => ?_, fun x hx hrp => ?_, fun x => ?_, ?_,
    g.pubOff.trans h.pubOff, g.lastRP.trans h.lastRP⟩
  · by_cases hkl : k < bs.length
    · rw [List.getElem?_append_left hkl, ← h.stored k (by omega) (by omega)]
      refine gk _ ?_ (window_not_ptr c (onAppend_window c ⟨k, Nat.lt_succ_self k, rfl⟩)).1
      rintro ⟨i, hi, hx⟩
      rw [fifoAddr_next] at hx
      have h0 : fifoAddr s.cfg (red s.cfg (o + k)) 0 = fifoAddr s.cfg (red s.cfg (o + k)) (bs.length + i - k) := by
        rw [fifoAddr_next, fifoAddr_next, Nat.add_zero, hx]
        congr 1
        omega
      have := fifoAddr_inj c (by omega) (by omega) h0
      omega
    · rw [List.getElem?_append_right (by omega), ← gst (k - bs.length) (by omega) (by omega)]
      congr 2
      omega
  · rw [← h.kept x (fun ⟨k, hk, e⟩ => hx ⟨k, by omega, e⟩) hrp]
    refine gk x (fun ⟨k, hk, e⟩ => hx ⟨bs.length + k, by omega, by rw [e, fifoAddr_next]⟩) hrp
  · rw [gd, h.dirty, hn, hq, or_assoc]
    refine or_congr_right ?_
    constructor
    · rintro (⟨k, hk, e⟩ | ⟨k, hk, e⟩)
      · exact ⟨k, by omega, e⟩
      · exact ⟨bs.length + k, by omega, by rw [e, red_red_add, Nat.add_assoc]⟩
    · rintro ⟨k, hk, e⟩
      by_cases hkl : k < bs.length
      · exact .inl ⟨k, by omega, e⟩
      · exact .inr ⟨k - bs.length, by omega, by rw [e, red_red_add]; congr 1; omega⟩
  · rw [go, h.overrun, h.pubOff, h.lastRP, hn, hq, or_assoc]
    refine or_congr_right ?_
    constructor
    · rintro (⟨k, hk, e⟩ | ⟨k, hk, e⟩)
      · exact ⟨k, by omega, e⟩
      · exact ⟨bs.length + k, by omega, by rw [red_red_add] at e; rw [← Nat.add_assoc]; exact e⟩
    · rintro ⟨k, hk, e⟩
      by_cases hkl : k < bs.length
      · exact .inl ⟨k, by omega, e⟩
      · refine .inr ⟨k - bs.length, by omega, ?_⟩
        rw [red_red_add, show o + bs.length + (k - bs.length) = o + k by omega]
        exact e

/-- One write inside the window, from offset `o`, that does not cross its end. -/
theorem doWrite_wrote (o n v : Nat) (s : State) (c : CfgFacts s.cfg) (hc : s.env.Closed) (he : s.err = .ok) (hn : 0 < n)
    (ho : o + n ≤ s.cfg.fifoCap) :
    ∃ m q j out l, Wrote o (leBytes n v) [(s.cfg.fifoBase + o, leBytes n v)] m q j out l s
      (doWrite (s.cfg.fifoBase + o) n v s).2 := by
  have hfi := c.fifo_in
  have ha : s.cfg.fifoBase + o < addrLimit := by omega
  obtain ⟨m, j, l, hd, hj, ht, hm, hjn, hw, htr⟩ := sendWrite_cases s.cfg
    (ghostWrite s.cfg (s.cfg.fifoBase + o) n v s.ghost).haz.any (BitVec.ofNat 22 (s.cfg.fifoBase + o)) (leBytes n v) s.env
    (openTx_of_closed hc)
  have hcl := (doWrite_acts (s.cfg.fifoBase + o) n v s hc ha).closed
  obtain ⟨g1, g2, g3, g4⟩ := ghostWrite_window c (a := s.cfg.fifoBase + o) (n := n) (v := v) hn (by omega) (by omega) s.ghost
  have hx : ∀ x, within (s.cfg.fifoBase + o) n (s.cfg.fifoBase + x) ↔ ∃ k < n, x = red s.cfg (o + k) := by
    intro x
    simp only [within]
    constructor
    · intro h
      exact ⟨x - o, by omega, by rw [red_of_lt (by omega)]; omega⟩
    · rintro ⟨k, hk, rfl⟩
      rw [red_of_lt (by omega)]
      omega
  have hov : (∃ x, within (s.cfg.fifoBase + o) n (s.cfg.fifoBase + x) ∧ inRing s.cfg x s.ghost.lastRP s.ghost.pubOff = true) ↔
      ∃ k < n, inRing s.cfg (red s.cfg (o + k)) s.ghost.lastRP s.ghost.pubOff = true := by
    simp only [hx]
    constructor
    · rintro ⟨x, ⟨k, hk, rfl⟩, h⟩
      exact ⟨k, hk, h⟩
    · rintro ⟨k, hk, h⟩
      exact ⟨_, ⟨k, hk, rfl⟩, h⟩
  rw [BitVec.toNat_ofNat, Nat.mod_eq_of_lt ha] at hm
  rw [leBytes_length] at hj hjn
  rw [doWrite_eq _ _ _ _ he] at hcl ⊢
  have hst : ∀ k < j, (sendWrite s.cfg (ghostWrite s.cfg (s.cfg.fifoBase + o) n v s.ghost).haz.any
      (BitVec.ofNat 22 (s.cfg.fifoBase + o)) (leBytes n v) s.env).2.mem.read (fifoAddr s.cfg o k) = (leBytes n v)[k]? := by
    intro k hk
    rw [fifoAddr_of_lt (by omega), hm, Memory.read_writeBytes_of_lt _ _ _ _ (by simp; omega) (by simp; omega),
      List.getElem?_take_of_lt hk]
  have hkp : MemKept s.cfg (onAppend s.cfg o j) s.env.mem (sendWrite s.cfg
      (ghostWrite s.cfg (s.cfg.fifoBase + o) n v s.ghost).haz.any (BitVec.ofNat 22 (s.cfg.fifoBase + o)) (leBytes n v)
        s.env).2.mem := by
    intro x hx hrp
    rw [hm, Memory.read_writeBytes_of_not_mem, hd.outside x hrp]
    rw [List.length_take, leBytes_length]
    by_contra hcon
    exact hx ⟨x - (s.cfg.fifoBase + o), by omega, by rw [fifoAddr_of_lt (by omega)]; omega⟩
  have hdi : ∀ x, x ∈ (ghostWrite s.cfg (s.cfg.fifoBase + o) n v s.ghost).dirty ↔
      x ∈ s.ghost.dirty ∨ ∃ k < n, x = red s.cfg (o + k) := fun x => by rw [g1, hx]
  have hoi : (ghostWrite s.cfg (s.cfg.fifoBase + o) n v s.ghost).haz.overrun = true ↔ s.ghost.haz.overrun = true ∨
      ∃ k < n, inRing s.cfg (red s.cfg (o + k)) s.ghost.lastRP s.ghost.pubOff = true := by rw [g2, hov]
  cases hout : (sendWrite s.cfg (ghostWrite s.cfg (s.cfg.fifoBase + o) n v s.ghost).haz.any
      (BitVec.ofNat 22 (s.cfg.fifoBase + o)) (leBytes n v) s.env).1 with
  | some r =>
    rw [hout] at htr hcl
    exact ⟨0, n, j, some r, l, ⟨by simpa using Sent.fails (ts := []) htr, hw, rfl, rfl, hcl, Nat.zero_le _, by omega,
      by simp, by simp, fun k hk _ => hst k hk, hkp, fun x => by rw [Nat.zero_add]; exact hdi x,
      by rw [Nat.zero_add]; exact hoi, g4, g3⟩⟩
  | none =>
    rw [hout] at htr hcl hjn
    have hs := Sent.cons htr Sent.nil
    rw [List.append_nil, leBytes_length] at hs
    exact ⟨n, 0, j, none, l, ⟨hs, hw, rfl, rfl, hcl, by rw [hjn rfl], by omega, by simp, fun _ => by simp, fun k hk _ => hst k hk, hkp, hdi, hoi, g4, g3⟩⟩

/-- The wrapped write. -/
theorem writeWrapped_wrote (o : Nat) (bs : List Byte) (s : State) (c : CfgFacts s.cfg) (hc : s.env.Closed) (he : s.err = .ok)
    (ho : o < s.cfg.fifoCap) (hb : 0 < bs.length) (hn : bs.length ≤ s.cfg.fifoCap) :
    ∃ n q j out l, Wrote o bs (wrapWrites s.cfg o bs) n q j out l s (writeWrapped o bs s).2 := by
  unfold writeWrapped wrapWrites
  dsimp only
  set t := tailLength s.cfg o bs.length with ht
  have htd : t = min bs.length (s.cfg.fifoCap - o) := ht
  have htl : (bs.take t).length = t := by rw [List.length_take]; omega
  have hdl : (bs.drop t).length = bs.length - t := List.length_drop
  obtain ⟨n, q, j, out, l, h⟩ := doWrite_wrote o t (fromLE (bs.take t)) s c hc he (by omega) (by omega)
  have hst := doWrite_status (s.cfg.fifoBase + o) t (fromLE (bs.take t)) s
  rw [leBytes_fromLE_of_length htl] at h
  by_cases hlt : t < bs.length
  · rw [if_pos hlt, if_pos hlt]
    cases out with
    | some r =>
      rw [hst, h.err]
      have := h.cut rfl rfl rfl (MarksKept.refl _) (bs.drop t) [(s.cfg.fifoBase, bs.drop t)]
      rw [List.take_append_drop] at this
      exact ⟨n, q, j, _, l, this⟩
    | none =>
      rw [hst, h.err]
      obtain ⟨n', q', j', out', l', h'⟩ := doWrite_wrote 0 (bs.length - t) (fromLE (bs.drop t)) _ (h.cfg.symm ▸ c) h.closed h.err
        (by omega) (by rw [h.cfg]; omega)
      rw [leBytes_fromLE_of_length hdl, h.cfg, Nat.add_zero] at h'
      have hr : red s.cfg (o + (bs.take t).length) = 0 := by
        rw [htl, show o + t = s.cfg.fifoCap by omega, red, Nat.mod_self]
      have := h.trans c (by rw [hr]; exact h')
      rw [List.take_append_drop] at this
      exact ⟨_, _, _, _, _, this⟩
  · rw [if_neg hlt, if_neg hlt]
    have htk : bs.take t = bs := List.take_of_length_le (by omega)
    rw [htk] at h ⊢
    exact ⟨n, q, j, out, l, h⟩

theorem fifoAppendHook_marks (s : State) : MarksKept s { s with ghost := fifoAppendHook s.cfg 4 s.ghost } := by
  refine ⟨by simp [fifoAppendHook], ?_, by simp [fifoAppendHook], by simp [fifoAppendHook]⟩
  show Hazards.has (Ghost.flagIf _ _ _).haz .overrun = _
  rw [Ghost.flagIf_has]
  simp [Hazards.has]

/-- Appends under a latched error send nothing, store nothing and mark nothing (70_reset_and_hazards.md R238). -/
theorem appendWords_poisoned (ws : List Word) (o : Nat) (s : State) (r : Reason) (h : s.err = .failed r) :
    (appendWords ws o s).2.err = s.err ∧ (appendWords ws o s).2.env = s.env ∧ (appendWords ws o s).2.cfg = s.cfg ∧
      MarksKept s (appendWords ws o s).2 := by
  induction ws generalizing o s with
  | nil => exact ⟨rfl, rfl, rfl, .refl s⟩
  | cons w ws ih =>
    have hw : (appendWord o w s).2 = { s with ghost := fifoAppendHook s.cfg 4 s.ghost } := by
      rw [appendWord_eq, writeWrapped]
      simp only
      rw [doWrite_poisoned _ _ _ _ r (by exact h)]
      simp
    rw [appendWords_cons, hw]
    obtain ⟨h1, h2, h3, h4⟩ := ih (nextOffset s.cfg o) { s with ghost := fifoAppendHook s.cfg 4 s.ghost } h
    exact ⟨h1, h2, h3, (fifoAppendHook_marks s).trans h4⟩

/-- The bytes of words, in order. -/
def wordsBytes (ws : List Word) : List Byte := ws.flatMap fun w => leBytes 4 w.toNat

theorem wordsBytes_cons (w : Word) (ws : List Word) : wordsBytes (w :: ws) = leBytes 4 w.toNat ++ wordsBytes ws := rfl

theorem wordsBytes_length (ws : List Word) : (wordsBytes ws).length = 4 * ws.length := by
  induction ws with
  | nil => rfl
  | cons w ws ih => rw [wordsBytes_cons, List.length_append, leBytes_length, ih, List.length_cons]; omega

theorem wordsBytes_getElem? (ws : List Word) (k : Nat) : (wordsBytes ws)[k]? = wordsByte ws k := by
  induction ws generalizing k with
  | nil => simp [wordsBytes, wordsByte]
  | cons w ws ih =>
    rw [wordsBytes_cons]
    by_cases hk : k < 4
    · rw [List.getElem?_append_left (by simpa using hk), leBytes_word w k hk, wordsByte, Nat.div_eq_of_lt hk,
        Nat.mod_eq_of_lt hk]
      rfl
    · rw [List.getElem?_append_right (by simpa using hk), leBytes_length, ih, wordsByte, wordsByte,
        show k / 4 = (k - 4) / 4 + 1 by omega, show k % 4 = (k - 4) % 4 by omega]
      rfl

/-- Appends, whatever the transport answers. -/
theorem appendWords_wrote (ws : List Word) (o : Nat) (s : State) (c : CfgFacts s.cfg) (hc : s.env.Closed) (he : s.err = .ok)
    (ho : o < s.cfg.fifoCap) :
    ∃ n q j out l, Wrote o (wordsBytes ws) (appendWrites s.cfg o ws) n q j out l s (appendWords ws o s).2 := by
  induction ws generalizing o s with
  | nil =>
    exact ⟨0, 0, 0, none, [], ⟨.nil, by simp [appendWords_nil], he, rfl, hc, le_refl _, le_refl _, Nat.zero_le _,
      fun _ => ⟨rfl, rfl⟩, fun k hk => absurd hk (Nat.not_lt_zero k), fun _ _ _ => rfl, fun x => by simp [appendWords_nil],
      by simp [appendWords_nil], rfl, rfl⟩⟩
  | cons w ws ih =>
    obtain ⟨n, q, j, out, l, h⟩ := writeWrapped_wrote o (leBytes 4 w.toNat) { s with ghost := fifoAppendHook s.cfg 4 s.ghost } c
      hc he ho (by simp) (by rw [leBytes_length]; exact c.cap_ge)
    have h := h.of_marks (fifoAppendHook_marks s)
    rw [← appendWord_eq] at h
    rw [appendWords_cons, wordsBytes_cons, appendWrites]
    cases out with
    | some r =>
      obtain ⟨p1, p2, p3, p4⟩ := appendWords_poisoned ws (nextOffset s.cfg o) (appendWord o w s).2 r h.err
      exact ⟨n, q, j, _, l, h.cut p1 p2 p3 p4 _ _⟩
    | none =>
      have hno : nextOffset s.cfg o < s.cfg.fifoCap := red_lt c.cap_pos _
      obtain ⟨n', q', j', out', l', h'⟩ := ih (nextOffset s.cfg o) (appendWord o w s).2 (h.cfg.symm ▸ c) h.closed h.err
        (h.cfg.symm ▸ hno)
      rw [h.cfg] at h'
      exact ⟨_, _, _, _, _, h.trans c (by rw [leBytes_length]; exact h')⟩

end Sys2Proof.Machine
end

