-- ==== Sys2Proof/Laws/NonInterference.lean ====
section
/-! SUPPORT. No operation reads the ghost state, nor what the consumer has read (10_state.md R38): from states that differ in
these alone, every operation ends in states that differ in these alone. What the consumer reads can differ only after a hazard
(70_reset_and_hazards.md R232). -/

namespace Sys2Proof.Machine

/-! ## The environment -/

/-- Two environments that differ at most in what the consumer reads. -/
def Env.Alike (e e' : Env) : Prop := e' = { e with reads := e'.reads }

theorem Env.Alike.refl (e : Env) : e.Alike e := rfl

theorem consumerStep_alike (cfg : Cfg) (y z : Bool) (n : Nat) {e e' : Env} (h : e.Alike e') :
    (consumerStep cfg y n e).Alike (consumerStep cfg z n e') := by
  unfold Env.Alike at h
  rw [h]
  simp only [consumerStep]
  cases e.mem.readLE cfg.regRP 4 with
  | none => rfl
  | some r =>
    cases e.mem.readLE cfg.regWP 4 with
    | none => rfl
    | some w => dsimp only; split_ifs <;> rfl

theorem gap_alike (cfg : Cfg) (y z : Bool) {e e' : Env} (h : e.Alike e') : (e.gap cfg y).Alike (e'.gap cfg z) := by
  have hm : e'.move = e.move := by rw [h]; rfl
  unfold Env.gap
  rw [hm]
  exact consumerStep_alike cfg y z _ (by unfold Env.Alike at h ⊢; rw [h]; rfl)

theorem consumerMoves_alike (cfg : Cfg) (y z : Bool) (ns : List Nat) {e e' : Env} (h : e.Alike e') :
    (consumerMoves cfg y ns e).Alike (consumerMoves cfg z ns e') := by
  induction ns generalizing e e' with
  | nil => exact h
  | cons n ns ih => exact ih (consumerStep_alike cfg y z n h)

theorem consumerStates_alike (cfg : Cfg) (y z : Bool) (ns : List Nat) {e e' : Env} (h : e.Alike e') :
    (consumerStates cfg z ns e').map Env.mem = (consumerStates cfg y ns e).map Env.mem := by
  have hm : ∀ {e e' : Env}, e.Alike e' → e'.mem = e.mem := fun h => by rw [h]
  induction ns generalizing e e' with
  | nil => simp [consumerStates, hm h]
  | cons n ns ih => simp [consumerStates, hm h, ih (consumerStep_alike cfg y z n h)]

theorem tornBytes_congr (d : CallDraw) (c : Nat) {es es' : List Env} {l l' : Env}
    (h : es'.map Env.mem = es.map Env.mem) (hl : l'.mem = l.mem) (a k n : Nat) :
    tornBytes d c es' l' a k n = tornBytes d c es l a k n := by
  have hg : ∀ i, (es'.getD i l').mem = (es.getD i l).mem := fun i => by
    have := congrArg (fun m : List Memory => m.getD i l.mem) h
    simp only [List.getD_eq_getElem?_getD, List.getElem?_map] at this ⊢
    cases h1 : es'[i]? <;> cases h2 : es[i]? <;> simp_all
  induction n generalizing k with
  | zero => rfl
  | succ n ih => simp only [tornBytes, hg, ih]

theorem deviceRead_alike (cfg : Cfg) (y z : Bool) (d : CallDraw) (tx : List Byte) (n : Nat) {e e' : Env} (h : e.Alike e') :
    (deviceRead cfg z d tx n e').1 = (deviceRead cfg y d tx n e).1 ∧
      (deviceRead cfg y d tx n e).2.Alike (deviceRead cfg z d tx n e').2 := by
  have hm : e'.mem = e.mem := by rw [h]
  have hc : e'.callNo = e.callNo := by rw [h]
  have hmv := consumerMoves_alike cfg y z d.during h
  unfold deviceRead
  cases decodeTransaction tx with
  | error x => exact ⟨rfl, h⟩
  | ok t =>
    cases t with
    | hostCommand c => exact ⟨rfl, h⟩
    | writeAccess a p => exact ⟨rfl, h⟩
    | readAccess a ds =>
      dsimp only
      split_ifs
      · exact ⟨by rw [hc]; exact tornBytes_congr _ _ (consumerStates_alike cfg y z _ h) (by rw [hmv]) _ _ _, hmv⟩
      · exact ⟨by rw [hm, hc], h⟩

theorem txWrite_alike (cfg : Cfg) (y z : Bool) (bs : List Byte) {e e' : Env} (h : e.Alike e') :
    (txWrite cfg z bs e').1 = (txWrite cfg y bs e).1 ∧ (txWrite cfg y bs e).2.Alike (txWrite cfg z bs e').2 := by
  have hg := gap_alike cfg y z h
  unfold Env.Alike at hg
  unfold txWrite
  rw [hg]
  generalize e.gap cfg y = g
  dsimp only
  cases hf : g.call.fails <;> simp only [Env.call] at hf <;> simp only [Env.call, hf] <;> exact ⟨trivial, rfl⟩

theorem txFlush_alike (cfg : Cfg) (y z : Bool) {e e' : Env} (h : e.Alike e') :
    (txFlush cfg z e').1 = (txFlush cfg y e).1 ∧ (txFlush cfg y e).2.Alike (txFlush cfg z e').2 := by
  have hg := gap_alike cfg y z h
  unfold Env.Alike at hg
  unfold txFlush
  rw [hg]
  generalize e.gap cfg y = g
  dsimp only
  cases hf : g.call.fails <;> simp only [Env.call] at hf <;> simp only [Env.call, hf] <;> exact ⟨trivial, rfl⟩

theorem txRead_alike (cfg : Cfg) (y z : Bool) (n : Nat) {e e' : Env} (h : e.Alike e') :
    (txRead cfg z n e').1 = (txRead cfg y n e).1 ∧ (txRead cfg y n e).2.Alike (txRead cfg z n e').2 := by
  have hg := gap_alike cfg y z h
  have hr := deviceRead_alike cfg y z (e.gap cfg y).call (e.gap cfg y).openTx n hg
  have hc : (e'.gap cfg z).call = (e.gap cfg y).call := by rw [hg]; rfl
  have ho : (e'.gap cfg z).openTx = (e.gap cfg y).openTx := by rw [hg]; rfl
  unfold txRead
  dsimp only
  rw [hc, ho]
  obtain ⟨h1, h2⟩ := hr
  cases (e.gap cfg y).call.fails with
  | none =>
    dsimp only
    rw [h1]
    refine ⟨rfl, ?_⟩
    unfold Env.Alike at h2
    rw [h2]
    rfl
  | some x =>
    refine ⟨rfl, ?_⟩
    unfold Env.Alike at hg
    rw [hg]
    rfl

theorem sendWrite_alike (cfg : Cfg) (y z : Bool) (a : DevAddr) (p : List Byte) {e e' : Env} (h : e.Alike e') :
    (sendWrite cfg z a p e').1 = (sendWrite cfg y a p e).1 ∧
      (sendWrite cfg y a p e).2.Alike (sendWrite cfg z a p e').2 := by
  obtain ⟨h1, k1⟩ := txWrite_alike cfg y z (hdr a .write) h
  obtain ⟨h2, k2⟩ := txWrite_alike cfg y z p k1
  obtain ⟨h3, k3⟩ := txFlush_alike cfg y z k2
  unfold sendWrite closeTx
  dsimp only
  rw [h1]
  cases (txWrite cfg y (hdr a .write) e).1 with
  | some x => exact ⟨rfl, k1⟩
  | none =>
    dsimp only
    rw [h2]
    cases (txWrite cfg y p (txWrite cfg y (hdr a .write) e).2).1 with
    | some x => exact ⟨rfl, k2⟩
    | none => exact ⟨by rw [h3], k3⟩

theorem sendCommand_alike (cfg : Cfg) (y z : Bool) (c : Byte) {e e' : Env} (h : e.Alike e') :
    (sendCommand cfg z c e').1 = (sendCommand cfg y c e).1 ∧
      (sendCommand cfg y c e).2.Alike (sendCommand cfg z c e').2 := by
  obtain ⟨h1, k1⟩ := txWrite_alike cfg y z [c] h
  obtain ⟨h3, k3⟩ := txFlush_alike cfg y z k1
  unfold sendCommand closeTx
  dsimp only
  rw [h1]
  cases (txWrite cfg y [c] e).1 with
  | some x => exact ⟨rfl, k1⟩
  | none => exact ⟨by rw [h3], k3⟩

theorem sendRead_alike (cfg : Cfg) (y z : Bool) (a : DevAddr) (n : Nat) {e e' : Env} (h : e.Alike e') :
    (sendRead cfg z a n e').1 = (sendRead cfg y a n e).1 ∧ (sendRead cfg y a n e).2.Alike (sendRead cfg z a n e').2 := by
  obtain ⟨h1, k1⟩ := txWrite_alike cfg y z (readRequestBytes cfg a) h
  obtain ⟨h2, k2⟩ := txRead_alike cfg y z n k1
  obtain ⟨h3, k3⟩ := txFlush_alike cfg y z k2
  unfold sendRead closeTx
  dsimp only
  rw [h1]
  cases (txWrite cfg y (readRequestBytes cfg a) e).1 with
  | some x => exact ⟨rfl, k1⟩
  | none =>
    dsimp only
    rw [h2]
    cases (txRead cfg y n (txWrite cfg y (readRequestBytes cfg a) e).2).1.2 with
    | some x => exact ⟨rfl, k2⟩
    | none =>
      dsimp only
      split_ifs
      · exact ⟨rfl, k2⟩
      · rw [h3]
        cases (txFlush cfg y (txRead cfg y n (txWrite cfg y (readRequestBytes cfg a) e).2).2).1 with
        | none => exact ⟨rfl, k3⟩
        | some x => exact ⟨rfl, k3⟩

/-! ## The state -/

/-- Two states that differ at most in what the block does not see; and, if `Q`, in what the consumer reads only after a
hazard. -/
structure State.Alike (Q : Prop) (s s' : State) : Prop where
  same : s' = s.withUnseen s'.ghost s'.env.reads
  reads : Q → s.ghost.haz = Hazards.none → s'.ghost.haz = Hazards.none → s'.env.reads = s.env.reads

theorem State.alike_withUnseen (s : State) (g : Ghost) (rd : ConsumerReads) :
    s.Alike (rd = s.env.reads) (s.withUnseen g rd) := ⟨rfl, fun h _ _ => h⟩

variable {Q : Prop} {s s' : State}

theorem State.Alike.cfg (h : s.Alike Q s') : s'.cfg = s.cfg := by rw [h.same]; rfl
theorem State.Alike.woff (h : s.Alike Q s') : s'.woff = s.woff := by rw [h.same]; rfl
theorem State.Alike.err (h : s.Alike Q s') : s'.err = s.err := by rw [h.same]; rfl
theorem State.Alike.fault (h : s.Alike Q s') : s'.fault = s.fault := by rw [h.same]; rfl
theorem State.Alike.reqIdx (h : s.Alike Q s') : s'.reqIdx = s.reqIdx := by rw [h.same]; rfl
theorem State.Alike.port (h : s.Alike Q s') : s'.port = s.port := by rw [h.same]; rfl
theorem State.Alike.env (h : s.Alike Q s') : s.env.Alike s'.env := by
  have := congrArg State.env h.same
  exact this

/-- States are alike where every seen field is the same. -/
theorem State.Alike.of_fields (h1 : s'.cfg = s.cfg) (h2 : s'.woff = s.woff) (h3 : s'.err = s.err) (h4 : s'.fault = s.fault)
    (h5 : s'.reqIdx = s.reqIdx) (h6 : s'.port = s.port) (h7 : s.env.Alike s'.env)
    (h8 : Q → s.ghost.haz = Hazards.none → s'.ghost.haz = Hazards.none → s'.env.reads = s.env.reads) : s.Alike Q s' := by
  refine ⟨?_, h8⟩
  obtain ⟨cfg, woff, err, fault, ri, gh, env, port⟩ := s
  obtain ⟨cfg', woff', err', fault', ri', gh', env', port'⟩ := s'
  simp only at h1 h2 h3 h4 h5 h6
  subst h1 h2 h3 h4 h5 h6
  simp only [State.withUnseen, State.mk.injEq, true_and, and_true]
  exact h7

theorem Hazards.eq_none_of_le {z z' : Hazards} (h : ∀ x, z.has x = true → z'.has x = true) (hz : z' = Hazards.none) :
    z = Hazards.none := by
  subst hz
  have hx : ∀ x, z.has x = false := fun x => by
    rw [← Bool.not_eq_true]
    intro hx
    have := h x hx
    cases x <;> cases this
  obtain ⟨a, b, c, d, e, f, g⟩ := z
  have h1 := hx .overrun; have h2 := hx .full; have h3 := hx .unwritten; have h4 := hx .rpUnexpected
  have h5 := hx .wpReadback; have h6 := hx .ptrAliased; have h7 := hx .dlOverflow
  simp only [Hazards.has] at h1 h2 h3 h4 h5 h6 h7
  subst h1 h2 h3 h4 h5 h6 h7
  rfl

theorem Hazards.any_none : Hazards.none.any = false := by decide

/-- Bookkeeping that forgets no hazard keeps states alike. -/
theorem State.Alike.ghost (h : s.Alike Q s') (f : Ghost → Ghost)
    (hf : ∀ g x, g.haz.has x = true → (f g).haz.has x = true) :
    State.Alike Q { s with ghost := f s.ghost } { s' with ghost := f s'.ghost } :=
  .of_fields h.cfg h.woff h.err h.fault h.reqIdx h.port h.env fun hq h1 h2 =>
    h.reads hq (Hazards.eq_none_of_le (hf _) h1) (Hazards.eq_none_of_le (hf _) h2)

/-- Returning keeps states alike. -/
theorem State.Alike.complete (h : s.Alike Q s') (st : Status) (v : Value) :
    (s.complete st v).Alike Q (s'.complete st v) :=
  .of_fields h.cfg h.woff h.err h.fault (by simp [h.reqIdx]) (by simp [h.port]) h.env h.reads

theorem State.Alike.clearErr (h : s.Alike Q s') : s.clearErr.Alike Q s'.clearErr :=
  .of_fields h.cfg h.woff rfl h.fault h.reqIdx h.port h.env h.reads

theorem State.Alike.raiseFault (h : s.Alike Q s') (f : FaultRec) : (s.raiseFault f).Alike Q (s'.raiseFault f) := by
  unfold State.raiseFault
  rw [h.fault]
  cases s.fault with
  | none => exact .of_fields h.cfg h.woff h.err rfl h.reqIdx h.port h.env h.reads
  | some x => exact h

/-- The consumer's turn keeps states alike. -/
theorem State.Alike.between (h : s.Alike Q s') : s.between.Alike Q s'.between := by
  refine .of_fields h.cfg h.woff h.err h.fault h.reqIdx h.port
    (by rw [State.between_env, State.between_env, h.cfg]; exact gap_alike _ _ _ h.env) fun hq h1 h2 => ?_
  have he : s'.env = s.env := by
    have := h.env
    unfold Env.Alike at this
    rw [this, h.reads hq h1 h2]
  rw [State.between_ghost] at h1 h2
  rw [State.between_env, State.between_env, he, h.cfg, h1, h2]

theorem State.Alike.env_eq (h : s.Alike Q s') (hq : Q) (h1 : s.ghost.haz = Hazards.none) (h2 : s'.ghost.haz = Hazards.none) :
    s'.env = s.env := by
  have := h.env
  unfold Env.Alike at this
  rw [this, h.reads hq h1 h2]

theorem doWrite_alike (a n v : Nat) (h : s.Alike Q s') :
    (doWrite a n v s').1 = (doWrite a n v s).1 ∧ (doWrite a n v s).2.Alike Q (doWrite a n v s').2 := by
  cases he : s.err with
  | failed r =>
    rw [doWrite_poisoned _ _ _ _ r he, doWrite_poisoned _ _ _ _ r (h.err.trans he)]
    exact ⟨rfl, h⟩
  | ok =>
    rw [doWrite_eq _ _ _ _ he, doWrite_eq _ _ _ _ (h.err.trans he), h.cfg]
    obtain ⟨h1, h2⟩ := sendWrite_alike s.cfg (ghostWrite s.cfg a n v s.ghost).haz.any
      (ghostWrite s.cfg a n v s'.ghost).haz.any (BitVec.ofNat 22 a) (leBytes n v) h.env
    rw [h1]
    refine ⟨rfl, .of_fields rfl h.woff rfl h.fault h.reqIdx h.port h2 fun hq k1 k2 => ?_⟩
    simp only at k1 k2 ⊢
    rw [k1, k2, h.env_eq hq (Hazards.eq_none_of_le (fun x hx => ghostWrite_haz _ _ _ _ _ _ hx) k1)
      (Hazards.eq_none_of_le (fun x hx => ghostWrite_haz _ _ _ _ _ _ hx) k2)]

theorem doRead_alike (a n : Nat) (h : s.Alike Q s') :
    (doRead a n s').1 = (doRead a n s).1 ∧ (doRead a n s).2.Alike Q (doRead a n s').2 := by
  cases he : s.err with
  | failed r =>
    rw [doRead_poisoned _ _ _ r he, doRead_poisoned _ _ _ r (h.err.trans he)]
    exact ⟨rfl, h⟩
  | ok =>
    obtain ⟨h1, h2⟩ := sendRead_alike s.cfg s.ghost.haz.any s'.ghost.haz.any (BitVec.ofNat 22 a) n h.env
    rw [← h.cfg] at h1
    cases hr : (sendRead s.cfg s.ghost.haz.any (BitVec.ofNat 22 a) n s.env).1 with
    | error r =>
      rw [doRead_error _ _ _ he r hr, doRead_error _ _ _ (h.err.trans he) r (by rw [h1, h.cfg, hr])]
      refine ⟨rfl, .of_fields h.cfg h.woff rfl h.fault h.reqIdx h.port (by rw [h.cfg]; exact h2) fun hq k1 k2 => ?_⟩
      simp only at k1 k2 ⊢
      rw [k1, k2, h.env_eq hq k1 k2, h.cfg]
    | ok got =>
      rw [doRead_ok _ _ _ he got hr, doRead_ok _ _ _ (h.err.trans he) got (by rw [h1, h.cfg, hr])]
      refine ⟨rfl, .of_fields h.cfg h.woff (h.err) h.fault h.reqIdx h.port (by rw [h.cfg]; exact h2) fun hq k1 k2 => ?_⟩
      have j1 := Hazards.eq_none_of_le (fun x hx => ghostRead_haz _ _ _ _ _ _ hx) k1
      have j2 := Hazards.eq_none_of_le (fun x hx => ghostRead_haz _ _ _ _ _ _ hx) k2
      simp only
      rw [j1, j2, h.env_eq hq j1 j2, h.cfg]

theorem doCommand_alike (c : Byte) (h : s.Alike Q s') :
    (doCommand c s').1 = (doCommand c s).1 ∧ (doCommand c s).2.Alike Q (doCommand c s').2 := by
  unfold doCommand
  rw [h.err]
  cases he : s.err with
  | failed r => exact ⟨rfl, h⟩
  | ok =>
    dsimp only
    rw [accessed_eq _ _ he, accessed_eq _ _ (h.err.trans he), h.cfg]
    obtain ⟨h1, h2⟩ := sendCommand_alike s.cfg s.ghost.haz.any s'.ghost.haz.any c h.env
    rw [h1]
    refine ⟨rfl, .of_fields rfl h.woff rfl h.fault h.reqIdx h.port h2 fun hq k1 k2 => ?_⟩
    simp only at k1 k2 ⊢
    rw [k1, k2, h.env_eq hq k1 k2]

theorem writeWrapped_alike (o : Nat) (bs : List Byte) (h : s.Alike Q s') :
    (writeWrapped o bs s').1 = (writeWrapped o bs s).1 ∧ (writeWrapped o bs s).2.Alike Q (writeWrapped o bs s').2 := by
  unfold writeWrapped
  dsimp only
  rw [h.cfg]
  obtain ⟨h1, h2⟩ := doWrite_alike (s.cfg.fifoBase + o) (tailLength s.cfg o bs.length)
    (fromLE (bs.take (tailLength s.cfg o bs.length))) h
  rw [h1]
  split_ifs
  · cases (doWrite (s.cfg.fifoBase + o) (tailLength s.cfg o bs.length)
        (fromLE (bs.take (tailLength s.cfg o bs.length))) s).1 with
    | ok => exact doWrite_alike _ _ _ h2
    | err x => exact ⟨rfl, h2⟩
    | timeout => exact ⟨rfl, h2⟩
  · exact ⟨h1, h2⟩

theorem appendWord_alike (o : Nat) (w : Word) (h : s.Alike Q s') :
    (appendWord o w s').1 = (appendWord o w s).1 ∧ (appendWord o w s).2.Alike Q (appendWord o w s').2 := by
  have hg : fifoAppendHook s'.cfg 4 s'.ghost = fifoAppendHook s.cfg 4 s'.ghost := by rw [h.cfg]
  rw [appendWord_eq, appendWord_eq, hg]
  exact writeWrapped_alike o _ (h.ghost (fifoAppendHook s.cfg 4) fun g x hx => fifoAppendHook_haz _ _ _ _ hx)

theorem appendWords_alike (ws : List Word) (o : Nat) (h : s.Alike Q s') :
    (appendWords ws o s').1 = (appendWords ws o s).1 ∧ (appendWords ws o s).2.Alike Q (appendWords ws o s').2 := by
  induction ws generalizing o s s' with
  | nil => exact ⟨rfl, h⟩
  | cons w ws ih =>
    rw [appendWords_cons, appendWords_cons, h.cfg]
    exact ih _ (appendWord_alike o w h).2

theorem returnAppend_alike (st : Status) (o : Nat) (h : s.Alike Q s') :
    (returnAppend st o s).Alike Q (returnAppend st o s') :=
  .of_fields h.cfg rfl h.err h.fault (by simp [returnAppend, h.reqIdx]) (by simp [returnAppend, h.port]) h.env h.reads

theorem startOffset_alike (off : Option Word) (h : s.Alike Q s') : startOffset off s' = startOffset off s := by
  unfold startOffset
  rw [h.cfg, h.woff]

theorem appendAll_alike (off : Option Word) (ws : List Word) (h : s.Alike Q s') :
    (appendAll off ws s).Alike Q (appendAll off ws s') := by
  unfold appendAll
  rw [startOffset_alike off h]
  obtain ⟨h1, h2⟩ := appendWords_alike ws (startOffset off s) h
  dsimp only
  rw [h1, h2.err]
  exact returnAppend_alike _ _ h2

theorem pollAgain_alike (d : Option Nat) (h : s.Alike Q s') : (pollAgain d s).Alike Q (pollAgain d s') := by
  have he := h.env
  unfold Env.Alike at he
  have hx : s'.env.expired d = s.env.expired d := by rw [he]; rfl
  have hp : State.Alike Q { s with env := s.env.popTick } { s' with env := s'.env.popTick } :=
    .of_fields h.cfg h.woff h.err h.fault h.reqIdx h.port (by unfold Env.Alike; rw [he]; rfl) h.reads
  unfold pollAgain
  dsimp only
  rw [hx]
  split_ifs
  · exact hp.complete _ _
  · exact hp

theorem waitOffsetPass_alike (e : Nat) (d : Option Nat) (h : s.Alike Q s') :
    (waitOffsetPass e d s).Alike Q (waitOffsetPass e d s') := by
  unfold waitOffsetPass pollPtr
  dsimp only
  rw [h.cfg]
  obtain ⟨h1, h2⟩ := doRead_alike s.cfg.regRP (ptrBytes s.cfg) h
  rw [h1]
  cases (doRead s.cfg.regRP (ptrBytes s.cfg) s).1.1 with
  | ok => dsimp only; split_ifs; exacts [h2.complete _ _, pollAgain_alike d h2]
  | err x => exact h2.complete _ _
  | timeout => exact h2.complete _ _

theorem waitEmptyPass_alike (d : Option Nat) (h : s.Alike Q s') : (waitEmptyPass d s).Alike Q (waitEmptyPass d s') := by
  unfold waitEmptyPass pollPtr
  dsimp only
  rw [h.cfg]
  obtain ⟨h1, h2⟩ := doRead_alike s.cfg.regRP (ptrBytes s.cfg) h
  rw [h1]
  generalize doRead s.cfg.regRP (ptrBytes s.cfg) s = p at *
  cases p.1.1 with
  | ok =>
    dsimp only
    rw [h2.cfg]
    obtain ⟨h3, h4⟩ := doRead_alike p.2.cfg.regWP (ptrBytes p.2.cfg) h2
    rw [h3]
    cases (doRead p.2.cfg.regWP (ptrBytes p.2.cfg) p.2).1.1 with
    | ok => dsimp only; split_ifs; exacts [h4.complete _ _, pollAgain_alike d h4]
    | err x => exact h4.complete _ _
    | timeout => exact h4.complete _ _
  | err x => exact h2.complete _ _
  | timeout => exact h2.complete _ _

theorem unlessPoisoned_alike {b b' : State} (h : s.Alike Q s') (hb : b.Alike Q b') :
    (unlessPoisoned s b).Alike Q (unlessPoisoned s' b') := by
  unfold unlessPoisoned
  rw [h.err]
  cases s.err with
  | ok => exact hb
  | failed r => exact h.complete _ _

/-- A checked operation keeps states alike. -/
theorem checked_alike (f : Option FaultRec) {b b' : State} (h : s.Alike Q s') (hb : b.Alike Q b') :
    ∃ t t', checked f s b = .next t ∧ checked f s' b' = .next t' ∧ t.Alike Q t' := by
  cases f with
  | none => exact ⟨b, b', rfl, rfl, hb⟩
  | some x => exact ⟨_, _, rfl, rfl, h.raiseFault x⟩

end Sys2Proof.Machine
end

