-- ==== Sys2Proof/Laws/PerInstr.lean ====
section
/-! SUPPORT. Statements about every instruction as syntax, one lemma per constructor. -/

namespace Sys2Proof.Laws

/-- An operation's request carries its op code, and that op code is a row of the opcode table (30_encoding.md R110). -/
def OpcodeInTable.Statement (i : Instr) : Prop := (encode i).op = i.opcode ∧ i.opcode.toNat < 16

theorem OpcodeInTable.rd8 (addr : Word) :
    OpcodeInTable.Statement (.rd8 addr) :=
  ⟨rfl, show (0x00 : BitVec 5).toNat < 16 by decide⟩

theorem OpcodeInTable.rd16 (addr : Word) :
    OpcodeInTable.Statement (.rd16 addr) :=
  ⟨rfl, show (0x01 : BitVec 5).toNat < 16 by decide⟩

theorem OpcodeInTable.rd32 (addr : Word) :
    OpcodeInTable.Statement (.rd32 addr) :=
  ⟨rfl, show (0x02 : BitVec 5).toNat < 16 by decide⟩

theorem OpcodeInTable.wr8 (addr data : Word) :
    OpcodeInTable.Statement (.wr8 addr data) :=
  ⟨rfl, show (0x03 : BitVec 5).toNat < 16 by decide⟩

theorem OpcodeInTable.wr16 (addr data : Word) :
    OpcodeInTable.Statement (.wr16 addr data) :=
  ⟨rfl, show (0x04 : BitVec 5).toNat < 16 by decide⟩

theorem OpcodeInTable.wr32 (addr data : Word) :
    OpcodeInTable.Statement (.wr32 addr data) :=
  ⟨rfl, show (0x05 : BitVec 5).toNat < 16 by decide⟩

theorem OpcodeInTable.hostcmd (code : Word) :
    OpcodeInTable.Statement (.hostcmd code) :=
  ⟨rfl, show (0x06 : BitVec 5).toNat < 16 by decide⟩

theorem OpcodeInTable.errq :
    OpcodeInTable.Statement .errq :=
  ⟨rfl, show (0x07 : BitVec 5).toNat < 16 by decide⟩

theorem OpcodeInTable.errclr :
    OpcodeInTable.Statement .errclr :=
  ⟨rfl, show (0x08 : BitVec 5).toNat < 16 by decide⟩

theorem OpcodeInTable.dlappend (off word : Word) :
    OpcodeInTable.Statement (.dlappend off word) :=
  ⟨rfl, show (0x09 : BitVec 5).toNat < 16 by decide⟩

theorem OpcodeInTable.fifoWord (off : Option Word) (word : Word) :
    OpcodeInTable.Statement (.fifoWord off word) :=
  ⟨rfl, show (0x0A : BitVec 5).toNat < 16 by decide⟩

theorem OpcodeInTable.fifoCmd (off : Option Word) (opcode : Word) (words : List Word) :
    OpcodeInTable.Statement (.fifoCmd off opcode words) :=
  ⟨rfl, show (0x0B : BitVec 5).toNat < 16 by decide⟩

theorem OpcodeInTable.fifoText (off : Option Word) (x y : Int) (font options : Nat) (text : List Byte) :
    OpcodeInTable.Statement (.fifoText off x y font options text) :=
  ⟨rfl, show (0x0C : BitVec 5).toNat < 16 by decide⟩

theorem OpcodeInTable.fifoPublish (value : Option Word) :
    OpcodeInTable.Statement (.fifoPublish value) :=
  ⟨rfl, show (0x0D : BitVec 5).toNat < 16 by decide⟩

theorem OpcodeInTable.fifoWaitEmpty (deadline : Option Nat) :
    OpcodeInTable.Statement (.fifoWaitEmpty deadline) :=
  ⟨rfl, show (0x0E : BitVec 5).toNat < 16 by decide⟩

theorem OpcodeInTable.fifoWaitOffset (expected : Option Word) (deadline : Option Nat) :
    OpcodeInTable.Statement (.fifoWaitOffset expected deadline) :=
  ⟨rfl, show (0x0F : BitVec 5).toNat < 16 by decide⟩

end Sys2Proof.Laws
end

