-- ==== Sys2Proof/Laws/Polling.lean ====
section
/-! SUPPORT. The laws of polling (43_fifo_sync.md R190, R191). -/

namespace Sys2Proof.Machine

theorem Env.peekTick_popTick (e : Env) (k : Nat) : e.popTick.peekTick k = e.peekTick (k + 1) := by
  unfold Env.peekTick
  have h : e.tickNo + 1 + k = e.tickNo + (k + 1) := by omega
  cases hc : e.ticks with
  | nil => simp [hc, h, Env.popTick]
  | cons d ds => simp [hc, h, Env.popTick]

theorem Env.expired_iff (d : Option Nat) (e : Env) : Env.expired d e = true ↔
    ((e.peekTick 0).cancel = true ∨ ∃ t, d = some t ∧ t ≤ e.clock + (e.peekTick 0).tick) := by
  unfold Env.expired
  rw [Env.tick_eq_peekTick]
  cases d <;> simp

theorem EnvKept.expired (d : Option Nat) {cfg : Cfg} {e e' : Env} (h : EnvKept cfg e e') :
    Env.expired d e' = Env.expired d e := by
  unfold Env.expired Env.tick
  rw [h.clock, h.ticks, h.tickNo]

theorem EnvKept.tick {cfg : Cfg} {e e' : Env} (h : EnvKept cfg e e') : e'.tick = e.tick := by
  unfold Env.tick; rw [h.ticks, h.tickNo]

/-- What testing the bound does after a poll that did not meet the condition. -/
theorem pollAgain_spec (d : Option Nat) {P} {s s1 : State} (hA : Acts P s s1) (he : s1.err = .ok) :
    (pollAgain d s1).err = .ok ∧ (pollAgain d s1).ghost = s1.ghost ∧ (pollAgain d s1).woff = s.woff ∧
        (pollAgain d s1).env.mem = s1.env.mem ∧
    (pollAgain d s1).env.wire = s1.env.wire ∧
    (pollAgain d s1).env.clock = s.env.clock + (s.env.peekTick 0).tick ∧
    (((s.env.peekTick 0).cancel = true ∨ ∃ t, d = some t ∧ t ≤ s.env.clock + (s.env.peekTick 0).tick) →
        s.Returns (pollAgain d s1) .timeout .absent) ∧
    (¬((s.env.peekTick 0).cancel = true ∨ ∃ t, d = some t ∧ t ≤ s.env.clock + (s.env.peekTick 0).tick) →
        s.Polls (pollAgain d s1)) := by
  have hx := EnvKept.expired d hA.kept
  have hck : s1.env.popTick.clock = s.env.clock + (s.env.peekTick 0).tick := by
    show s1.env.clock + s1.env.tick.tick = _
    rw [hA.kept.clock, EnvKept.tick hA.kept, Env.tick_eq_peekTick]
  rw [← Env.expired_iff]
  unfold pollAgain
  dsimp only
  rw [hx]
  by_cases h : Env.expired d s.env = true
  · rw [if_pos h]
    refine ⟨he, rfl, hA.woff, rfl, rfl, hck, fun _ => ?_, fun h' => absurd h h'⟩
    exact Acts.returns_with hA s1.woff s1.env.popTick _ _
  · rw [if_neg h]
    refine ⟨he, rfl, hA.woff, rfl, rfl, hck, fun h' => absurd h' h, fun _ => ⟨hA.port, hA.reqIdx, hA.cfg, hA.fault⟩⟩

theorem pollAgain_env (d : Option Nat) (s : State) : (pollAgain d s).env = s.env.popTick := by
  unfold pollAgain
  dsimp only
  split_ifs <;> rfl

theorem pollAgain_never {s s1 : State} {P} (hA : Acts P s s1) (n : Nat) (hn : s.env.neverCancelled (n + 1)) :
    pollAgain none s1 = { s1 with env := s1.env.popTick } := by
  unfold pollAgain
  dsimp only
  rw [if_neg]
  rw [EnvKept.expired _ hA.kept, Env.expired_iff]
  simp [hn 0 (by omega)]

theorem ReadTrace.length_eq {h n got l} (t : ReadTrace h n (.ok got) l) : got.length = n := by cases t; assumption

theorem mayTear_of_atomic {cfg : Cfg} (h : cfg.atomicPtrRead = true) (a n : Nat) : mayTear cfg a n = false :=
    by simp [mayTear, h]

/-! ## A consumer that stalls -/

theorem Env.move_eq_peekMove (e : Env) : e.move = e.peekMove 0 := by
  unfold Env.move Env.peekMove
  cases e.moves <;> rfl

theorem Env.peekMove_popMove (e : Env) (k : Nat) : e.popMove.peekMove k = e.peekMove (k + 1) := by
  unfold Env.peekMove
  have h : e.moveNo + 1 + k = e.moveNo + (k + 1) := by omega
  cases hc : e.moves with
  | nil => simp [hc, h]
  | cons d ds => simp [hc, h]

theorem Env.peekMove_congr {e e' : Env} (h1 : e'.moves = e.moves) (h2 : e'.moveNo = e.moveNo) (k : Nat) :
    e'.peekMove k = e.peekMove k := by
  simp only [Env.peekMove, h1, h2]

/-- A consumer that is asked to move by 0 takes no step. -/
theorem Env.gap_stalled (cfg : Cfg) (z : Bool) (e : Env) (h : e.peekMove 0 = 0) : e.gap cfg z = e.popMove := by
  rw [← Env.move_eq_peekMove] at h
  unfold Env.gap consumerStep
  rw [h]
  split
  · rw [if_neg (by omega)]
  · rfl

/-- A read transaction of bytes that hold a value, with a transport that works and a consumer that stalls. -/
theorem sendRead_stalled (cfg : Cfg) (z : Bool) (a : DevAddr) (n v : Nat) (e : Env) (ho : e.openTx = []) (hw : e.works 3)
    (hm : ∀ k < 3, e.peekMove k = 0) (ht : mayTear cfg a.toNat n = false) (hv : e.mem.readLE a.toNat n = some v) :
    (sendRead cfg z a n e).1 = .ok (leBytes n v) ∧ (sendRead cfg z a n e).2.mem = e.mem ∧
      ∀ k, (sendRead cfg z a n e).2.peekMove k = e.peekMove (k + 3) := by
  obtain ⟨hw0, -⟩ := hw 0 (by omega)
  obtain ⟨hw1, hc1⟩ := hw 1 (by omega)
  obtain ⟨hw2, -⟩ := hw 2 (by omega)
  have h1 : txWrite cfg z (readRequestBytes cfg a) e = (none, { e.popMove.logCall (.write (readRequestBytes cfg a) none) with
      tx := readRequestBytes cfg a, txFailed := false }) := by
    rw [← Env.call_eq_peekCall] at hw0
    have hw0' : e.popMove.call.fails = none := hw0
    unfold txWrite
    rw [Env.gap_stalled _ _ _ (hm 0 (by omega))]
    have ho' : e.popMove.openTx = [] := ho
    simp only [hw0', ho', List.nil_append]
  set e1 : Env := { e.popMove.logCall (.write (readRequestBytes cfg a) none) with
      tx := readRequestBytes cfg a, txFailed := false } with he1
  have hp1 : ∀ k, e1.peekCall k = e.peekCall (k + 1) := fun k => by
    rw [← Env.peekCall_popCall]
    exact Env.peekCall_congr rfl rfl k
  have hm1 : ∀ k, e1.peekMove k = e.peekMove (k + 1) := fun k => by
    rw [← Env.peekMove_popMove]
    exact Env.peekMove_congr rfl rfl k
  have h2 : txRead cfg z n e1 = ((leBytes n v, none), { e1.popMove.logCall (.read n (leBytes n v) none) with
      tx := readRequestBytes cfg a, txFailed := false }) := by
    have hcall : e1.popMove.call = e.peekCall 1 := by
      show e1.call = _
      rw [Env.call_eq_peekCall, hp1]
    have ho1 : e1.popMove.openTx = readRequestBytes cfg a := rfl
    have hd : deviceRead cfg z (e.peekCall 1) (readRequestBytes cfg a) n e1.popMove = (leBytes n v, e1.popMove) := by
      have hdec : decodeTransaction (readRequestBytes cfg a) = .ok (.readAccess a (List.replicate cfg.dummyBytes cfg.dummyValue)) :=
        decodeTransaction_read a _
      have hb := deviceBytes_of_readLE (e.peekCall 1) e1.popMove.callNo e.mem a.toNat n v hv
      unfold deviceRead
      rw [hdec]
      simp only [ht, Bool.false_eq_true, if_false]
      exact Prod.ext hb rfl
    unfold txRead
    rw [Env.gap_stalled _ _ _ (by rw [hm1]; exact hm 1 (by omega))]
    simp only [hcall, hw1, hc1, ho1, hd]
    simp [shortRead]
  set e2 : Env := { e1.popMove.logCall (.read n (leBytes n v) none) with
      tx := readRequestBytes cfg a, txFailed := false } with he2
  have hm2 : ∀ k, e2.peekMove k = e.peekMove (k + 2) := fun k => by
    rw [← hm1 (k + 1), ← Env.peekMove_popMove]
    exact Env.peekMove_congr rfl rfl k
  have h3 : txFlush cfg z e2 = (none, { e2.popMove.logCall (.flush none) with tx := [], txFailed := false }) := by
    have hcall : e2.popMove.call.fails = none := by
      show e2.call.fails = none
      rw [Env.call_eq_peekCall, show e2.peekCall 0 = e.peekCall 2 from ?_, hw2]
      rw [← hp1 1, ← Env.peekCall_popCall]
      exact Env.peekCall_congr rfl rfl 0
    have hcm : deviceCommit (readRequestBytes cfg a) e2.popMove.mem = e2.popMove.mem := deviceCommit_read a _ _
    unfold txFlush
    rw [Env.gap_stalled _ _ _ (by rw [hm2]; exact hm 2 (by omega))]
    simp only [hcall, show e2.popMove.openTx = readRequestBytes cfg a from rfl, hcm]
    rfl
  have hs : sendRead cfg z a n e = (.ok (leBytes n v), { e2.popMove.logCall (.flush none) with tx := [], txFailed := false }) := by
    unfold sendRead closeTx
    simp only [h1, h2, h3, shortRead, leBytes_length, lt_irrefl, decide_false, Bool.false_eq_true, if_false, Option.map_none]
  rw [hs]
  refine ⟨rfl, rfl, fun k => ?_⟩
  rw [← hm2 (k + 1), ← Env.peekMove_popMove]
  exact Env.peekMove_congr rfl rfl k

/-- A poll of a register that holds a value, with a transport that works and a consumer that stalls. -/
theorem pollPtr_stalled (reg v : Nat) (s : State) (hi : s.Inv) (he : s.err = .ok) (hat : s.cfg.atomicPtrRead = true)
    (hr : reg < addrLimit) (hw : s.env.works 3) (hm : ∀ k < 3, s.env.peekMove k = 0)
    (hv : s.env.mem.readLE reg 4 = some v) :
    (pollPtr reg s).1 = (.ok, BitVec.ofNat 32 v) ∧ (pollPtr reg s).2.env.mem = s.env.mem ∧
      ∀ k, (pollPtr reg s).2.env.peekMove k = s.env.peekMove (k + 3) := by
  have c := cfgFacts hi.configured
  have htn : (BitVec.ofNat 22 reg).toNat = reg := by
    rw [BitVec.toNat_ofNat]
    exact Nat.mod_eq_of_lt hr
  obtain ⟨h1, h2, h3⟩ := sendRead_stalled s.cfg s.ghost.haz.any (BitVec.ofNat 22 reg) 4 v s.env (openTx_of_closed hi.tx_closed)
    hw hm (mayTear_of_atomic hat _ _) (by rw [htn]; exact hv)
  unfold pollPtr
  rw [CfgFacts.ptrBytes_eq c, doRead_ok _ _ _ he _ h1]
  have hl : v < 256 ^ 4 := ((Memory.readLE_eq_some_iff _ _ _ _).1 hv).1
  exact ⟨by rw [fromLE_leBytes, Nat.mod_eq_of_lt hl], h2, h3⟩

/-- A poll with a transport that works and atomic pointer reads. -/
theorem pollPtr_works (reg : Nat) (s : State) (hi : s.Inv) (he : s.err = .ok) (hat : s.cfg.atomicPtrRead = true)
    (hr : reg < addrLimit) (hw : s.env.works 3) :
    ∃ m1 got, Drift s.cfg s.env.mem m1 ∧ got.length = 4 ∧ pollPtr reg s = ((.ok, BitVec.ofNat 32 (fromLE got)),
        (pollPtr reg s).2) ∧
      (pollPtr reg s).2.err = .ok ∧ Drift s.cfg m1 (pollPtr reg s).2.env.mem ∧
      (pollPtr reg s).2.env.wire = s.env.wire ++ [.write (readRequestBytes s.cfg (BitVec.ofNat 22 reg)) none,
          .read 4 got none, .flush none] ∧
      (∀ k, (pollPtr reg s).2.env.peekCall k = s.env.peekCall (k + 3)) ∧
      (∀ v, m1.readLE reg 4 = some v → got = leBytes 4 v) := by
  have c := cfgFacts hi.configured
  unfold pollPtr
  rw [CfgFacts.ptrBytes_eq c]
  obtain ⟨m1, m2, got, d1, d2, hl, hv, h1, h2, h3, h4, h5, h6, h7, h8, -⟩ := doRead_works reg 4 s hi.tx_closed he hr hw
  exact ⟨m1, got, d1, hl, by rw [← hv], h1, by rw [h2]; exact d2, h4, h7, h8 (mayTear_of_atomic hat _ _)⟩

end Sys2Proof.Machine
end

