-- ==== Sys2Proof/Machine/Assembler.lean ====
section
/-! DEFINITION. The spec's assembly syntax for requests and its pseudo-instruction (30_encoding.md R118, R119): one line of text
to the requests it stands for. The details the rule leaves open are log 21. -/

namespace Sys2Proof.Machine

/-! ## Tokens -/

/-- A token of a line. -/
inductive Tok
  | name (cs : List Char)
  | num (n : Nat)
  | str (bs : List Byte)
  | sign
  | comma
  | atSign
  | equals
  deriving DecidableEq, Repr

/-- What the scanner is in the middle of; the characters or bytes read so far stand last first. -/
inductive Scan
  | between
  | inName (acc : List Char)
  | inStr (acc : List Byte)
  | escape (acc : List Byte)
  | hexHigh (acc : List Byte)
  | hexLow (acc : List Byte) (hi : Nat)
  deriving DecidableEq, Repr

/-- A letter, a digit, `_` or `.`. -/
def isNameChar (c : Char) : Bool := c.isAlphanum || c.toNat = 95 || c.toNat = 46

/-- The value of a hexadecimal digit. -/
def hexDigit (c : Char) : Option Nat :=
  let n := c.toNat
  if 48 ≤ n ∧ n ≤ 57 then some (n - 48)
  else if 65 ≤ n ∧ n ≤ 70 then some (n - 55)
  else if 97 ≤ n ∧ n ≤ 102 then some (n - 87)
  else none

/-- The number the digits of base `b` stand for, continuing from `acc`. -/
def digits (b : Nat) : Nat → List Char → Option Nat
  | acc, [] => some acc
  | acc, c :: cs =>
    match hexDigit c with
    | some d => if d < b then digits b (b * acc + d) cs else none
    | none => none

/-- A decimal number, or a hexadecimal one after `0x` (30_encoding.md R118). -/
def number (cs : List Char) : Option Nat :=
  match cs with
  | [] => none
  | '0' :: 'x' :: [] => none
  | '0' :: 'x' :: ds => digits 16 0 ds
  | ds => digits 10 0 ds

/-- The token a run of name characters stands for: a number if it begins with a digit. -/
def nameTok (cs : List Char) : Option Tok :=
  match cs with
  | [] => none
  | c :: _ => if c.isDigit then (number cs).map Tok.num else some (.name cs)

/-- Put a token before the rest of the line. -/
def consTok (t : Option Tok) (rest : Option (List Tok)) : Option (List Tok) :=
  t.bind fun t => rest.map fun ts => t :: ts

/-- The tokens from a character that is in no name and no string; `rest` scans the characters after it. `;` starts a comment
(30_encoding.md R118). -/
def scanMark (c : Char) (rest : Scan → Option (List Tok)) : Option (List Tok) :=
  match c.toNat with
  | 32 => rest .between
  | 9 => rest .between
  | 59 => some []
  | 44 => consTok (some .comma) (rest .between)
  | 64 => consTok (some .atSign) (rest .between)
  | 61 => consTok (some .equals) (rest .between)
  | 45 => consTok (some .sign) (rest .between)
  | 34 => rest (.inStr [])
  | _ => if isNameChar c then rest (.inName [c]) else none

/-- The tokens of a line. A string is `"..."` with the escapes `\"`, `\\` and `\xNN` (30_encoding.md R118). -/
def scan : Scan → List Char → Option (List Tok)
  | .between, [] => some []
  | .between, c :: cs => scanMark c fun m => scan m cs
  | .inName acc, [] => consTok (nameTok acc.reverse) (some [])
  | .inName acc, c :: cs =>
    if isNameChar c then scan (.inName (c :: acc)) cs
    else consTok (nameTok acc.reverse) (scanMark c fun m => scan m cs)
  | .inStr _, [] => none
  | .inStr acc, c :: cs =>
    if c.toNat = 34 then consTok (some (.str acc.reverse)) (scan .between cs)
    else if c.toNat = 92 then scan (.escape acc) cs
    else if c.toNat < 128 then scan (.inStr (BitVec.ofNat 8 c.toNat :: acc)) cs
    else none
  | .escape _, [] => none
  | .escape acc, c :: cs =>
    if c.toNat = 34 ∨ c.toNat = 92 then scan (.inStr (BitVec.ofNat 8 c.toNat :: acc)) cs
    else if c.toNat = 120 then scan (.hexHigh acc) cs
    else none
  | .hexHigh _, [] => none
  | .hexHigh acc, c :: cs =>
    match hexDigit c with
    | some d => scan (.hexLow acc d) cs
    | none => none
  | .hexLow _ _, [] => none
  | .hexLow acc hi, c :: cs =>
    match hexDigit c with
    | some d => scan (.inStr (BitVec.ofNat 8 (16 * hi + d) :: acc)) cs
    | none => none

/-! ## Operands -/

/-- A number as a 32-bit field of the request record (30_encoding.md R109). -/
def asWord (n : Nat) : Option Word := if n < 4294967296 then some (BitVec.ofNat 32 n) else none

/-- The optional operand `@OFF,`, and the tokens after it (30_encoding.md R118). -/
def offsetOperand : List Tok → Option (Option Word × List Tok)
  | .atSign :: .num o :: .comma :: ts => (asWord o).map fun o => (some o, ts)
  | ts => some (none, ts)

/-- `{, FIELD}` up to the end of the line. -/
def fieldOperands : List Tok → Option (List Word)
  | [] => some []
  | .comma :: .num n :: ts => (asWord n).bind fun w => (fieldOperands ts).map fun ws => w :: ws
  | _ => none

/-- A number with an optional minus sign, and the tokens after it. -/
def signedOperand : List Tok → Option (Int × List Tok)
  | .sign :: .num n :: ts => some (-(n : Int), ts)
  | .num n :: ts => some ((n : Int), ts)
  | _ => none

/-- `[deadline=T]` up to the end of the line. -/
def deadlineOperand : List Tok → Option (Option Nat)
  | [] => some none
  | [.name ['d', 'e', 'a', 'd', 'l', 'i', 'n', 'e'], .equals, .num t] => some (some t)
  | _ => none

/-- `ADDR`. -/
def addrForm (op : BitVec 5) : List Tok → Option Request
  | [.num a] => (asWord a).map fun a => { Request.blank op with addr := a }
  | _ => none

/-- `ADDR, VAL`. -/
def addrValueForm (op : BitVec 5) : List Tok → Option Request
  | [.num a, .comma, .num v] =>
    (asWord a).bind fun a => (asWord v).map fun v => { Request.blank op with addr := a, data := some v }
  | _ => none

/-- `CODE`. -/
def codeForm (op : BitVec 5) : List Tok → Option Request
  | [.num c] => (asWord c).map fun c => { Request.blank op with data := some c }
  | _ => none

/-- No operand. -/
def bareForm (op : BitVec 5) : List Tok → Option Request
  | [] => some (Request.blank op)
  | _ => none

/-- `OFF, WORD`. -/
def offsetWordForm (op : BitVec 5) : List Tok → Option Request
  | [.num o, .comma, .num w] =>
    (asWord o).bind fun o => (asWord w).map fun w => { Request.blank op with off := some o, data := some w }
  | _ => none

/-- `[@OFF,] WORD {, FIELD}`. -/
def appendForm (op : BitVec 5) (ts : List Tok) : Option Request :=
  match offsetOperand ts with
  | some (o, .num w :: rest) =>
    (asWord w).bind fun w => (fieldOperands rest).map fun ws =>
      { Request.blank op with off := o, data := some w, words := ws }
  | _ => none

/-- `[@OFF,] WORD`. -/
def wordForm (op : BitVec 5) (ts : List Tok) : Option Request :=
  match offsetOperand ts with
  | some (o, [.num w]) => (asWord w).map fun w => { Request.blank op with off := o, data := some w }
  | _ => none

/-- `[@OFF,] X, Y, FONT, OPTIONS, "TEXT"`. -/
def textForm (op : BitVec 5) (ts : List Tok) : Option Request :=
  match offsetOperand ts with
  | some (o, ts) =>
    match signedOperand ts with
    | some (x, .comma :: ts) =>
      match signedOperand ts with
      | some (y, [.comma, .num f, .comma, .num opt, .comma, .str t]) =>
        some { Request.blank op with off := o, x := x, y := y, font := f, options := opt, text := t }
      | _ => none
    | _ => none
  | none => none

/-- `[VAL]`. -/
def publishForm (op : BitVec 5) : List Tok → Option Request
  | [] => some (Request.blank op)
  | [.num v] => (asWord v).map fun v => { Request.blank op with data := some v }
  | _ => none

/-- `[deadline=T]`. -/
def waitForm (op : BitVec 5) (ts : List Tok) : Option Request :=
  (deadlineOperand ts).map fun t => { Request.blank op with deadline := t }

/-- `[EXPECTED] [deadline=T]`. -/
def waitOffsetForm (op : BitVec 5) : List Tok → Option Request
  | .num e :: ts =>
    (asWord e).bind fun e => (deadlineOperand ts).map fun t =>
      { Request.blank op with data := some e, deadline := t }
  | ts => waitForm op ts

/-! ## Lines -/

/-- `fifo.sync [deadline=T]`: `fifo.publish`, then `fifo.wait_offset [deadline=T]`, both with defaults (30_encoding.md R119). -/
def fifoSync (deadline : Option Nat) : List Instr := [.fifoPublish none, .fifoWaitOffset none deadline]

/-- The syntax table: each name, in lower case and with `.` for `_`, with the operand form of its op code
(30_encoding.md R110, R118). -/
def asmTable : List (List Char × (List Tok → Option Request)) :=
  [(['r', 'd', '8'], addrForm 0x00),
   (['r', 'd', '1', '6'], addrForm 0x01),
   (['r', 'd', '3', '2'], addrForm 0x02),
   (['w', 'r', '8'], addrValueForm 0x03),
   (['w', 'r', '1', '6'], addrValueForm 0x04),
   (['w', 'r', '3', '2'], addrValueForm 0x05),
   (['h', 'o', 's', 't', 'c', 'm', 'd'], codeForm 0x06),
   (['e', 'r', 'r', 'q'], bareForm 0x07),
   (['e', 'r', 'r', 'c', 'l', 'r'], bareForm 0x08),
   (['d', 'l', 'a', 'p', 'p', 'e', 'n', 'd'], offsetWordForm 0x09),
   (['f', 'i', 'f', 'o', '.', 'w', 'o', 'r', 'd'], wordForm 0x0A),
   (['f', 'i', 'f', 'o', '.', 'c', 'm', 'd'], appendForm 0x0B),
   (['f', 'i', 'f', 'o', '.', 't', 'e', 'x', 't'], textForm 0x0C),
   (['f', 'i', 'f', 'o', '.', 'p', 'u', 'b', 'l', 'i', 's', 'h'], publishForm 0x0D),
   (['f', 'i', 'f', 'o', '.', 'w', 'a', 'i', 't', '_', 'e', 'm', 'p', 't', 'y'], waitForm 0x0E),
   (['f', 'i', 'f', 'o', '.', 'w', 'a', 'i', 't', '_', 'o', 'f', 'f', 's', 'e', 't'], waitOffsetForm 0x0F)]

/-- The name of the pseudo-instruction (30_encoding.md R119). -/
def syncName : List Char := ['f', 'i', 'f', 'o', '.', 's', 'y', 'n', 'c']

/-- The requests a line's tokens stand for: none for an empty line, two for `fifo.sync`, else one. -/
def parseLine (ts : List Tok) : Option (List Request) :=
  match ts with
  | [] => some []
  | .name n :: ts =>
    if n = syncName then (deadlineOperand ts).map fun t => (fifoSync t).map encode
    else
      match asmTable.lookup n with
      | some form => (form ts).map fun r => [r]
      | none => none
  | _ => none

/-- The requests a line of assembly stands for, `none` if it is not of the syntax (30_encoding.md R118). -/
def assembleLine (cs : List Char) : Option (List Request) := (scan .between cs).bind parseLine

/-- The requests a program stands for, one line after the other (30_encoding.md R118). -/
def assemble : List (List Char) → Option (List Request)
  | [] => some []
  | l :: ls => (assembleLine l).bind fun rs => (assemble ls).map fun rest => rs ++ rest


end Sys2Proof.Machine
end

