-- ==== Sys2Proof/Tests/Slice0.lean ====
section
/-! SUPPORT. Tests: ill-formed requests, decoding by hand, one-step tests from 95_test_vectors.md, and for every obligation with
hypotheses a state and operands that meet them. -/

namespace Sys2Proof.Tests

open Sys2Proof Sys2Proof.Machine

set_option Elab.async false

/-! ## States and observations -/

/-- A transport answer: success, all bytes. -/
def okCall : CallDraw := { fails := none, commit := 0, count := none, fill := [], during := [], picks := [] }

/-- A transport answer: failure with error 9, after the device committed `n` payload bytes. -/
def badCall (n : Nat) : CallDraw := { okCall with fails := some 9, commit := n }

/-- Device bytes put in place from outside. -/
def withBytes (a : Nat) (bs : List Byte) (s : State) : State :=
  { s with env := { s.env with mem := s.env.mem.writeBytes a bs } }

/-- The start state of 95_test_vectors.md: reset, a transport that works, a consumer that takes no step, a clock that advances
by 50 at each reading. -/
def quiet : State :=
  { State.reset with env := { State.reset.env with
      calls := List.replicate 48 okCall, moves := List.replicate 64 0, ticks := List.replicate 16 { tick := 50, cancel := false } } }

/-- The same with the transport answering as listed, and with success after that. -/
def answering (ds : List CallDraw) : State :=
  { quiet with env := { quiet.env with calls := ds ++ List.replicate 40 okCall } }

/-- The same under a latched error `E_WRITE(7)`. -/
def poisoned : State := { quiet with err := .failed (.eWrite 7) }

/-- After `fifo.word 1`, `fifo.word 2` and `fifo.publish` (95_test_vectors.md V9, V10), with RP at `rp`. -/
def published (rp : Nat) : State :=
  withBytes 0x3020F8 (leBytes 4 rp) <| withBytes 0x3020FC [8, 0, 0, 0] <|
    withBytes 0x308000 [1, 0, 0, 0, 2, 0, 0, 0] { quiet with woff := 8, ghost := { Ghost.reset with pubOff := 8 } }

/-- The state after the request of `i` has been placed on the port and one step taken. -/
def ran (i : Instr) (s : State) : Option State :=
  match step (placeRequest (encode i) s) with
  | .next t => some t
  | .fault _ => none
  | .refused _ => none

/-- What a run of `i` shows: the records, the calls, the error register. -/
def seen (i : Instr) (s : State) : Option (List Response × List TxCall × Err) :=
  (ran i s).map fun t => (t.port.results, t.env.wire, t.err)

/-- A call `TxWrite` that succeeds. -/
abbrev W (bs : List Byte) : TxCall := .write bs none
/-- A call `TxRead` that succeeds. -/
abbrev R (n : Nat) (bs : List Byte) : TxCall := .read n bs none
/-- A call `TxFlush` that succeeds. -/
abbrev F : TxCall := .flush none

/-- One hazard alone. -/
abbrev only (h : Hazard) : Hazards := Hazards.none.set h

/-! ## Ill-formed requests are refused (30_encoding.md R111, R113) -/

theorem test_wf_wr8 : (Instr.wr8 0x302000 0x100).wellFormed = false ∧ decode (encode (.wr8 0x302000 0x100)) = .error .operandTooWide := by decide
theorem test_wf_wr16 : (Instr.wr16 0x302000 0x10000).wellFormed = false ∧ decode (encode (.wr16 0x302000 0x10000)) = .error .operandTooWide := by decide
theorem test_wf_hostcmd : (Instr.hostcmd 0x100).wellFormed = false ∧ decode (encode (.hostcmd 0x100)) = .error .operandTooWide := by decide
theorem test_wf_text_x : (Instr.fifoText none 40000 0 0 0 [0x78]).wellFormed = false ∧ (Instr.fifoText none (-32769) 0 0 0 []).wellFormed = false := by decide
theorem test_wf_text_y : (Instr.fifoText none 0 32768 0 0 []).wellFormed = false ∧ (Instr.fifoText none 0 (-32769) 0 0 []).wellFormed = false := by decide
theorem test_wf_text_font : (Instr.fifoText none 0 0 65536 0 []).wellFormed = false := by decide
theorem test_wf_text_options : (Instr.fifoText none 0 0 0 65536 []).wellFormed = false := by decide
theorem test_wf_boundaries : (Instr.wr8 0 0xFF).wellFormed = true ∧ (Instr.wr16 0 0xFFFF).wellFormed = true ∧
    (Instr.hostcmd 0xFF).wellFormed = true ∧ (Instr.fifoText none 32767 (-32768) 65535 65535 []).wellFormed = true := by decide
theorem test_reserved_op : step (placeRequest (Request.blank 0x10) quiet) = .refused (.reservedOp 0x10) ∧
    step (placeRequest (Request.blank 0x1F) quiet) = .refused (.reservedOp 0x1F) := ⟨rfl, rfl⟩
theorem test_missing_operand : step (placeRequest (Request.blank 0x09) quiet) = .refused .missingOperand ∧
    step (placeRequest (Request.blank 0x03) quiet) = .refused .missingOperand := ⟨rfl, rfl⟩

/-! ## Decoding, by the codes of 30_encoding.md R110 written in bits -/

theorem test_decode_reads : decodeTableWord 8 0b00000000 = some (.rd8 0) ∧ decodeTableWord 8 0b00000001 = some (.rd16 0) ∧
    decodeTableWord 8 0b00000010 = some (.rd32 0) := by decide
theorem test_decode_writes : decodeTableWord 8 0b00000011 = some (.wr8 0 0) ∧ decodeTableWord 8 0b00000100 = some (.wr16 0 0) ∧
    decodeTableWord 8 0b00000101 = some (.wr32 0 0) := by decide
theorem test_decode_hostcmd : decodeTableWord 8 0b00000110 = some (.hostcmd 0) := by decide
theorem test_decode_error_register : decodeTableWord 8 0b00000111 = some .errq ∧ decodeTableWord 8 0b00001000 = some .errclr := by decide
theorem test_decode_dlappend : decodeTableWord 8 0b00001001 = some (.dlappend 0 0) := by decide
theorem test_decode_fifo : decodeTableWord 8 0b00001010 = some (.fifoWord (some 0) 0) ∧
    decodeTableWord 8 0b00001011 = some (.fifoCmd (some 0) 0 []) ∧
    decodeTableWord 8 0b00001100 = some (.fifoText (some 0) 0 0 0 0 []) ∧
    decodeTableWord 8 0b00001101 = some (.fifoPublish (some 0)) := by decide
theorem test_decode_waits : decodeTableWord 8 0b00001110 = some (.fifoWaitEmpty none) ∧
    decodeTableWord 8 0b00001111 = some (.fifoWaitOffset (some 0) none) := by decide
theorem test_decode_operands :
    decode { Request.blank 0x0C with off := some 4096, x := -1, y := -2, font := 31, options := 0x600, text := [0x48, 0x69] } =
      .ok (.fifoText (some 4096) (-1) (-2) 31 0x600 [0x48, 0x69]) ∧
    decode { Request.blank 0x0B with data := some 0xFFFFFF00, words := [1, 2], addr := 5 } =
      .ok (.fifoCmd none 0xFFFFFF00 [1, 2]) ∧
    decode { Request.blank 0x0F with data := some 8, deadline := some 100 } = .ok (.fifoWaitOffset (some 8) (some 100)) := by decide

/-- V1: headers. -/
theorem test_headers : hdr 0x000000 .read = [0x00, 0x00, 0x00] ∧ hdr 0x3FFFFF .write = [0xBF, 0xFF, 0xFF] ∧
    hdr 0x200000 .read = [0x20, 0x00, 0x00] ∧ hdr 0x010000 .write = [0x81, 0x00, 0x00] ∧
    hdr 0x308FFE .write = [0xB0, 0x8F, 0xFE] := by decide
/-- V1: header decoding. -/
theorem test_unhdr : unhdr 0x40 0x00 0x00 = .error (.reservedIntent 0b01) ∧ unhdr 0xC0 0x12 0x34 = .error (.reservedIntent 0b11) ∧
    unhdr 0x92 0x34 0x56 = .ok (.write, 0x123456) ∧ unhdr 0x3F 0xFF 0xFF = .ok (.read, 0x3FFFFF) := by decide
/-- R105, R106, R107: the kinds of transactions, by their bytes; V1: dummy bytes. -/
theorem test_transactions : decodeTransaction [0x44] = .ok (.hostCommand 0x44) ∧
    decodeTransaction [0x30, 0x20, 0x00, 0x00] = .ok (.readAccess 0x302000 [0x00]) ∧
    decodeTransaction [0xB0, 0x20, 0x70, 0xC4, 0x01] = .ok (.writeAccess 0x302070 [0xC4, 0x01]) ∧
    readRequestBytes { exampleCfg with dummyBytes := 0 } 0x302000 = [0x30, 0x20, 0x00] ∧
    readRequestBytes { exampleCfg with dummyBytes := 2 } 0x302000 = [0x30, 0x20, 0x00, 0x00, 0x00] := by decide

/-! ## Assembly (30_encoding.md R118, R119, and the programs of 95_test_vectors.md) -/

theorem test_asm_text : assembleLine "fifo.text @0, 10, -20, 0x1A, 0, \"a\\\"\\x00b\" ; label".toList =
    some [encode (.fifoText (some 0) 10 (-20) 26 0 [0x61, 0x22, 0x00, 0x62])] := by decide +kernel
theorem test_asm_sync : assembleLine "fifo.sync deadline=100".toList =
    some [encode (.fifoPublish none), encode (.fifoWaitOffset none (some 100))] := by decide +kernel
theorem test_asm_forms : assembleLine "wr16 0x302070, 0x01C4".toList = some [encode (.wr16 0x302070 0x01C4)] ∧
    assembleLine "fifo.cmd 0xFFFFFF00, 1, 2".toList = some [encode (.fifoCmd none 0xFFFFFF00 [1, 2])] ∧
    assembleLine "fifo.wait_offset 8 deadline=7".toList = some [encode (.fifoWaitOffset (some 8) (some 7))] ∧
    assembleLine "rd8".toList = none := by decide +kernel

/-! ## Construction (V11) -/

theorem test_construct_checks : failedCheck exampleCfg = none ∧ failedCheck { exampleCfg with fifoCap := 4 } = none ∧
    failedCheck { exampleCfg with fifoCap := 3000 } = some .chk1 ∧ failedCheck { exampleCfg with fifoCap := 2 } = some .chk1 ∧
    failedCheck { exampleCfg with fifoBase := 0x3FF000, fifoCap := 8192 } = some .chk2 ∧
    failedCheck { exampleCfg with dlBase := 0x3FF000 } = some .chk3 ∧ failedCheck { exampleCfg with regRP := 0x3FFFFD } = some .chk4 ∧
    failedCheck { exampleCfg with regWP := 0x308010 } = some .chk5 ∧ failedCheck { exampleCfg with ptrWidth := 16 } = some .chk6 ∧
    failedCheck { exampleCfg with packText := .varying 0 } = some .chk7 := by decide +kernel

/-! ## Reads (V2) -/

/-- W3. -/
theorem test_rd8 : seen (.rd8 0x302000) (withBytes 0x302000 [0x7C] quiet) =
    some ([⟨.ok, .word 124⟩], [W [0x30, 0x20, 0x00, 0x00], R 1 [0x7C], F], .ok) := by decide +kernel
/-- The fault check comes before the poisoned check. -/
theorem test_rd8_fault : (ran (.rd8 0x400000) poisoned).map (fun t => (t.fault, t.env.wire, t.port.results, t.reqIdx)) =
    some (some (.addrRange 0x400000 1), [], [], 0) := by decide +kernel
theorem test_rd16_unaligned : seen (.rd16 0x302001) (withBytes 0x302001 [0xCD, 0xAB] quiet) =
    some ([⟨.ok, .word 0xABCD⟩], [W [0x30, 0x20, 0x01, 0x00], R 2 [0xCD, 0xAB], F], .ok) := by decide +kernel
theorem test_rd16_fault : (ran (.rd16 0x3FFFFF) quiet).map (fun t => (t.fault, t.env.wire)) =
    some (some (.addrRange 0x3FFFFF 2), []) := by decide +kernel
theorem test_rd32_short : seen (.rd32 0x302000) (withBytes 0x302000 [1, 2, 3, 4] (answering [okCall, { okCall with count := some 2 }])) =
    some ([⟨.err .eShortRead, .word 0⟩], [W [0x30, 0x20, 0x00, 0x00], R 4 [1, 2]], .failed .eShortRead) := by decide +kernel
theorem test_rd32_of_rp : (ran (.rd32 0x3020F8) (withBytes 0x3020F8 [0x78, 0x56, 0x34, 0x12] quiet)).map
    (fun t => (t.port.results, t.ghost.lastRP, t.ghost.haz)) =
    some ([⟨.ok, .word 0x12345678⟩], 0, only .rpUnexpected) := by decide +kernel

/-- 00_scope.md R10: bytes may come with an error; the operation returns the error and the value 0 (40_transactions.md R140). -/
theorem test_rd16_fails_with_bytes : seen (.rd16 0x302000) (answering [okCall, { badCall 0 with fill := [0x12, 0x34, 0x56] }]) =
    some ([⟨.err (.eRead 9), .word 0⟩], [W [0x30, 0x20, 0x00, 0x00], .read 2 [0x12, 0x34] (some 9)], .failed (.eRead 9)) := by
  decide +kernel

/-! ## Writes (V3) -/

theorem test_wr8_top : (ran (.wr8 0x3FFFFF 1) quiet).map (fun t => (t.port.results, t.env.wire, t.env.mem.read 0x3FFFFF)) =
    some ([⟨.ok, .absent⟩], [W [0xBF, 0xFF, 0xFF], W [0x01], F], some 1) := by decide +kernel
theorem test_wr8_on_rp : (ran (.wr8 0x3020F8 0) quiet).map (fun t => (t.env.wire, t.ghost.haz)) =
    some ([W [0xB0, 0x20, 0xF8], W [0x00], F], only .ptrAliased) := by decide +kernel
/-- W2, with the header byte of 90_conflicts.md C4. -/
theorem test_wr16 : (ran (.wr16 0x302070 0x01C4) quiet).map
    (fun t => (t.port.results, t.env.wire, t.env.mem.readLE 0x302070 2)) =
    some ([⟨.ok, .absent⟩], [W [0xB0, 0x20, 0x70], W [0xC4, 0x01], F], some 0x01C4) := by decide +kernel
theorem test_wr16_payload_fails : (ran (.wr16 0x302070 0x01C4) (answering [okCall, badCall 1])).map
    (fun t => (t.port.results, t.env.wire, t.env.mem.read 0x302070, t.env.mem.read 0x302071)) =
    some ([⟨.err (.eWrite 9), .absent⟩], [W [0xB0, 0x20, 0x70], .write [0xC4, 0x01] (some 9)], some 0xC4, none) := by decide +kernel
theorem test_wr32 : seen (.wr32 0x300000 0x11223344) quiet =
    some ([⟨.ok, .absent⟩], [W [0xB0, 0x00, 0x00], W [0x44, 0x33, 0x22, 0x11], F], .ok) := by decide +kernel
theorem test_wr32_bad_publish : (ran (.wr32 0x3020FC 5000) quiet).map (fun t => (t.wp, t.ghost.haz, t.ghost.pubOff)) =
    some (some 5000, only .ptrAliased, 0) := by decide +kernel

/-! ## Host command and error register (V4) -/

theorem test_hostcmd : seen (.hostcmd 0x44) quiet = some ([⟨.ok, .absent⟩], [W [0x44], F], .ok) := by decide +kernel
theorem test_hostcmd_fails : seen (.hostcmd 0x42) (answering [badCall 0]) =
    some ([⟨.err (.eWrite 9), .absent⟩], [.write [0x42] (some 9)], .failed (.eWrite 9)) := by decide +kernel
theorem test_errq : seen .errq { quiet with err := .failed .eShortRead } =
    some ([⟨.ok, .error (.failed .eShortRead)⟩], [], .failed .eShortRead) := by decide +kernel
theorem test_errq_halted : step (placeRequest (encode .errq) { quiet with fault := some (.offsetRange 5000) }) =
    .fault (.halted (.offsetRange 5000)) := rfl
theorem test_errclr : seen .errclr { quiet with err := .failed .eShortRead } = some ([⟨.ok, .absent⟩], [], .ok) := by decide +kernel

/-! ## Display list (V5) -/

theorem test_dlappend_overflow : (ran (.dlappend 8192 0) quiet).map (fun t => (t.port.results, t.env.wire, t.ghost.haz)) =
    some ([⟨.ok, .offset 8196⟩], [W [0xB0, 0x20, 0x00], W [0, 0, 0, 0], F], only .dlOverflow) := by decide +kernel
theorem test_dlappend_poisoned : seen (.dlappend 16 7) poisoned =
    some ([⟨.err (.eWrite 7), .offset 20⟩], [], .failed (.eWrite 7)) := by decide +kernel

/-! ## Command FIFO (V6 to V9) -/

theorem test_fifo_word_wraps : (ran (.fifoWord (some 4094) 0x11223344) quiet).map (fun t => (t.port.results, t.env.wire, t.woff)) =
    some ([⟨.ok, .offset 2⟩],
      [W [0xB0, 0x8F, 0xFE], W [0x44, 0x33], F, W [0xB0, 0x80, 0x00], W [0x22, 0x11], F], 2) := by decide +kernel
theorem test_fifo_word_tail_fails : (ran (.fifoWord (some 4094) 0x11223344) (answering [okCall, okCall, badCall 0])).map
    (fun t => (t.port.results, t.env.wire, t.woff, t.ghost.dirty)) =
    some ([⟨.err (.eFlush 9), .offset 2⟩], [W [0xB0, 0x8F, 0xFE], W [0x44, 0x33], .flush (some 9)], 2, [4094, 4095]) := by
  decide +kernel
theorem test_fifo_cmd_wraps : seen (.fifoCmd (some 4094) 0xAABBCCDD [0x11223344]) quiet =
    some ([⟨.ok, .offset 6⟩], [W [0xB0, 0x8F, 0xFE], W [0xDD, 0xCC], F, W [0xB0, 0x80, 0x00], W [0xBB, 0xAA], F,
      W [0xB0, 0x80, 0x02], W [0x44, 0x33, 0x22, 0x11], F], .ok) := by decide +kernel
theorem test_fifo_cmd_fails_inside : (ran (.fifoCmd (some 0) 0xFFFFFF00 [1, 2]) (answering [okCall, okCall, okCall, badCall 0])).map
    (fun t => (t.port.results, t.env.wire, t.woff)) =
    some ([⟨.err (.eWrite 9), .offset 12⟩],
      [W [0xB0, 0x80, 0x00], W [0x00, 0xFF, 0xFF, 0xFF], F, .write [0xB0, 0x80, 0x04] (some 9)], 12) := by decide +kernel
theorem test_fifo_text : seen (.fifoText (some 0) 10 20 26 0 [0x48, 0x69]) quiet =
    some ([⟨.ok, .offset 16⟩], [W [0xB0, 0x80, 0x00], W [0x0C, 0xFF, 0xFF, 0xFF], F, W [0xB0, 0x80, 0x04], W [0x0A, 0x00, 0x14, 0x00], F,
      W [0xB0, 0x80, 0x08], W [0x1A, 0x00, 0x00, 0x00], F, W [0xB0, 0x80, 0x0C], W [0x48, 0x69, 0x00, 0x00], F], .ok) := by
  decide +kernel
theorem test_fifo_text_too_long : (ran (.fifoText none 0 0 0 0 (List.replicate 256 0x41)) poisoned).map
    (fun t => (t.fault, t.env.wire, t.woff)) = some (some (.textTooLong 256), [], 0) := by decide +kernel
theorem test_fifo_publish_unwritten : (ran (.fifoPublish (some 12))
      { quiet with woff := 8, ghost := { Ghost.reset with dirty := [0, 1, 2, 3, 4, 5, 6, 7], span := 8 } }).map
    (fun t => (t.port.results, t.env.wire, t.ghost.haz, t.ghost.dirty, t.woff)) =
    some ([⟨.ok, .absent⟩], [W [0xB0, 0x20, 0xFC], W [0x0C, 0, 0, 0], F], only .unwritten, [], 8) := by decide +kernel
theorem test_fifo_publish_back : (ran (.fifoPublish (some 4)) (published 0)).map (fun t => (t.wp, t.ghost.haz)) =
    some (some 4, (only .unwritten).set .full) := by decide +kernel

/-- A word that wraps and fails in its second transaction has stored the bytes of the first and a prefix of the second's
(42_fifo_writer.md R172, 20_memory.md R87). -/
theorem test_fifo_word_rest_fails : (ran (.fifoWord (some 4094) 0x11223344)
      (answering [okCall, okCall, okCall, okCall, badCall 1])).map
    (fun t => (t.err, [4094, 4095, 0, 1].map (fun o => t.env.mem.read (0x308000 + o)))) =
    some (.failed (.eWrite 9), [some 0x44, some 0x33, some 0x22, none]) := by decide +kernel

/-! ## The consumer (20_memory.md R88, R89) -/

/-- A write to a published byte races with the consumer, which moves by 2 before the payload: it may read any byte there. -/
theorem test_raced_byte_is_free : (ran (.wr8 0x308000 9) { published 0 with env := { (published 0).env with
      moves := [0, 2, 0, 0], reads := { ConsumerReads.reset with draws := [7, 8, 6] } } }).map
    (fun t => (t.ghost.haz, t.rp, t.env.reads)) =
    some (only .overrun, some 2, { log := [(0, some 7), (1, some 8)], draws := [6], drawNo := 2 }) := by decide +kernel
/-- With no hazard it reads what the device holds; here at the end of the step, after the operation's last call. -/
theorem test_consumer_after_the_last_call : (ran .errq { published 0 with env := { (published 0).env with moves := [5] } }).map
    (fun t => (t.ghost.haz, t.rp, t.env.reads.log)) =
    some (Hazards.none, some 5, [(0, some 1), (1, some 0), (2, some 0), (3, some 0), (4, some 2)]) := by decide +kernel

/-! ## Waits (V10) -/

theorem test_wait_empty_drained : seen (.fifoWaitEmpty none) (published 8) =
    some ([⟨.ok, .absent⟩], [W [0x30, 0x20, 0xF8, 0x00], R 4 [8, 0, 0, 0], F,
      W [0x30, 0x20, 0xFC, 0x00], R 4 [8, 0, 0, 0], F], .ok) := by decide +kernel
theorem test_wait_empty_goes_on : (ran (.fifoWaitEmpty none) (published 0)).map
    (fun t => (t.port.results, t.port.pending, t.reqIdx)) = some ([], [encode (.fifoWaitEmpty none)], 0) := by decide +kernel
theorem test_wait_offset_timeout : (ran (.fifoWaitOffset (some 8) (some 50)) (published 0)).map
    (fun t => (t.port.results, t.env.wire, t.err, t.env.clock)) =
    some ([⟨.timeout, .absent⟩], [W [0x30, 0x20, 0xF8, 0x00], R 4 [0, 0, 0, 0], F], .ok, 50) := by decide +kernel
/-- The torn read of V10: byte 0 before, byte 1 after the consumer's step from 0x0FC to 0x100. -/
theorem test_torn_read : seen (.rd32 0x3020F8)
    { withBytes 0x3020F8 [0xFC, 0, 0, 0] (withBytes 0x3020FC [0, 1, 0, 0]
        (answering [okCall, { okCall with during := [4], picks := [0, 1, 1, 1] }])) with
      cfg := { exampleCfg with atomicPtrRead := false } } =
    some ([⟨.ok, .word 0x1FC⟩], [W [0x30, 0x20, 0xF8, 0x00], R 4 [0xFC, 0x01, 0x00, 0x00], F], .ok) := by decide +kernel

/-! ## Witnesses: for every obligation with hypotheses, a state and operands that meet them

Each theorem is named after its obligation. -/

/-- The invariant and the premises of `State.Ready`, as a check. -/
def readyCheck (n : Nat) (s : State) : Bool :=
  decide (failedCheck s.cfg = none) && decide (s.woff < s.cfg.fifoCap) && decide (s.ghost.pubOff < s.cfg.fifoCap) &&
    decide (s.ghost.lastRP < s.cfg.fifoCap) && dirtyWfFrom s.cfg.fifoCap 0 s.ghost.dirty && s.env.mem.wf && s.rp.isSome &&
    s.wp.isSome && (s.env.txFailed || decide (s.env.tx = [])) && decide (s.port.results.length = s.reqIdx) &&
    (List.range n).all fun k => decide ((s.env.peekCall k).fails = none) && decide ((s.env.peekCall k).count = none)

theorem inv_of_check {n : Nat} {s : State} (h : readyCheck n s = true) : s.Inv := by
  simp only [readyCheck, Bool.and_eq_true, decide_eq_true_eq, Bool.or_eq_true] at h
  obtain ⟨⟨⟨⟨⟨⟨⟨⟨⟨⟨h1, h2⟩, h3⟩, h4⟩, h5⟩, h6⟩, h7⟩, h8⟩, h9⟩, h10⟩, -⟩ := h
  exact ⟨h1, h2, h3, h4, h5, h6, h7, h8, fun hf => by simpa [hf] using h9, h10⟩

theorem ready_of_check {n : Nat} {s : State} (h : readyCheck n s = true) (he : s.err = .ok) : s.Ready n := by
  refine ⟨inv_of_check h, he, fun k hk => ?_⟩
  simp only [readyCheck, Bool.and_eq_true, List.all_eq_true, List.mem_range, decide_eq_true_eq] at h
  exact h.2 k hk

theorem quiet_ready : quiet.Ready 48 := ready_of_check (by decide +kernel) rfl
theorem poisoned_inv : poisoned.Inv := inv_of_check (n := 0) (by decide +kernel)
theorem published_ready : (published 0).Ready 48 ∧ (published 8).Ready 48 :=
  ⟨ready_of_check (by decide +kernel) rfl, ready_of_check (by decide +kernel) rfl⟩

/-- A premise for fewer calls than a state is ready for. -/
theorem ready_fewer {m n : Nat} {s : State} (h : s.Ready n) (hm : m ≤ n) : s.Ready m :=
  ⟨h.1, h.2.1, fun k hk => h.2.2 k (by omega)⟩

/-- A range that ends before RP or begins after it shares no byte with it. -/
theorem off_rp {a n : Nat} (h : a + n ≤ 0x3020F8 ∨ 0x3020FC ≤ a) : ∀ x, within a n x → ¬ onRP exampleCfg x := by
  intro x hx hr
  have hr : 0x3020F8 ≤ x ∧ x < 0x3020F8 + 4 := hr
  unfold within at hx
  omega

/-- Two words written and not yet published. -/
def unpublished : State :=
  { quiet with woff := 8, ghost := { Ghost.reset with dirty := [0, 1, 2, 3, 4, 5, 6, 7], span := 8 } }

theorem unpublished_ready : unpublished.Ready 48 := ready_of_check (by decide +kernel) rfl

/-- A ring of capacity `cap` with the offsets from `rp` up to `wp` published and not consumed. -/
def ringState (cap rp wp : Nat) : State :=
  withBytes 0x3020F8 (leBytes 4 rp) <| withBytes 0x3020FC (leBytes 4 wp)
    { quiet with cfg := { exampleCfg with fifoCap := cap }, woff := wp, ghost := { Ghost.reset with pubOff := wp, lastRP := rp } }

theorem ring_ready : (ringState 4096 4094 2).Ready 48 ∧ (ringState 4 3 2).Ready 48 :=
  ⟨ready_of_check (by decide +kernel) rfl, ready_of_check (by decide +kernel) rfl⟩

theorem test_witness_HeaderLayout : Intent.write = .write ∧ Intent.read = .read := by decide

theorem test_witness_HeaderRoundTrip : unhdr 0xBF 0xFF 0xFF = .ok (.write, 0x3FFFFF) ∧ unhdr 0x00 0x00 0x00 = .ok (.read, 0) ∧
    (0x40 : Byte).toNat / 64 = 1 ∧ (0x7F : Byte).toNat / 64 = 1 ∧ (0xC0 : Byte).toNat / 64 = 3 ∧ (0xFF : Byte).toNat / 64 = 3 ∧
    (0x3F : Byte).toNat / 64 = 0 ∧ (0x80 : Byte).toNat / 64 = 2 ∧ (0xBF : Byte).toNat / 64 = 2 := by decide

theorem test_witness_TransactionRoundTrip : decodeTransaction [0xFF] = .ok (.hostCommand 0xFF) ∧
    decodeTransaction [0x3F, 0xFF, 0xFF] = .ok (.readAccess 0x3FFFFF []) ∧
    decodeTransaction [0x80, 0x00, 0x00, 0x00] = .ok (.writeAccess 0 [0x00]) := by decide

theorem test_witness_RequestRoundTrip : (Instr.wr8 0xFFFFFFFF 255).wellFormed = true ∧ (Instr.wr16 0 65535).wellFormed = true ∧
    (Instr.hostcmd 255).wellFormed = true ∧ (Instr.fifoText none (-32768) 32767 65535 0 []).wellFormed = true ∧
    (Instr.fifoCmd none 0 []).wellFormed = true := by decide

theorem test_witness_RequestDecoding : (Request.zero 0x09).op = (Instr.dlappend 0 0).opcode ∧
    carries (Request.zero 0x09) (.dlappend 0 0) ∧ (Instr.dlappend 0 0).wellFormed = true := ⟨rfl, ⟨rfl, rfl⟩, rfl⟩

theorem test_witness_BadRequestsAreRefused :
    (placeRequest (Request.blank 0x10) quiet).port.pending.head? = some (Request.blank 0x10) ∧
    16 ≤ (Request.blank 0x10).op.toNat ∧ 16 ≤ (Request.blank 0x1F).op.toNat ∧
    (Request.zero 0x0F).op.toNat < 16 ∧ (Request.zero 0x0F).data.isSome = true ∧ (Request.zero 0x0F).off.isSome = true ∧
    decode { Request.zero 0x03 with data := some 256 } = .error .operandTooWide ∧
    decode { Request.zero 0x04 with data := some 65536 } = .error .operandTooWide ∧
    decode { Request.zero 0x06 with data := some 256 } = .error .operandTooWide ∧
    decode { Request.zero 0x0C with x := 32768 } = .error .operandTooWide ∧
    decode { Request.zero 0x0C with y := -32769 } = .error .operandTooWide ∧
    decode { Request.zero 0x0C with font := 65536 } = .error .operandTooWide ∧
    decode { Request.zero 0x0C with options := 65536 } = .error .operandTooWide := by decide

theorem test_witness_StepRunsDecodedInstruction :
    (placeRequest (encode (.wr8 0 1)) quiet).port.pending.head? = some (encode (.wr8 0 1)) ∧
    decode (encode (.wr8 0 1)) = .ok (.wr8 0 1) ∧ (placeRequest (encode (.wr8 0 1)) quiet).fault = none ∧
    decodeTableWord 8 0x0F = some (.fifoWaitOffset (some 0) none) ∧ quiet.fault = none ∧
    quiet.env.moves = 0 :: List.replicate 63 0 := ⟨rfl, by decide, rfl, by decide, rfl, rfl⟩

theorem test_witness_StepPriority : (placeRequest (Request.blank 0x1F) quiet).port.pending.head? = some (Request.blank 0x1F) ∧
    decode (Request.blank 0x1F) = .error (.reservedOp 0x1F) ∧ decode (Request.blank 0x07) = .ok .errq ∧
    ({ quiet with fault := some (.offsetRange 5000) } : State).fault = some (.offsetRange 5000) ∧ quiet.port.pending = [] ∧
    quiet.fault = none := ⟨rfl, by decide, by decide, rfl, rfl, rfl⟩

theorem test_witness_ConstructSetsEveryRegister : failedCheck exampleCfg = none ∧ failedCheck { exampleCfg with fifoCap := 4 } = none := by
  decide +kernel

/-- Each check fails first at a boundary value. -/
theorem test_witness_ConfigurationChecks : failedCheck exampleCfg = none ∧ (∃ k, exampleCfg.fifoCap = 2 ^ k) ∧
    ({ exampleCfg with fifoCap := 2 } : Cfg).fifoCap < 4 ∧
    ((∃ k, ({ exampleCfg with fifoBase := 0x3FF001 } : Cfg).fifoCap = 2 ^ k) ∧ 2 ^ 22 < 0x3FF001 + 4096) ∧
    (∃ c : Cfg, c = { exampleCfg with dlBase := 0x3FE001 } ∧
      chk1 c = true ∧ chk2 c = true ∧ c.dlCap = some 8192 ∧ 2 ^ 22 < c.dlBase + 8192) ∧
    (∃ c : Cfg, c = { exampleCfg with dlBase := 0x400000, dlCap := none } ∧
      chk1 c = true ∧ chk2 c = true ∧ 2 ^ 22 ≤ c.dlBase) ∧
    (∃ c : Cfg, c = { exampleCfg with regRP := 0x3FFFFD } ∧
      chk1 c = true ∧ chk2 c = true ∧ chk3 c = true ∧ 2 ^ 22 ≤ c.regRP + 3) ∧
    (∃ c : Cfg, c = { exampleCfg with regWP := 0x3020FB } ∧
      chk1 c = true ∧ chk2 c = true ∧ chk3 c = true ∧ chk4 c = true ∧ c.regRP ≤ 0x3020FB ∧ 0x3020FB < c.regRP + 4 ∧
        c.regWP ≤ 0x3020FB) ∧
    (∃ c : Cfg, c = { exampleCfg with ptrWidth := 16 } ∧
      chk1 c = true ∧ chk2 c = true ∧ chk3 c = true ∧ chk4 c = true ∧ chk5 c = true ∧ c.ptrWidth ≠ 32) ∧
    (∃ c : Cfg, c = { exampleCfg with packText := .varying 0 } ∧
      chk1 c = true ∧ chk2 c = true ∧ chk3 c = true ∧ chk4 c = true ∧ chk5 c = true ∧ chk6 c = true ∧ c.packText = .varying 0) := by
  refine ⟨by decide +kernel, ⟨12, rfl⟩, by decide, ⟨⟨12, rfl⟩, by decide⟩, ⟨_, rfl, by decide +kernel⟩, ⟨_, rfl, by decide +kernel⟩,
    ⟨_, rfl, by decide +kernel⟩, ⟨_, rfl, by decide +kernel⟩, ⟨_, rfl, by decide +kernel⟩, ⟨_, rfl, by decide +kernel⟩⟩

theorem test_witness_CapacityIsAMask : exampleCfg.fifoCap = 2 ^ 12 ∧ ({ exampleCfg with fifoCap := 4 } : Cfg).fifoCap = 2 ^ 2 ∧
    ({ exampleCfg with fifoCap := 2 } : Cfg).fifoCap < 4 ∧ ¬ (∃ k, ({ exampleCfg with fifoCap := 3000 } : Cfg).fifoCap = 2 ^ k) := by
  refine ⟨rfl, rfl, by decide, fun ⟨k, hk⟩ => ?_⟩
  have h : (3000 : Nat) = 2 ^ k := hk
  have : k < 12 := by
    by_contra hc
    have := Nat.pow_le_pow_right (n := 2) (by decide) (show 12 ≤ k by omega)
    omega
  interval_cases k <;> omega

theorem test_witness_FaultsArePrecise : quiet.fault = none ∧ raisedBy (.rd8 0x400000) quiet = some (.addrRange 0x400000 1) ∧
    raisedBy (.dlappend 0xFFFFD 7) quiet = some (.addrRange 0x3FFFFD 4) ∧
    raisedBy (.fifoPublish (some 4096)) quiet = some (.offsetRange 4096) ∧
    raisedBy (.fifoText none 0 0 0 0 (List.replicate 256 0)) quiet = some (.textTooLong 256) ∧
    quiet.Inv ∧ raisedBy (.fifoPublish (some 4095)) quiet = none :=
  ⟨rfl, by decide, by decide, by decide, by decide +kernel, quiet_ready.1, by decide⟩

/-- The last value that passes and the first that faults, for every check. -/
theorem test_witness_FaultBounds : IsRead (.rd32 0x3FFFFC) 0x3FFFFC 4 ∧ 0x3FFFFC + 4 - 1 < 2 ^ 22 ∧ IsRead (.rd32 0x3FFFFD) 0x3FFFFD 4 ∧
    2 ^ 22 ≤ 0x3FFFFD + 4 - 1 ∧ IsWrite (.wr8 0x400000 1) 0x400000 1 1 ∧ 2 ^ 22 ≤ 0x400000 + 1 - 1 ∧
    quiet.cfg.dlBase + (0xFFFFC : Word).toNat + 3 < 2 ^ 22 ∧ 2 ^ 22 ≤ quiet.cfg.dlBase + (0xFFFFD : Word).toNat + 3 ∧
    (4095 : Word).toNat < quiet.cfg.fifoCap ∧ quiet.cfg.fifoCap ≤ (4096 : Word).toNat ∧
    (List.replicate 255 (0 : Byte)).length ≤ quiet.cfg.maxTextLen ∧ quiet.cfg.maxTextLen < (List.replicate 256 (0 : Byte)).length :=
  ⟨.rd32 _, by decide, .rd32 _, by decide, .wr8 _ _, by decide, by decide, by decide, by decide, by decide,
    by decide +kernel, by decide +kernel⟩

theorem test_witness_PoisonedOperationsSendNothing : poisoned.Inv ∧ poisoned.err = .failed (.eWrite 7) ∧
    raisedBy (.fifoWord none 1) poisoned = none ∧ Instr.fifoWord none 1 ≠ .errq ∧ Instr.fifoWord none 1 ≠ .errclr ∧
    appendsToFifo (.fifoWord none 1) = true ∧ raisedBy (.fifoPublish (some 8)) poisoned = none ∧
    appendsToFifo (.fifoPublish (some 8)) = false ∧ (∀ off w, Instr.fifoPublish (some 8) ≠ .dlappend off w) ∧
    raisedBy (.dlappend 8192 7) poisoned = none :=
  ⟨poisoned_inv, rfl, rfl, by decide, by decide, rfl, by decide, rfl, by simp, by decide⟩

theorem test_witness_FirstFailureWins : (∃ t, exec (.rd8 0) poisoned = .next t) ∧ poisoned.Inv ∧ poisoned.err = .failed (.eWrite 7) ∧
    raisedBy (.rd8 0) poisoned = none ∧ (answering [badCall 0]).Inv ∧ (answering [badCall 0]).err = .ok ∧
    (∃ t, exec (.hostcmd 1) (answering [badCall 0]) = .next t ∧ t.err = .failed (.eWrite 9)) ∧
    ∃ t, exec (.hostcmd 1) quiet = .next t ∧ t.err = .ok :=
  ⟨⟨_, rfl⟩, poisoned_inv, rfl, by decide, inv_of_check (n := 0) (by decide +kernel), rfl, ⟨_, rfl, by decide +kernel⟩, ⟨_, rfl, by decide +kernel⟩⟩

theorem test_witness_ReadsReturnTheDeviceValue : IsRead (.rd8 0x3FFFFF) 0x3FFFFF 1 ∧ IsRead (.rd16 0x3FFFFE) 0x3FFFFE 2 ∧
    IsRead (.rd32 0x3FFFFC) 0x3FFFFC 4 ∧ 0x3FFFFC + 4 ≤ 2 ^ 22 ∧ quiet.Ready 3 ∧
    (∀ x, within 0x3020FC 4 x → ¬ onRP quiet.cfg x) ∧ quiet.env.mem.readLE 0x3020FC 4 = some 0 ∧
    (¬ onRP quiet.cfg 0x302001 ∧ (withBytes 0x302001 [0x7C] quiet).env.mem.read 0x302001 = some 0x7C ∧
      (withBytes 0x302001 [0x7C] quiet).env.mem.read 0x302002 = none ∧ (withBytes 0x302001 [0x7C] quiet).Ready 3) :=
  ⟨.rd8 _, .rd16 _, .rd32 _, by decide, ready_fewer quiet_ready (by decide), off_rp (by decide), by decide +kernel,
    off_rp (a := 0x302001) (n := 1) (by decide) _ (by unfold within; omega), by decide +kernel, by decide +kernel,
    ready_of_check (by decide +kernel) rfl⟩

theorem test_witness_ReadsStopAtTheFirstFailure : IsRead (.rd32 0x302000) 0x302000 4 ∧ (answering [okCall, badCall 0]).Inv ∧
    (answering [okCall, badCall 0]).err = .ok := ⟨.rd32 _, inv_of_check (n := 0) (by decide +kernel), rfl⟩

theorem test_witness_UnwrittenBytesAreFree :
    let s := answering [okCall, { okCall with fill := [0x5A] }, okCall]
    (0x3FFFFF : Word).toNat < 2 ^ 22 ∧ s.Inv ∧ s.err = .ok ∧ s.env.mem.read 0x3FFFFF = none ∧ succeeds okCall ∧
      s.env.calls = okCall :: { okCall with fill := [0x5A] } :: okCall :: List.replicate 40 okCall :=
  ⟨by decide, inv_of_check (n := 0) (by decide +kernel), rfl, by decide +kernel, ⟨rfl, rfl⟩, rfl⟩

theorem test_witness_PointerReadsSeeTheConsumer : (published 0).rp = some 0 ∧ (published 0).wp = some 8 ∧ (published 0).Ready 3 ∧
    (published 0).cfg.atomicPtrRead = true ∧
    ({ published 0 with cfg := { exampleCfg with atomicPtrRead := false } } : State).Ready 3 :=
  ⟨by decide +kernel, by decide +kernel, ready_fewer published_ready.1 (by decide), rfl, ready_of_check (by decide +kernel) rfl⟩

theorem test_witness_WritesStoreTheirBytes : IsWrite (.wr8 0x3FFFFF 1) 0x3FFFFF 1 1 ∧ IsWrite (.wr16 0x3FFFFE 1) 0x3FFFFE 2 1 ∧
    IsWrite (.wr32 0x3FFFFC 0xFFFFFFFF) 0x3FFFFC 4 0xFFFFFFFF ∧ 0x3FFFFC + 4 ≤ 2 ^ 22 ∧ quiet.Ready 3 :=
  ⟨.wr8 _ _, .wr16 _ _, .wr32 _ _, by decide, ready_fewer quiet_ready (by decide)⟩

theorem test_witness_WritesStopAtTheFirstFailure : OneWrite (answering [badCall 0]) (.wr16 0 1) 0 2 1 .absent ∧
    OneWrite quiet (.dlappend 8192 1) (dlAddr quiet.cfg 8192) 4 1 (.offset 8196) ∧
    OneWrite quiet (.fifoPublish none) quiet.cfg.regWP (ptrBytes quiet.cfg) 0 .absent ∧
    raisedBy (.dlappend 8192 1) quiet = none ∧ raisedBy (.fifoPublish none) quiet = none ∧ quiet.Inv ∧ quiet.err = .ok :=
  ⟨.write (.wr16 _ _), .dlappend _ _, .publish _, by decide, by decide, quiet_ready.1, rfl⟩

/-- An append that wraps and fails at its second transaction. -/
theorem test_witness_WritesStopAtTheFirstFailure_appends :
    let s := answering [okCall, okCall, okCall, okCall, badCall 1]
    IsAppend s.cfg (.fifoWord (some 4094) 0x11223344) (some 4094) [0x11223344] ∧
      raisedBy (.fifoWord (some 4094) 0x11223344) s = none ∧ s.Inv ∧ s.err = .ok ∧
      ∃ t, exec (.fifoWord (some 4094) 0x11223344) s = .next t ∧ t.err ≠ .ok :=
  ⟨.word _ _, rfl, inv_of_check (n := 0) (by decide +kernel), rfl, _, rfl, by decide +kernel⟩

/-- Every prefix of a two-byte write: no byte, one, both. The append clause has the witness of the statement before. -/
theorem test_witness_FailedWriteLeavesAPrefix :
    let s (j : Nat) : State := { quiet with env := { quiet.env with calls := [okCall, badCall j] } }
    (∀ j, OneWrite (s j) (.wr16 0x302070 0x1C4) 0x302070 2 0x1C4 .absent) ∧ (∀ j, raisedBy (.wr16 0x302070 0x1C4) (s j) = none) ∧
      (s 0).Inv ∧ (s 1).Inv ∧ (s 2).Inv ∧ (∀ j, (s j).err = .ok) ∧ succeeds okCall ∧ (∀ j, (badCall j).fails = some 9) ∧
      (∀ j, (badCall j).commit = j) ∧ (∀ j, (s j).env.calls = [okCall, badCall j]) :=
  ⟨fun _ => .write (.wr16 _ _), fun _ => rfl, inv_of_check (n := 0) (by decide +kernel), inv_of_check (n := 0) (by decide +kernel),
    inv_of_check (n := 0) (by decide +kernel), fun _ => rfl, ⟨rfl, rfl⟩, fun _ => rfl, fun _ => rfl, fun _ => rfl⟩

theorem test_witness_WriteAtWpIsPublish : quiet.Inv ∧ (4095 : Word).toNat < quiet.cfg.fifoCap ∧ (0 : Word).toNat < quiet.cfg.fifoCap :=
  ⟨quiet_ready.1, by decide, by decide⟩

theorem test_witness_MixedWidthsSeeBytes : (0x302000 : Word).toNat + 4 ≤ 2 ^ 22 ∧ (∀ x, within 0x302000 4 x → ¬ onRP quiet.cfg x) ∧
    quiet.Ready 6 ∧ ∃ t, exec (.wr32 0x302000 0x11223344) quiet = .next t :=
  ⟨by decide, off_rp (by decide), ready_fewer quiet_ready (by decide), ⟨_, rfl⟩⟩

theorem test_witness_HostCommandSendsOneByte : (255 : Word).toNat < 256 ∧ quiet.Ready 2 ∧ (answering [badCall 0]).Inv ∧
    (answering [badCall 0]).err = .ok :=
  ⟨by decide, ready_fewer quiet_ready (by decide), inv_of_check (n := 0) (by decide +kernel), rfl⟩

theorem test_witness_DlappendStoresTheWord : quiet.cfg.dlBase + (0xFFFFC : Word).toNat + 4 ≤ 2 ^ 22 ∧
    quiet.cfg.dlBase + (8192 : Word).toNat + 4 ≤ 2 ^ 22 ∧ quiet.Ready 3 := ⟨by decide, by decide, ready_fewer quiet_ready (by decide)⟩

/-- The last offset inside the region and the first past it. -/
theorem test_witness_DlappendOffsetAndOverflow : quiet.Inv ∧ poisoned.Inv ∧ quiet.cfg.dlBase + (8188 : Word).toNat + 4 ≤ 2 ^ 22 ∧
    quiet.cfg.dlCap = some 8192 ∧ ¬ 8192 < (8188 : Word).toNat + 4 ∧ 8192 < (8189 : Word).toNat + 4 :=
  ⟨quiet_ready.1, poisoned_inv, by decide, rfl, by decide, by decide⟩

theorem test_witness_FifoWordPlacesItsBytes : quiet.Ready 6 ∧ (ringState 4 3 2).Ready 6 :=
  ⟨ready_fewer quiet_ready (by decide), ready_fewer ring_ready.2 (by decide)⟩

/-- The last offset that does not split, and the three that do. -/
theorem test_witness_FifoWordTransactions : quiet.Ready 6 ∧ startOffset (some 4092) quiet + 4 ≤ quiet.cfg.fifoCap ∧
    startOffset (some 4093) quiet + 3 = quiet.cfg.fifoCap ∧ startOffset (some 4094) quiet + 2 = quiet.cfg.fifoCap ∧
    startOffset (some 0xFFFFFFFF) quiet + 1 = quiet.cfg.fifoCap :=
  ⟨ready_fewer quiet_ready (by decide), by decide, by decide, by decide, by decide⟩

theorem test_witness_AppendsMoveTheOffset : IsAppend quiet.cfg (.fifoWord none 1) none [1] ∧
    IsAppend quiet.cfg (.fifoCmd (some 4094) 1 [2]) (some 4094) [1, 2] ∧
    IsAppend quiet.cfg (.fifoText none 0 0 0 0 []) none (textWords quiet.cfg 0 0 0 0 []) ∧
    raisedBy (.fifoText none 0 0 0 0 []) quiet = none ∧ raisedBy (.fifoWord none 1) quiet = none ∧ quiet.Inv ∧ poisoned.Inv :=
  ⟨.word _ _, .cmd _ _ _, .text _ _ _ _ _ _, by decide, rfl, quiet_ready.1, poisoned_inv⟩

theorem test_witness_AppendsPlaceEveryWord : IsAppend quiet.cfg (.fifoCmd (some 4094) 1 [2, 3]) (some 4094) [1, 2, 3] ∧
    raisedBy (.fifoCmd (some 4094) 1 [2, 3]) quiet = none ∧ quiet.Ready (6 * 3) ∧ ([1, 2, 3] : List Word)[0]? = some 1 ∧
    4 * (3 - 0) ≤ quiet.cfg.fifoCap ∧ (ringState 4 3 2).Ready (6 * 3) ∧ 4 * (3 - 2) ≤ (ringState 4 3 2).cfg.fifoCap :=
  ⟨.cmd _ _ _, rfl, ready_fewer quiet_ready (by decide), rfl, by decide, ready_fewer ring_ready.2 (by decide), by decide⟩

theorem test_witness_DefaultOffsetsNeverSplit : IsAppend unpublished.cfg (.fifoCmd none 1 [2]) none [1, 2] ∧ unpublished.Inv ∧
    4 ∣ unpublished.woff ∧ raisedBy (.fifoCmd none 1 [2]) unpublished = none ∧ ∃ t, exec (.fifoCmd none 1 [2]) unpublished = .next t :=
  ⟨.cmd _ _ _, unpublished_ready.1, by decide, rfl, ⟨_, rfl⟩⟩

/-- Lengths 0, 3 and 4, at the last byte of the text, the first zero and the last. -/
theorem test_witness_TextPayload : textBytes [] = [0, 0, 0, 0] ∧ textBytes [1, 2, 3] = [1, 2, 3, 0] ∧
    textBytes [1, 2, 3, 4] = [1, 2, 3, 4, 0, 0, 0, 0] ∧ wordsOfBytes (textBytes [0x61, 0x62, 0x63, 0x64]) = [0x64636261, 0] := by decide

theorem test_witness_FifoTextPlacesItsText : [0x48, 0x69].length ≤ quiet.cfg.maxTextLen ∧
    4 * (textWords quiet.cfg 10 20 26 0 [0x48, 0x69]).length ≤ quiet.cfg.fifoCap ∧
    quiet.Ready (6 * (textWords quiet.cfg 10 20 26 0 [0x48, 0x69]).length) :=
  ⟨by decide, by decide, ready_fewer quiet_ready (by decide)⟩

theorem test_witness_PublishWritesWp : operandOr quiet.woff (some 4095) < quiet.cfg.fifoCap ∧
    operandOr unpublished.woff none < unpublished.cfg.fifoCap ∧ quiet.Ready 3 ∧ unpublished.Ready 3 :=
  ⟨by decide, by decide, ready_fewer quiet_ready (by decide), ready_fewer unpublished_ready (by decide)⟩

theorem test_witness_OperandDefaults : unpublished.Inv ∧
    (placeRequest (Request.blank 0x09) quiet).port.pending.head? = some (Request.blank 0x09) ∧ (Request.blank 0x09).op = 0x09 ∧
    (Request.blank 0x09).off = none := ⟨unpublished_ready.1, rfl, rfl, rfl⟩

/-- A write on published bytes, one into free ones, and one that touches the window's last byte. -/
theorem test_witness_WritesMarkTheWindow : OneWrite (published 0) (.wr32 0x308004 9) 0x308004 4 9 .absent ∧
    raisedBy (.wr32 0x308004 9) (published 0) = none ∧ (published 0).Inv ∧ (published 0).err = .ok ∧ ¬(0x308004 = (published 0).cfg.regWP ∧ 4 = 4 ∧ 9 < (published 0).cfg.fifoCap) ∧
    (∃ t, exec (.wr32 0x308004 9) (published 0) = .next t) ∧ (onWindow quiet.cfg (quiet.cfg.fifoBase + 4095) ∧ within 0x308FFF 4 0x308FFF) ∧
    inRing quiet.cfg 4 0 8 = true ∧ inRing quiet.cfg 8 0 8 = false ∧
    IsAppend (published 0).cfg (.fifoCmd (some 4) 9 [7]) (some 4) [9, 7] ∧ raisedBy (.fifoCmd (some 4) 9 [7]) (published 0) = none ∧
    ∃ t, exec (.fifoCmd (some 4) 9 [7]) (published 0) = .next t ∧ t.err = .ok := by
  refine ⟨.write (.wr32 _ _), rfl, published_ready.1.1, rfl, by decide, ⟨_, rfl⟩, ⟨?_, by unfold within; omega⟩, by decide, by decide,
    .cmd _ _ _, rfl, _, rfl, by decide +kernel⟩
  exact ⟨Nat.le_add_right _ _, by decide⟩

theorem test_witness_AppendsCountOutstandingBytes : IsAppend unpublished.cfg (.fifoCmd none 1 [2]) none [1, 2] ∧
    raisedBy (.fifoCmd none 1 [2]) unpublished = none ∧ unpublished.Inv ∧ ∃ t, exec (.fifoCmd none 1 [2]) unpublished = .next t :=
  ⟨.cmd _ _ _, rfl, unpublished_ready.1, ⟨_, rfl⟩⟩

theorem test_witness_PublishChecks : OneWrite unpublished (.fifoPublish none) unpublished.cfg.regWP 4 8 .absent ∧
    raisedBy (.fifoPublish none) unpublished = none ∧ 8 < unpublished.cfg.fifoCap ∧ unpublished.Inv ∧ unpublished.err = .ok ∧
    (∃ t, exec (.fifoPublish none) unpublished = .next t) ∧
    OneWrite (published 0) (.wr32 0x3020FC 4095) (published 0).cfg.regWP 4 4095 .absent ∧
    raisedBy (.wr32 0x3020FC 4095) (published 0) = none ∧ 4095 < (published 0).cfg.fifoCap ∧ (published 0).Inv ∧
    (∃ t, exec (.wr32 0x3020FC 4095) (published 0) = .next t) ∧ quiet.cfg.fifoCap ≤ (4096 : Word).toNat ∧ quiet.Inv ∧ quiet.err = .ok ∧
    ∃ t, exec (.wr32 (BitVec.ofNat 32 quiet.cfg.regWP) 4096) quiet = .next t :=
  ⟨.publish _, rfl, by decide, unpublished_ready.1, rfl, ⟨_, rfl⟩, .write (.wr32 _ _), rfl, by decide, published_ready.1.1, ⟨_, rfl⟩,
    by decide, quiet_ready.1, rfl, ⟨_, rfl⟩⟩

/-- A value RP may have (8 of 0 to 8), one just past it (9), one that is no offset, a WP that agrees and one that does not. -/
theorem test_witness_ReadsObserveThePointers : IsRead (.rd32 0x3020F8) 0x3020F8 4 ∧ (published 0).Ready 3 ∧
    0x3020F8 = (published 0).cfg.regRP ∧ dist exampleCfg 0 8 ≤ dist exampleCfg 0 8 ∧ dist exampleCfg 0 8 < dist exampleCfg 0 9 ∧
    (published 0).cfg.fifoCap ≤ (4096 : Word).toNat ∧ IsRead (.rd32 0x3020FC) 0x3020FC 4 ∧ 0x3020FC = (published 0).cfg.regWP ∧
    (8 : Word).toNat = (published 0).ghost.pubOff ∧ (12 : Word).toNat ≠ (published 0).ghost.pubOff ∧ IsRead (.rd16 0x3020F8) 0x3020F8 2 :=
  ⟨.rd32 _, ready_fewer published_ready.1 (by decide), rfl, by decide, by decide, by decide, .rd32 _, rfl, rfl, by decide, .rd16 _⟩

/-- One byte on RP; a partial write on WP; a whole one with a value that is no offset; and the bytes just before and after. -/
theorem test_witness_PointerAlias : OneWrite quiet (.wr8 0x3020F8 0) 0x3020F8 1 0 .absent ∧
    OneWrite quiet (.wr16 0x3020FF 8) 0x3020FF 2 8 .absent ∧ OneWrite quiet (.wr32 0x3020FC 4096) 0x3020FC 4 4096 .absent ∧
    OneWrite quiet (.wr8 0x3020F7 0) 0x3020F7 1 0 .absent ∧ OneWrite quiet (.wr8 0x302100 0) 0x302100 1 0 .absent ∧
    OneWrite quiet (.dlappend 0x20F5 1) 0x3020F5 4 1 (.offset 0x20F9) ∧ raisedBy (.dlappend 0x20F5 1) quiet = none ∧
    raisedBy (.wr32 0x3020FC 4096) quiet = none ∧ quiet.Inv ∧ quiet.err = .ok ∧ (∃ t, exec (.wr32 0x3020FC 4096) quiet = .next t) ∧
    appendsToFifo (.fifoWord none 1) = true ∧ ∃ t, exec (.fifoWord none 1) quiet = .next t :=
  ⟨.write (.wr8 _ _), .write (.wr16 _ _), .write (.wr32 _ _), .write (.wr8 _ _), .write (.wr8 _ _), .dlappend _ _, rfl, rfl,
    quiet_ready.1, rfl, ⟨_, rfl⟩, rfl, ⟨_, rfl⟩⟩

/-- With the default offset, and with one given: every append moves `WOFF` and writes nothing, so the publish announces offsets
that are not dirty. -/
theorem test_witness_PublishAfterPoisonedAppendIsFlagged : poisoned.Inv ∧ poisoned.err = .failed (.eWrite 7) ∧
    IsAppend poisoned.cfg (.fifoWord none 1) none [1] ∧ raisedBy (.fifoWord none 1) poisoned = none ∧
    IsAppend poisoned.cfg (.fifoCmd (some 4092) 1 [2]) (some 4092) [1, 2] ∧ raisedBy (.fifoCmd (some 4092) 1 [2]) poisoned = none ∧
    (∃ t u v, exec (.fifoWord none 1) poisoned = .next t ∧ exec .errclr t = .next u ∧ exec (.fifoPublish none) u = .next v) ∧
    (∃ t u v, exec (.fifoCmd (some 4092) 1 [2]) poisoned = .next t ∧ exec .errclr t = .next u ∧
      exec (.fifoPublish none) u = .next v) ∧ inRing poisoned.cfg 0 poisoned.ghost.pubOff 4 = true ∧ 0 ∉ poisoned.ghost.dirty :=
  ⟨poisoned_inv, rfl, .word _ _, rfl, .cmd _ _ _, rfl, ⟨_, _, _, rfl, rfl, rfl⟩, ⟨_, _, _, rfl, rfl, rfl⟩, by decide, by decide⟩

theorem test_witness_HazardsAreSticky :
    let s := placeRequest (encode (.fifoPublish (some 12))) { unpublished with ghost := { unpublished.ghost with haz := only .full } }
    s.Inv ∧ (∃ t, step s = .next t) ∧ s.ghost.haz.has .full = true ∧ mayRaise (.rd8 0) .full = false ∧
      ∃ t, exec (.rd8 0) s = .next t :=
  ⟨inv_of_check (n := 0) (by decide +kernel), ⟨_, rfl⟩, rfl, rfl, ⟨_, rfl⟩⟩

theorem test_witness_GhostStateIsNeverRead : quiet.env.reads = ConsumerReads.reset ∧
    (∃ t, exec (.wr8 0x302000 1) quiet = .next t ∧ t.ghost.haz = Hazards.none) ∧
    (∃ t, exec (.wr8 0x302000 1) (quiet.withUnseen { Ghost.reset with pubOff := 8, lastRP := 4 } quiet.env.reads) = .next t ∧
      t.ghost.haz = Hazards.none) ∧ ∃ t, step (placeRequest (encode (.wr8 0x302000 1)) quiet) = .next t :=
  ⟨rfl, ⟨_, rfl, by decide +kernel⟩, ⟨_, rfl, by decide +kernel⟩, _, rfl⟩

theorem test_witness_WaitOffsetPass : (published 0).Inv ∧ (published 0).err = .ok ∧
    operandOr (published 0).woff (some 4095) < (published 0).cfg.fifoCap ∧ operandOr (published 0).woff none < (published 0).cfg.fifoCap :=
  ⟨published_ready.1.1, rfl, by decide, by decide⟩

theorem test_witness_WaitEmptyPass : (published 0).Inv ∧ (published 0).err = .ok := ⟨published_ready.1.1, rfl⟩

theorem test_witness_WaitsReturnWhenDrained : (published 8).cfg.atomicPtrRead = true ∧ (published 8).rp = some 8 ∧
    (published 8).wp = some 8 ∧ (published 8).Ready 6 ∧ operandOr (published 8).woff none = 8 ∧ 8 < (published 8).cfg.fifoCap ∧
    (published 8).Ready 3 :=
  ⟨rfl, by decide +kernel, by decide +kernel, ready_fewer published_ready.2 (by decide), rfl, by decide,
    ready_fewer published_ready.2 (by decide)⟩

/-- A wait whose consumer drains the ring at the end of the first pass. -/
def draining : State :=
  placeRequest (encode (.fifoWaitOffset (some 8) none))
    { published 0 with env := { (published 0).env with moves := [0, 0, 0, 8, 0, 0, 0, 0] } }

/-- A drained block with no request stays one. -/
theorem idle_stays_drained {s : State} (hp : s.port.pending = []) (hf : s.fault = none) (hd : s.drained) :
    step s = .next s.between ∧ s.between.port.pending = [] ∧ s.between.fault = none ∧ s.between.drained := by
  have hm : s.between.env.mem = s.env.mem := by
    obtain h | ⟨r, w, h1, h2, h3, -⟩ := consumerStep_cases s.cfg s.ghost.haz.any s.env.move s.env.popMove
    · have h := congrArg Env.mem h
      exact h
    · have hd : s.env.mem.readLE s.cfg.regRP 4 = s.env.mem.readLE s.cfg.regWP 4 := hd
      exact absurd (Option.some.inj ((h1.symm.trans hd).trans h2)) h3
  refine ⟨by simp [step, fetch, idle, hp, hf], hp, hf, ?_⟩
  unfold State.drained State.rp State.wp at hd ⊢
  rw [hm]
  exact hd

theorem runFor_drained {s : State} (hp : s.port.pending = []) (hf : s.fault = none) (hd : s.drained) (n : Nat) :
    ∃ u, runFor n s = some u ∧ u.drained := by
  induction n generalizing s with
  | zero => exact ⟨s, rfl, hd⟩
  | succ n ih =>
    obtain ⟨h1, h2, h3, h4⟩ := idle_stays_drained hp hf hd
    simpa only [runFor, h1] using ih h2 h3 h4

/-- The wait returns after two steps, and the run goes on for ever with RP at WP. -/
theorem draining_run (m : Nat) : ∃ u, runFor (m + 2) draining = some u ∧ u.drained := by
  obtain ⟨t, h1, h2, h3, h4⟩ : ∃ t, runFor 2 draining = some t ∧ t.port.pending = [] ∧ t.fault = none ∧ t.drained :=
    ⟨_, rfl, by decide +kernel, by decide +kernel, by unfold State.drained; decide +kernel⟩
  have hr : ∀ (k : Nat) (s t : State), runFor k s = some t → runFor (m + k) s = runFor m t := by
    intro k
    induction k with
    | zero => rintro s t ⟨⟩; rfl
    | succ k ih =>
      intro s t h
      rw [← Nat.add_assoc]
      simp only [runFor] at h ⊢
      split at h
      · exact ih _ _ h
      · cases h
      · cases h
  rw [hr 2 _ t h1]
  exact runFor_drained h2 h3 h4 m

theorem draining_drains : draining.ChipDrains where
  fair n h := by
    obtain ⟨u, h1, h2⟩ := h (n + 2) (by omega)
    obtain ⟨v, h3, h4⟩ := draining_run n
    cases h1.symm.trans h3
    exact absurd h4 h2
  finite n _ := ⟨n + 2, by omega, draining_run n⟩

theorem test_witness_WaitsReturnIfTheChipDrains : draining.port.pending.head? = some (encode (.fifoWaitOffset (some 8) none)) ∧
    decode (encode (.fifoWaitOffset (some 8) none)) = .ok (.fifoWaitOffset (some 8) none) ∧ draining.cfg.atomicPtrRead = true ∧
    draining.fault = none ∧ draining.wp = some 8 ∧ 8 < draining.cfg.fifoCap ∧ operandOr draining.woff (some 8) = 8 ∧
    draining.Ready (6 * (1 + 1)) ∧ draining.env.neverCancelled (1 + 1) ∧ ¬ draining.drained ∧ draining.ChipDrains ∧
    ∃ k ≤ 1, ∃ u, runFor k draining = some u ∧ u.drained := by
  refine ⟨rfl, by decide, rfl, rfl, by decide +kernel, by decide, rfl, ready_of_check (by decide +kernel) rfl, ?_, ?_, draining_drains,
    1, Nat.le_refl _, _, rfl, ?_⟩
  · intro k hk
    interval_cases k <;> rfl
  · unfold State.drained
    decide +kernel
  · unfold State.drained
    decide +kernel

/-- A consumer that stalls short of WP, over three passes. -/
theorem test_witness_WaitsReturnIfTheChipDrains_stalled :
    let s := placeRequest (encode (.fifoWaitEmpty none)) (published 0)
    s.port.pending.head? = some (encode (.fifoWaitEmpty none)) ∧
      decode (encode (.fifoWaitEmpty none)) = .ok (.fifoWaitEmpty none) ∧ s.cfg.atomicPtrRead = true ∧ s.fault = none ∧
      s.wp = some 8 ∧ 8 < s.cfg.fifoCap ∧ s.Ready (6 * 3) ∧ s.env.neverCancelled 3 ∧ (∀ k < 7 * 3, s.env.peekMove k = 0) ∧
      ¬ s.drained := by
  refine ⟨rfl, by decide, rfl, rfl, by decide +kernel, by decide, ready_of_check (by decide +kernel) rfl, ?_, by decide +kernel, ?_⟩
  · intro k hk
    interval_cases k <;> rfl
  · unfold State.drained
    decide +kernel

/-- The clock reaches the deadline at its first reading; it advances at each; and a deadline that has passed at entry. -/
theorem test_witness_DeadlineBoundsTheWait :
    let s := placeRequest (encode (.fifoWaitEmpty (some 3))) (published 0)
    s.Inv ∧ s.port.pending.head? = some (encode (.fifoWaitEmpty (some 3))) ∧
      decode (encode (.fifoWaitEmpty (some 3))) = .ok (.fifoWaitEmpty (some 3)) ∧ s.fault = none ∧
      raisedBy (.fifoWaitEmpty (some 3)) s = none ∧ 3 ≤ s.env.clockAfter 1 ∧ s.env.clockRuns (max 1 (3 - s.env.clock)) ∧
      s.env.clockRuns (max 1 (0 - s.env.clock)) := by
  refine ⟨inv_of_check (n := 0) (by decide +kernel), rfl, by decide, rfl, rfl, by decide, ?_, ?_⟩ <;>
  · intro k hk
    have hk : k < 3 := by
      refine Nat.lt_of_lt_of_le hk ?_
      decide
    interval_cases k <;> decide

/-- A step by the whole distance, across the end of the ring; one byte too far; an empty ring; a WP that is no offset. -/
theorem test_witness_ConsumerStepIsBounded : failedCheck exampleCfg = none ∧
    (ringState 4096 4094 2).env.mem.readLE 0x3020F8 4 = some 4094 ∧ (ringState 4096 4094 2).env.mem.readLE 0x3020FC 4 = some 2 ∧
    dist exampleCfg 4094 2 = 4 ∧ dist exampleCfg 4094 2 < 5 ∧ (published 8).env.mem.readLE 0x3020F8 4 = some 8 ∧
    (published 8).env.mem.readLE 0x3020FC 4 = some 8 ∧ (ringState 4096 0 4096).env.mem.readLE 0x3020FC 4 = some 4096 := by decide +kernel

/-- The same step with no hazard, and after one with the draws listed: the offsets it reads, and the bytes. -/
theorem test_witness_ConsumerStepIsBounded_reads :
    let e (ds : List Byte) : Env := { (ringState 4096 4094 2).env with reads := { ConsumerReads.reset with draws := ds } }
    (consumerStep exampleCfg false 4 (e [])).reads.log = [(4094, none), (4095, none), (0, none), (1, none)] ∧
      (consumerStep exampleCfg true 4 (e [1, 2, 3, 4, 5])).reads =
        { log := [(4094, some 1), (4095, some 2), (0, some 3), (1, some 4)], draws := [5], drawNo := 4 } ∧
      ([1, 2, 3, 4] : List Byte).length = 4 ∧ (e [1, 2, 3, 4, 5]).reads.draws = [1, 2, 3, 4] ++ [5] := by decide +kernel

/-- An operation that stores to neither pointer, and the one whose store is to WP. -/
theorem test_witness_RpMovesForwardOnly : (ringState 4096 4094 2).Inv ∧
    (∀ x, mayStore (.rd8 0) (ringState 4096 4094 2) x → ¬ onRP (ringState 4096 4094 2).cfg x) ∧
    (∀ x, mayStore (.rd8 0) (ringState 4096 4094 2) x → ¬ onWP (ringState 4096 4094 2).cfg x) ∧
    (∀ x, mayStore (.fifoPublish (some 6)) (ringState 4096 4094 2) x → ¬ onRP (ringState 4096 4094 2).cfg x) ∧
    (ringState 4096 4094 2).rp = some 4094 ∧ (ringState 4096 4094 2).wp = some 2 ∧
    (∃ t, exec (.rd8 0) (ringState 4096 4094 2) = .next t) ∧ ∃ t, exec (.fifoPublish (some 6)) (ringState 4096 4094 2) = .next t :=
  ⟨ring_ready.1.1, fun _ h => h.elim, fun _ h => h.elim, off_rp (by decide), by decide +kernel, by decide +kernel, ⟨_, rfl⟩, ⟨_, rfl⟩⟩

theorem test_witness_EveryStepKeepsTheInvariant : (published 0).Inv ∧ ∃ t, step (placeRequest (encode (.rd8 0)) (published 0)) = .next t :=
  ⟨published_ready.1.1, ⟨_, rfl⟩⟩

theorem test_witness_OnlyAppendsWriteWoff : quiet.Inv ∧ (∃ t, step quiet = .next t) ∧ (∃ t, exec (.fifoPublish (some 12)) quiet = .next t) ∧
    appendsToFifo (.fifoPublish (some 12)) = false := ⟨quiet_ready.1, ⟨_, rfl⟩, ⟨_, rfl⟩, rfl⟩

theorem test_witness_RequestIndexCountsReturns : quiet.Inv ∧ (∃ t, exec .errq quiet = .next t) ∧
    (∃ t, exec (.rd8 0x400000) quiet = .next t) ∧ ∃ t, exec (.fifoWaitEmpty none) (published 0) = .next t :=
  ⟨quiet_ready.1, ⟨_, rfl⟩, ⟨_, rfl⟩, ⟨_, rfl⟩⟩

theorem test_witness_OperationsSendFramedTransactions : (answering [okCall, badCall 0]).Inv ∧
    ∃ t, exec (.wr8 0 1) (answering [okCall, badCall 0]) = .next t := ⟨inv_of_check (n := 0) (by decide +kernel), ⟨_, rfl⟩⟩

theorem test_witness_MemoryFrame : quiet.Inv ∧ (∃ t, exec (.wr8 0x3FFFFF 1) quiet = .next t) ∧
    ∃ t, exec (.fifoWord (some 4094) 1) quiet = .next t := ⟨quiet_ready.1, ⟨_, rfl⟩, ⟨_, rfl⟩⟩

theorem test_witness_ClockNeverGoesBack : quiet.Inv ∧ (∃ t, exec (.rd8 0) quiet = .next t) ∧
    ∃ t, exec (.fifoWaitEmpty (some 3)) (published 0) = .next t := ⟨quiet_ready.1, ⟨_, rfl⟩, ⟨_, rfl⟩⟩

end Sys2Proof.Tests
end

section
/-! PROOFS. The capacity as a mask, and the block whose capacity fails CHK1 (00_scope.md R6). -/

namespace Sys2Proof.Machine

/-- R6: reduction modulo a capacity that is a power of two keeps the low bits. -/
theorem red_eq_and_mask {cfg : Cfg} {k : Nat} (hk : cfg.fifoCap = 2 ^ k) (x : Nat) :
    red cfg x = x &&& (cfg.fifoCap - 1) := by
  rw [red, hk, Nat.and_two_pow_sub_one_eq_mod]

theorem chk1_eq_true_iff (cfg : Cfg) : chk1 cfg = true ↔ (∃ k, cfg.fifoCap = 2 ^ k) ∧ 4 ≤ cfg.fifoCap := by
  simp only [chk1, Bool.and_eq_true, decide_eq_true_eq, isPowerOfTwo_iff]

theorem chk1_eq_false_iff (cfg : Cfg) : chk1 cfg = false ↔ ¬ (∃ k, cfg.fifoCap = 2 ^ k) ∨ cfg.fifoCap < 4 := by
  rw [← Bool.not_eq_true, chk1_eq_true_iff, not_and_or, Nat.not_le]

/-- CHK1 is the first check, so its failure is the one recorded (70_reset_and_hazards.md R220). -/
theorem failedCheck_of_chk1_eq_false {cfg : Cfg} (h : chk1 cfg = false) : failedCheck cfg = some .chk1 := by
  simp [failedCheck, h]

@[simp] theorem placeRequest_head? (r : Request) (s : State) :
    (placeRequest r s).port.pending.head? = some r := rfl

/-- R205 item 2, R206: a halted block does not run the request it is offered. -/
theorem step_of_halted {s : State} {r : Request} {i : Instr} {f : FaultRec} (h : s.port.pending.head? = some r)
    (hd : decode r = .ok i) (hf : s.fault = some f) : step s = .fault (.halted f) := by
  simp [step, fetch, h, hd, hf]

/-- Settles O12: the mask law is that of the low bits of a natural number; a capacity that fails CHK1 leaves `FAULT` set at
construction, and placing a request does not clear it. -/
theorem capacityIsAMask : Obligations.CapacityIsAMask := by
  refine ⟨fun cfg k x hk => red_eq_and_mask hk x, fun cfg mem hcap => ?_⟩
  have hfault : (State.construct cfg mem).fault = some (.config .chk1) := by
    rw [State.construct_fault, failedCheck_of_chk1_eq_false ((chk1_eq_false_iff cfg).2 hcap), Option.map_some]
  refine ⟨hfault, fun r i hd => ?_⟩
  exact step_of_halted (placeRequest_head? r _) hd ((placeRequest_fault r _).trans hfault)

end Sys2Proof.Machine
end

section
/-! PROOFS. The reset values construction leaves (10_state.md R39, R40; 70_reset_and_hazards.md R220). -/

namespace Sys2Proof.Machine

/-! ### The environment at reset -/

@[simp] theorem Env.reset_mem (mem : Memory) : (Env.reset mem).mem = mem := rfl
@[simp] theorem Env.reset_tx (mem : Memory) : (Env.reset mem).tx = [] := rfl
@[simp] theorem Env.reset_txFailed (mem : Memory) : (Env.reset mem).txFailed = false := rfl
@[simp] theorem Env.reset_wire (mem : Memory) : (Env.reset mem).wire = [] := rfl

/-- R220: a configuration that passes every check is constructed with `FAULT` clear. -/
theorem State.construct_fault_of_passes {cfg : Cfg} (h : failedCheck cfg = none) (mem : Memory) :
    (State.construct cfg mem).fault = none := by
  rw [State.construct_fault, h, Option.map_none]

/-- Settles O10: `FAULT` is the first failing check whatever the configuration; once none fails, every register holds its
reset value, and the chip's memory is the one found. -/
theorem constructSetsEveryRegister : Obligations.ConstructSetsEveryRegister := by
  intro cfg mem
  refine ⟨State.construct_cfg cfg mem, State.construct_fault cfg mem, fun hpass => ?_⟩
  have hfault := State.construct_fault_of_passes hpass mem
  have hghost : (State.construct cfg mem).ghost =
      { pubOff := 0, lastRP := 0, dirty := [], span := 0, haz := Hazards.none } := State.construct_ghost cfg mem
  simp only [State.construct_woff, State.construct_err, hfault, State.construct_reqIdx, hghost, State.construct_env,
    Env.reset_tx, Env.reset_txFailed, Env.reset_wire, Env.reset_mem, and_self]

end Sys2Proof.Machine
end

section
/-! PROOFS. A wait with no deadline: what one poll and one pass do, the pass as a step, and the run of the passes
(43_fifo_sync.md R192, R193, R195; 20_memory.md R90). -/

namespace Sys2Proof.Machine

/-! ### One poll -/

theorem Env.works_fewer {e : Env} {n k : Nat} (h : e.works n) (hk : k ≤ n) : e.works k :=
  fun j hj => h j (Nat.lt_of_lt_of_le hj hk)

/-- How an atomic poll of the pointer register `reg` ends: with a failed call, or with a value, which is the register's where
the consumer cannot change it. -/
inductive PollOutcome (reg : Nat) (s : State) : (Status × Word) × State → Prop
  | fails (r : Reason) (v : Word) (s1 : State) : Acts (fun _ => False) s s1 → ¬ s.env.works 3 →
      PollOutcome reg s ((.err r, v), s1)
  | answers (v : Word) (s1 : State) : Acts (fun _ => False) s s1 → s1.err = .ok →
      (∀ k, s1.env.peekCall k = s.env.peekCall (k + 3)) →
      (∀ x, (∀ m, Drift s.cfg s.env.mem m → m.readLE reg 4 = some x) → v = BitVec.ofNat 32 x) →
      PollOutcome reg s ((.ok, v), s1)

theorem pollPtr_outcome (reg : Nat) (s : State) (hi : s.Inv) (he : s.err = .ok) (hat : s.cfg.atomicPtrRead = true)
    (hr : reg < addrLimit) : PollOutcome reg s (pollPtr reg s) := by
  have hA := pollPtr_acts reg s hi.tx_closed
  obtain ⟨m1, m2, l, hd, -, -, -, -, -, hval, -, hcalls⟩ :=
    sendRead_cases s.cfg s.ghost.haz.any (BitVec.ofNat 22 reg) 4 s.env (openTx_of_closed hi.tx_closed)
  rw [BitVec.toNat_ofNat, Nat.mod_eq_of_lt hr] at hval
  unfold pollPtr at hA ⊢
  rw [(cfgFacts hi.configured).ptrBytes_eq] at hA ⊢
  cases hs : (sendRead s.cfg s.ghost.haz.any (BitVec.ofNat 22 reg) 4 s.env).1 with
  | error r =>
    rw [doRead_error _ _ _ he r hs] at hA ⊢
    refine .fails r 0 _ hA fun hw => ?_
    obtain ⟨⟨got, hgot⟩, -⟩ := sendRead_works s.cfg s.ghost.haz.any (BitVec.ofNat 22 reg) 4 s.env
      (openTx_of_closed hi.tx_closed) hw
    exact absurd (hs.symm.trans hgot) (by simp)
  | ok got =>
    rw [doRead_ok _ _ _ he got hs] at hA ⊢
    refine .answers _ _ hA he (hcalls got hs) fun x hx => ?_
    have hv := hx m1 hd
    rw [hval (mayTear_of_atomic hat _ _) got hs x hv, fromLE_leBytes,
      Nat.mod_eq_of_lt ((Memory.readLE_eq_some_iff _ _ _ _).1 hv).1]

/-- With a transport that works and a consumer that stalls, a poll answers the register's value and the chip stays as it is. -/
theorem pollPtr_stalled_answers (reg v : Nat) (s : State) (hi : s.Inv) (he : s.err = .ok)
    (hat : s.cfg.atomicPtrRead = true) (hr : reg < addrLimit) (hw : s.env.works 3) (hm : ∀ k < 3, s.env.peekMove k = 0)
    (hv : s.env.mem.readLE reg 4 = some v) :
    ∃ s1, pollPtr reg s = ((.ok, BitVec.ofNat 32 v), s1) ∧ Acts (fun _ => False) s s1 ∧ s1.err = .ok ∧
      (∀ k, s1.env.peekCall k = s.env.peekCall (k + 3)) ∧ (∀ k, s1.env.peekMove k = s.env.peekMove (k + 3)) ∧
      s1.env.mem = s.env.mem := by
  obtain ⟨hval, hmem, hmoves⟩ := pollPtr_stalled reg v s hi he hat hr hw hm hv
  have hp := pollPtr_outcome reg s hi he hat hr
  generalize pollPtr reg s = p at hval hmem hmoves hp
  cases hp with
  | fails r v s1 hA hnw => exact absurd hw hnw
  | answers u s1 hA h1 hcalls _ => exact ⟨s1, by rw [← hval], hA, h1, hcalls, hmoves, hmem⟩

/-! ### A wait on the port -/

/-- The port offers the wait `i` with no deadline, which waits for RP to reach the value `w` of WP; the block is neither halted
nor poisoned. -/
structure Waiting (i : Instr) (w : Nat) (s : State) : Prop where
  offered : ∃ r, s.port.pending.head? = some r ∧ decode r = .ok i
  waits : i = .fifoWaitEmpty none ∨ ∃ e, i = .fifoWaitOffset e none ∧ operandOr s.woff e = w
  atomic : s.cfg.atomicPtrRead = true
  running : s.fault = none
  clean : s.err = .ok
  wp : s.wp = some w
  legal : w < s.cfg.fifoCap
  inv : s.Inv

section

variable {i : Instr} {w n k : Nat} {s t u s1 : State}

theorem Waiting.regRP_lt (h : Waiting i w s) : s.cfg.regRP < addrLimit := by
  have := (cfgFacts h.inv.configured).rp_in
  omega

theorem Waiting.regWP_lt (h : Waiting i w s) : s.cfg.regWP < addrLimit := by
  have := (cfgFacts h.inv.configured).wp_in
  omega

theorem Waiting.step_eq (h : Waiting i w s) : step s = thenConsumer (exec i s) := by
  obtain ⟨r, hr, hd⟩ := h.offered
  exact step_of_decode hr hd h.running

/-- The operation that waits is one pass of its loop. -/
theorem Waiting.exec_eq (h : Waiting i w s) :
    exec i s = .next (waitEmptyPass none s) ∨ exec i s = .next (waitOffsetPass w none s) := by
  rcases h.waits with rfl | ⟨e, rfl, rfl⟩
  · exact .inl (exec_waitEmpty none h.clean)
  · exact .inr (exec_waitOffset e none h.clean h.legal)

/-- Accesses that store nothing leave the wait waiting. -/
theorem Waiting.acts (h : Waiting i w s) (hA : Acts (fun _ => False) s s1) (he : s1.err = .ok) : Waiting i w s1 where
  offered := by rw [hA.port]; exact h.offered
  waits := by rw [hA.woff]; exact h.waits
  atomic := by rw [hA.cfg]; exact h.atomic
  running := hA.fault.trans h.running
  clean := he
  wp := by
    rw [← h.wp, State.wp, State.wp, hA.cfg]
    exact hA.mem.wp (cfgFacts h.inv.configured) fun _ hx => hx.elim
  legal := by rw [hA.cfg]; exact h.legal
  inv := hA.inv h.inv

/-- The consumer's turn leaves the wait waiting. -/
theorem Waiting.between (h : Waiting i w s) : Waiting i w s.between where
  offered := h.offered
  waits := h.waits
  atomic := h.atomic
  running := h.running
  clean := h.clean
  wp := by
    obtain ⟨m, rd, hb, -, hd⟩ := between_frame s
    rw [hb]
    exact (hd.wp (cfgFacts h.inv.configured)).trans h.wp
  legal := h.legal
  inv := between_inv h.inv

/-- Reading the clock leaves the wait waiting. -/
theorem Waiting.popTick (h : Waiting i w s) : Waiting i w { s with env := s.env.popTick } :=
  { h with inv := { h.inv with } }

/-- A poll of WP answers the value waited for. -/
theorem Waiting.wp_undrifted (h : Waiting i w s) (m : Memory)
    (hd : Drift s.cfg s.env.mem m) : m.readLE s.cfg.regWP 4 = some w :=
  (hd.wp (cfgFacts h.inv.configured)).trans h.wp

/-- Once RP has reached WP, a poll of RP answers the value waited for. -/
theorem Waiting.rp_undrifted (h : Waiting i w s) (hs : s.drained) (m : Memory)
    (hd : Drift s.cfg s.env.mem m) : m.readLE s.cfg.regRP 4 = some w :=
  hd.still (cfgFacts h.inv.configured) (Eq.trans hs h.wp) h.wp

/-! ### One pass -/

/-- How a pass of a wait with no deadline ends: a call fails, RP was found at WP, cancel is asserted, or it goes on, which a
pass that begins with RP at WP does not. -/
inductive PassOutcome (s : State) : State → Prop
  | fails (r : Reason) (s1 : State) : Acts (fun _ => False) s s1 → ¬ s.env.works 6 →
      PassOutcome s (s1.complete (.err r) .absent)
  | met (s1 : State) : Acts (fun _ => False) s s1 → PassOutcome s (s1.complete .ok .absent)
  | cancelled (s1 : State) : Acts (fun _ => False) s s1 → (s.env.peekTick 0).cancel = true →
      PassOutcome s ({ s1 with env := s1.env.popTick }.complete .timeout .absent)
  | goesOn (s1 : State) : Acts (fun _ => False) s s1 → s1.err = .ok → ¬ s.drained →
      (∃ d ≤ 6, ∀ k, s1.env.peekCall k = s.env.peekCall (k + d)) → PassOutcome s { s1 with env := s1.env.popTick }

/-- The test of the bound, after polls that did not find RP at WP. -/
theorem pollAgain_outcome (hA : Acts (fun _ => False) s s1) (he : s1.err = .ok) (hs : ¬ s.drained)
    (hcalls : ∃ d ≤ 6, ∀ k, s1.env.peekCall k = s.env.peekCall (k + d)) : PassOutcome s (pollAgain none s1) := by
  unfold pollAgain
  dsimp only
  split_ifs with hx
  · rw [hA.kept.expired, Env.expired_iff] at hx
    exact .cancelled s1 hA (by simpa using hx)
  · exact .goesOn s1 hA he hs hcalls

theorem Waiting.waitOffsetPass_outcome (h : Waiting i w s) : PassOutcome s (waitOffsetPass w none s) := by
  have hp := pollPtr_outcome _ s h.inv h.clean h.atomic h.regRP_lt
  unfold waitOffsetPass
  generalize pollPtr s.cfg.regRP s = p at hp
  cases hp with
  | fails r v s1 hA hw => exact .fails r s1 hA fun h6 => hw (Env.works_fewer h6 (by omega))
  | answers v s1 hA he hcalls hval =>
    dsimp only
    split_ifs with hv
    · exact .met s1 hA
    · refine pollAgain_outcome hA he (fun hs => hv ?_) ⟨3, by omega, hcalls⟩
      have hc := (cfgFacts h.inv.configured).fifo_in
      have hw := h.legal
      rw [hval w (h.rp_undrifted hs)]
      exact word_toNat_ofNat (by simp only [addrLimit] at hc; omega)

theorem Waiting.waitEmptyPass_outcome (h : Waiting i w s) : PassOutcome s (waitEmptyPass none s) := by
  have hp := pollPtr_outcome _ s h.inv h.clean h.atomic h.regRP_lt
  unfold waitEmptyPass
  generalize pollPtr s.cfg.regRP s = p at hp
  cases hp with
  | fails r v s1 hA hw => exact .fails r s1 hA fun h6 => hw (Env.works_fewer h6 (by omega))
  | answers v s1 hA he hcalls hval =>
    have h1 := h.acts hA he
    have hq := pollPtr_outcome _ s1 h1.inv he h1.atomic h1.regWP_lt
    dsimp only
    generalize pollPtr s1.cfg.regWP s1 = q at hq
    cases hq with
    | fails r u s2 hB hw => exact .fails r s2 (hA.trans hB) fun h6 => hw (Env.works_shift h6 hcalls (by omega))
    | answers u s2 hB he2 hcalls2 hval2 =>
      dsimp only
      split_ifs with huv
      · exact .met s2 (hA.trans hB)
      · refine pollAgain_outcome (hA.trans hB) he2 (fun hs => huv ?_) ⟨6, by omega, fun k => by rw [hcalls2, hcalls]⟩
        rw [hval w (h.rp_undrifted hs), hval2 w h1.wp_undrifted]

theorem Waiting.exec_outcome (h : Waiting i w s) : ∃ t, exec i s = .next t ∧ PassOutcome s t := by
  rcases h.exec_eq with hx | hx
  · exact ⟨_, hx, h.waitEmptyPass_outcome⟩
  · exact ⟨_, hx, h.waitOffsetPass_outcome⟩

/-! ### One step -/

/-- The wait has returned after `n` steps from `s`: with `OK` if the transport works and no cancel is asserted in them. -/
def ReturnedIn (n : Nat) (s t : State) : Prop :=
  ∃ st, t.port.results = s.port.results ++ [{ status := st, value := .absent }] ∧ t.reqIdx = s.reqIdx + 1 ∧
    (s.env.works (6 * n) → s.env.neverCancelled n → st = .ok)

theorem ReturnedIn.of_returns {st : Status} (h : s.Returns t st .absent)
    (hok : s.env.works 6 → (s.env.peekTick 0).cancel = false → st = .ok) : ReturnedIn 1 s t.between :=
  ⟨st, h.results, h.reqIdx, fun hw hn => hok hw (hn 0 (by omega))⟩

/-- A step after which the wait is still on the port: it has used up at most six answers of the transport, and one reading. -/
structure GoesOn (i : Instr) (w : Nat) (s t : State) : Prop where
  waiting : Waiting i w t
  port : t.port = s.port
  reqIdx : t.reqIdx = s.reqIdx
  calls : ∃ d ≤ 6, ∀ k, t.env.peekCall k = s.env.peekCall (k + d)
  ticks : ∀ k, t.env.peekTick k = s.env.peekTick (k + 1)

theorem GoesOn.works (h : GoesOn i w s t) (hw : s.env.works (6 * (n + 1))) : t.env.works (6 * n) := by
  obtain ⟨d, hd, hcalls⟩ := h.calls
  exact Env.works_shift hw hcalls (by omega)

theorem GoesOn.neverCancelled (h : GoesOn i w s t) (hn : s.env.neverCancelled (n + 1)) : t.env.neverCancelled n :=
  fun k hk => by rw [h.ticks]; exact hn (k + 1) (by omega)

theorem GoesOn.returnedIn (h : GoesOn i w s t) (hu : ReturnedIn n t u) : ReturnedIn (n + 1) s u := by
  obtain ⟨st, hres, hidx, hok⟩ := hu
  exact ⟨st, by rw [hres, h.port], by rw [hidx, h.reqIdx], fun hw hn => hok (h.works hw) (h.neverCancelled hn)⟩

/-- A pass that goes on, and the consumer's turn after it. -/
theorem Waiting.goesOn (h : Waiting i w s) (hA : Acts (fun _ => False) s s1)
    (he : s1.err = .ok) (hcalls : ∃ d ≤ 6, ∀ k, s1.env.peekCall k = s.env.peekCall (k + d)) :
    GoesOn i w s { s1 with env := s1.env.popTick }.between := by
  obtain ⟨-, -, hbc, hbt⟩ := between_kept { s1 with env := s1.env.popTick }
  obtain ⟨d, hd, hc⟩ := hcalls
  refine ⟨(h.acts hA he).popTick.between, hA.port, hA.reqIdx, ⟨d, hd, fun k => (hbc k).trans (hc k)⟩, fun k => ?_⟩
  rw [hbt]
  exact (s1.env.peekTick_popTick k).trans (Env.peekTick_congr hA.kept.ticks hA.kept.tickNo _)

/-- A step of a wait returns, or it goes on, and then RP was not at WP before it. -/
theorem Waiting.step_cases (h : Waiting i w s) :
    ∃ t, step s = .next t ∧ (ReturnedIn 1 s t ∨ ¬ s.drained ∧ GoesOn i w s t) := by
  obtain ⟨t, hx, ho⟩ := h.exec_outcome
  refine ⟨t.between, by rw [h.step_eq, hx, thenConsumer_next], ?_⟩
  cases ho with
  | fails r s1 hA hnw => exact .inl (.of_returns (hA.returns _ _) fun hw => absurd hw hnw)
  | met s1 hA => exact .inl (.of_returns (hA.returns _ _) fun _ _ => rfl)
  | cancelled s1 hA hc =>
    exact .inl (.of_returns (hA.returns_with s1.woff _ _ _) fun _ hn => by simp [hc] at hn)
  | goesOn s1 hA he hs hcalls => exact .inr ⟨hs, h.goesOn hA he hcalls⟩

/-! ### The run -/

theorem runFor_succ (h : step s = .next t) (n : Nat) : runFor (n + 1) s = runFor n t := by
  simp only [runFor, h]

/-- A wait has returned by step `n`, or none of the states before that step had RP at WP. -/
theorem Waiting.returns_or_undrained (n : Nat) (h : Waiting i w s) :
    (∃ k ≤ n, ∃ u, runFor k s = some u ∧ ReturnedIn k s u) ∨ ∀ k < n, ∃ u, runFor k s = some u ∧ ¬ u.drained := by
  induction n generalizing s with
  | zero => exact .inr fun k hk => absurd hk (by omega)
  | succ n ih =>
    obtain ⟨t, hst, hret | ⟨hs, hgo⟩⟩ := h.step_cases
    · exact .inl ⟨1, by omega, t, runFor_succ hst 0, hret⟩
    · rcases ih hgo.waiting with ⟨k, hk, u, hu, hret⟩ | hun
      · exact .inl ⟨k + 1, by omega, u, by rw [runFor_succ hst, hu], hgo.returnedIn hret⟩
      · refine .inr fun k hk => ?_
        cases k with
        | zero => exact ⟨s, rfl, hs⟩
        | succ k =>
          rw [runFor_succ hst]
          exact hun k (by omega)

/-- CHIP_DRAINS (R90): not every state of the run has RP away from WP. -/
theorem State.ChipDrains.not_always_undrained (h : s.ChipDrains) : ¬ ∀ n, ∃ u, runFor n s = some u ∧ ¬ u.drained := by
  intro hall
  obtain ⟨m, -, u, hu, hd⟩ := h.finite 0 fun k _ => h.fair k fun m _ => hall m
  obtain ⟨v, hv, hnd⟩ := hall m
  rw [hu] at hv
  cases hv
  exact hnd hd

theorem Waiting.returns_of_chipDrains (h : Waiting i w s) (hd : s.ChipDrains) :
    ∃ k u, runFor k s = some u ∧ ReturnedIn k s u := by
  by_contra hno
  refine hd.not_always_undrained fun n => ?_
  rcases h.returns_or_undrained (n + 1) with ⟨k, -, u, hu, hret⟩ | hun
  · exact absurd ⟨k, u, hu, hret⟩ hno
  · exact hun n (by omega)

theorem Waiting.returns_after_drained (h : Waiting i w s)
    (hu : runFor k s = some u) (hd : u.drained) : ∃ j ≤ k + 1, ∃ v, runFor j s = some v ∧ ReturnedIn j s v := by
  rcases h.returns_or_undrained (k + 1) with hret | hun
  · exact hret
  · obtain ⟨v, hv, hnd⟩ := hun k (by omega)
    rw [hu] at hv
    cases hv
    exact absurd hd hnd

/-! ### A consumer that stalls -/

/-- The turn of a consumer that stalls. -/
theorem between_stalled (s : State) (h : s.env.peekMove 0 = 0) : s.between = { s with env := s.env.popMove } := by
  rw [State.between, Env.gap_stalled _ _ _ h]

/-- The values of both pointer registers, RP short of WP: they differ as 32-bit words. -/
theorem Waiting.rp_ne (h : Waiting i w s) (hs : ¬ s.drained) :
    ∃ r, s.rp = some r ∧ (BitVec.ofNat 32 r).toNat ≠ w ∧ BitVec.ofNat 32 r ≠ BitVec.ofNat 32 w := by
  obtain ⟨r, hr⟩ := Option.isSome_iff_exists.1 h.inv.rp_written
  have hlt : r < 2 ^ 32 := ((Memory.readLE_eq_some_iff _ _ _ _).1 hr).1
  have hwlt : w < 2 ^ 32 := ((Memory.readLE_eq_some_iff _ _ _ _).1 h.wp).1
  have hne : r ≠ w := fun hrw => hs (by rw [State.drained, hr, h.wp, hrw])
  refine ⟨r, hr, by rwa [word_toNat_ofNat hlt], fun hw => hne ?_⟩
  simpa only [word_toNat_ofNat hlt, word_toNat_ofNat hwlt] using congrArg BitVec.toNat hw

/-- The polls of a pass with a transport that works and a consumer that stalls: they leave the chip as it is. -/
structure StalledPolls (s s1 : State) : Prop where
  acts : Acts (fun _ => False) s s1
  clean : s1.err = .ok
  mem : s1.env.mem = s.env.mem
  draws : ∃ d ≤ 6, (∀ k, s1.env.peekCall k = s.env.peekCall (k + d)) ∧ ∀ k, s1.env.peekMove k = s.env.peekMove (k + d)

/-- With a consumer that stalls short of WP, a pass goes on. -/
theorem Waiting.exec_stalled (h : Waiting i w s) (hw : s.env.works 6)
    (hn : s.env.neverCancelled 1) (hm : ∀ k < 6, s.env.peekMove k = 0) (hs : ¬ s.drained) :
    ∃ s1, exec i s = .next { s1 with env := s1.env.popTick } ∧ StalledPolls s s1 := by
  obtain ⟨r, hr, hoff, hword⟩ := h.rp_ne hs
  obtain ⟨s1, hp, hA, he, hcalls, hmoves, hmem⟩ := pollPtr_stalled_answers _ r s h.inv h.clean h.atomic h.regRP_lt
    (Env.works_fewer hw (by omega)) (fun k hk => hm k (by omega)) hr
  rcases h.exec_eq with hx | hx
  · have h1 := h.acts hA he
    obtain ⟨s2, hq, hB, he2, hcalls2, hmoves2, hmem2⟩ := pollPtr_stalled_answers _ w s1 h1.inv he h1.atomic h1.regWP_lt
      (Env.works_shift hw hcalls (by omega)) (fun k hk => by rw [hmoves]; exact hm _ (by omega)) h1.wp
    refine ⟨s2, ?_, hA.trans hB, he2, hmem2.trans hmem, 6, le_refl _, fun k => by rw [hcalls2, hcalls],
      fun k => by rw [hmoves2, hmoves]⟩
    rw [hx, ← pollAgain_never (hA.trans hB) 0 hn, waitEmptyPass]
    simp only [hp, hq, if_neg hword]
  · refine ⟨s1, ?_, hA, he, hmem, 3, by omega, hcalls, hmoves⟩
    rw [hx, ← pollAgain_never hA 0 hn, waitOffsetPass]
    simp only [hp, if_neg hoff]

/-- A step of a wait whose consumer stalls short of WP goes on, short of WP, and draws at most seven moves. -/
theorem Waiting.step_stalled (h : Waiting i w s) (hw : s.env.works 6)
    (hn : s.env.neverCancelled 1) (hm : ∀ k < 7, s.env.peekMove k = 0) (hs : ¬ s.drained) :
    ∃ t, step s = .next t ∧ GoesOn i w s t ∧ ¬ t.drained ∧
      ∃ d ≤ 7, ∀ k, t.env.peekMove k = s.env.peekMove (k + d) := by
  obtain ⟨s1, hx, hA, he, hmem, d, hd, hcalls, hmoves⟩ :=
    h.exec_stalled hw hn (fun k hk => hm k (by omega)) hs
  have hb := between_stalled { s1 with env := s1.env.popTick } ((hmoves 0).trans (hm _ (by omega)))
  refine ⟨_, by rw [h.step_eq, hx, thenConsumer_next], h.goesOn hA he ⟨d, hd, hcalls⟩, ?_, d + 1, by omega, fun k => ?_⟩
  · rw [hb]
    unfold State.drained State.rp State.wp at hs ⊢
    simp only [Env.popMove_mem, Env.popTick_mem, hmem, hA.cfg]
    exact hs
  · rw [hb]
    exact ((s1.env.popTick.peekMove_popMove k).trans (hmoves (k + 1))).trans (by rw [Nat.add_right_comm, Nat.add_assoc])

/-- A wait whose consumer stalls short of WP polls for as long as it does. -/
theorem Waiting.polls_while_stalled (n : Nat) (h : Waiting i w s)
    (hw : s.env.works (6 * n)) (hn : s.env.neverCancelled n) (hm : ∀ k < 7 * n, s.env.peekMove k = 0)
    (hs : ¬ s.drained) : ∃ u, runFor n s = some u ∧ u.port = s.port ∧ u.reqIdx = s.reqIdx ∧ ¬ u.drained := by
  induction n generalizing s with
  | zero => exact ⟨s, rfl, rfl, rfl, hs⟩
  | succ n ih =>
    obtain ⟨t, hst, hgo, ht, d, hd, hmoves⟩ := h.step_stalled (Env.works_fewer hw (by omega))
      (fun k hk => hn k (by omega)) (fun k hk => hm k (by omega)) hs
    obtain ⟨u, hu, hport, hidx, hun⟩ := ih hgo.waiting (hgo.works hw) (hgo.neverCancelled hn)
      (fun k hk => by rw [hmoves]; exact hm _ (by omega)) ht
    exact ⟨u, by rw [runFor_succ hst, hu], hport.trans hgo.port, hidx.trans hgo.reqIdx, hun⟩

end

/-- Settles O51: a pass that begins with RP at WP returns, so a wait that never returned would keep RP away from WP for ever,
against CHIP_DRAINS; and a pass of a stalled consumer leaves the chip, and so the wait, as it was. -/
theorem waitsReturnIfTheChipDrains : Obligations.WaitsReturnIfTheChipDrains := by
  intro s r i w hr hdec hat hf hwp hcap hwait hi he
  have h : Waiting i w s := ⟨⟨r, hr, hdec⟩, hwait, hat, hf, he, hwp, hcap, hi⟩
  refine ⟨fun hd => ?_, fun N hw hn hdrain => ?_, fun N hw hn hm hs => h.polls_while_stalled N hw hn hm hs⟩
  · obtain ⟨k, u, hu, st, hres, hidx, hok⟩ := h.returns_of_chipDrains hd
    exact ⟨k, u, st, hu, hres, hidx, hok⟩
  · obtain ⟨k, hk, u, hu, hd⟩ := hdrain
    obtain ⟨j, hj, v, hv, st, hres, hidx, hok⟩ := h.returns_after_drained hu hd
    have hst : st = .ok := hok (Env.works_fewer hw (by omega)) fun k hk => hn k (by omega)
    exact ⟨j, by omega, v, hv, hst ▸ hres, hidx⟩

end Sys2Proof.Machine
end

section
/-! PROOFS. The three header bytes: their layout, and the decoder that inverts them (30_encoding.md R100 to R104). -/

namespace Sys2Proof

/-- R101: the intent codes as numbers. -/
theorem Intent.code_toNat (i : Intent) : i.code.toNat = if i = .write then 2 else 0 := by cases i <;> rfl

/-- R104: what the header decoder accepts, and with which intent and address. -/
theorem unhdr_eq_ok_iff (b0 b1 b2 : Byte) (i : Intent) (a : DevAddr) :
    unhdr b0 b1 b2 = .ok (i, a) ↔ b0.toNat / 64 = i.code.toNat ∧ b0.extractLsb' 0 6 ++ b1 ++ b2 = a := by
  rw [unhdr_eq]
  split_ifs with hr hw
  · cases i <;> simp [hr, Intent.code_toNat]
  · cases i <;> simp [hw, Intent.code_toNat]
  · cases i <;> simp [hr, hw, Intent.code_toNat]

/-- Three bytes whose byte 0 carries the code of an intent are the header of that intent and of the other 22 bits. -/
theorem hdr_of_bytes {b0 : Byte} {i : Intent} (h : b0.toNat / 64 = i.code.toNat) (b1 b2 : Byte) :
    hdr (b0.extractLsb' 0 6 ++ b1 ++ b2) i = [b0, b1, b2] := by
  have ha := headerAddr_toNat b0 b1 b2
  have h1 := b1.isLt
  have h2 := b2.isLt
  have e0 : headerByte0 (b0.extractLsb' 0 6 ++ b1 ++ b2) i = b0 :=
    BitVec.eq_of_toNat_eq (by rw [headerByte0_toNat, ha]; omega)
  have e1 : headerByte1 (b0.extractLsb' 0 6 ++ b1 ++ b2) = b1 :=
    BitVec.eq_of_toNat_eq (by rw [headerByte1_toNat, ha]; omega)
  have e2 : headerByte2 (b0.extractLsb' 0 6 ++ b1 ++ b2) = b2 :=
    BitVec.eq_of_toNat_eq (by rw [headerByte2_toNat, ha]; omega)
  rw [hdr, e0, e1, e2]

/-- Settles O1: each byte is known as a number, so the layout is arithmetic; `|||` with `0x80` is an addition because the
address part of byte 0 is below `2^7`. -/
theorem headerLayout : Obligations.HeaderLayout := by
  refine ⟨rfl, rfl, fun a i => ⟨headerByte0 a i, headerByte1 a, headerByte2 a, rfl, ?_⟩⟩
  have ha := a.isLt
  have hor : 0x80 + a.toNat / 65536 = 0x80 ||| a.toNat / 65536 :=
    Nat.two_pow_add_eq_or_of_lt (show a.toNat / 65536 < 2 ^ 7 by omega) 1
  rw [headerByte0_toNat, headerByte1_toNat, headerByte2_toNat]
  refine ⟨by omega, by omega, by omega, rfl, rfl, ?_, ?_⟩
  · rintro rfl
    exact hor
  · rintro rfl
    rw [Intent.code_toNat, if_neg (by simp), Nat.zero_mul, Nat.zero_add]

/-- Settles O2: the decoder accepts exactly the two intent codes, and the framer's byte 0 carries one of them. -/
theorem headerRoundTrip : Obligations.HeaderRoundTrip := by
  refine ⟨fun a i => ?_, fun b0 b1 b2 i a h => ?_, fun b0 b1 b2 h => ?_, fun b0 b1 b2 h => ?_, fun a i => ?_⟩
  · rw [unhdr_eq_ok_iff, ← intentBits_toNat, headerByte0_intent]
    exact ⟨rfl, header_addr a i⟩
  · obtain ⟨hcode, rfl⟩ := (unhdr_eq_ok_iff b0 b1 b2 i a).1 h
    exact ⟨hdr_of_bytes hcode b1 b2, hcode, headerAddr_toNat b0 b1 b2⟩
  · rw [unhdr_eq, if_neg (by omega), if_neg (by omega)]
  · rcases h with h | h
    · exact ⟨.read, _, (unhdr_eq_ok_iff ..).2 ⟨h, rfl⟩⟩
    · exact ⟨.write, _, (unhdr_eq_ok_iff ..).2 ⟨h, rfl⟩⟩
  · rw [← intentBits_toNat, headerByte0_intent]
    cases i <;> decide

end Sys2Proof
end

section
/-! PROOFS. The requests the decoder refuses (30_encoding.md R111, R113). -/

namespace Sys2Proof.Machine

/-- R111: the sixteen op codes from `0x10` on are refused by name. -/
theorem decode_of_reserved {r : Request} (h : 16 ≤ r.op.toNat) : decode r = .error (.reservedOp r.op) := by
  obtain ⟨k, hk⟩ := Nat.exists_eq_add_of_le' h
  unfold decode decodeOp
  rw [hk]
  rfl

/-- R110: a request whose op code is in the table carries the operands of one operation, if it carries both `data` and
`off`. -/
theorem exists_carries_of_present {r : Request} (hop : r.op.toNat < 16) (hdata : r.data.isSome = true)
    (hoff : r.off.isSome = true) : ∃ i : Instr, r.op = i.opcode ∧ carries r i := by
  obtain ⟨d, hd⟩ := Option.isSome_iff_exists.1 hdata
  obtain ⟨o, ho⟩ := Option.isSome_iff_exists.1 hoff
  have hr : r.op = BitVec.ofNat 5 r.op.toNat := by simp
  generalize r.op.toNat = n at hop hr
  interval_cases n
  · exact ⟨.rd8 r.addr, hr, rfl⟩
  · exact ⟨.rd16 r.addr, hr, rfl⟩
  · exact ⟨.rd32 r.addr, hr, rfl⟩
  · exact ⟨.wr8 r.addr d, hr, rfl, hd⟩
  · exact ⟨.wr16 r.addr d, hr, rfl, hd⟩
  · exact ⟨.wr32 r.addr d, hr, rfl, hd⟩
  · exact ⟨.hostcmd d, hr, hd⟩
  · exact ⟨.errq, hr, trivial⟩
  · exact ⟨.errclr, hr, trivial⟩
  · exact ⟨.dlappend o d, hr, ho, hd⟩
  · exact ⟨.fifoWord r.off d, hr, rfl, hd⟩
  · exact ⟨.fifoCmd r.off d r.words, hr, rfl, hd, rfl⟩
  · exact ⟨.fifoText r.off r.x r.y r.font r.options r.text, hr, rfl, rfl, rfl, rfl, rfl, rfl⟩
  · exact ⟨.fifoPublish r.data, hr, rfl⟩
  · exact ⟨.fifoWaitEmpty r.deadline, hr, rfl⟩
  · exact ⟨.fifoWaitOffset r.data r.deadline, hr, rfl, rfl⟩

/-- R109, R110: the op code and the operands name the operation; the other fields do not matter. -/
theorem decodeOp_of_carries {r : Request} {i : Instr} (hop : r.op = i.opcode) (hc : carries r i) :
    decodeOp r = .ok i := by
  cases i <;> simp only [carries] at hc <;>
    simp [decodeOp, hop, Instr.opcode, hc, required, Except.map, Except.bind]

theorem decode_of_carries {r : Request} {i : Instr} (hop : r.op = i.opcode) (hc : carries r i) :
    decode r = if i.wellFormed then .ok i else .error .operandTooWide := by
  rw [decode, decodeOp_of_carries hop hc]
  rfl

/-- R113: an operand of the request is too wide for its field. -/
def TooWide (r : Request) : Prop :=
  (r.op = 0x03 ∧ ∃ d, r.data = some d ∧ 2 ^ 8 ≤ d.toNat) ∨
    (r.op = 0x04 ∧ ∃ d, r.data = some d ∧ 2 ^ 16 ≤ d.toNat) ∨
    (r.op = 0x06 ∧ ∃ d, r.data = some d ∧ 2 ^ 8 ≤ d.toNat) ∨
    (r.op = 0x0C ∧
      (r.x < -32768 ∨ 32767 < r.x ∨ r.y < -32768 ∨ 32767 < r.y ∨ 2 ^ 16 ≤ r.font ∨ 2 ^ 16 ≤ r.options))

/-- R109, R113: the operands of `FIFO_TEXT` that have a range of their own. -/
theorem fifoText_wellFormed_eq_false_iff (off : Option Word) (x y : Int) (font options : Nat) (text : List Byte) :
    (Instr.fifoText off x y font options text).wellFormed = false ↔
      x < -32768 ∨ 32767 < x ∨ y < -32768 ∨ 32767 < y ∨ 2 ^ 16 ≤ font ∨ 2 ^ 16 ≤ options := by
  simp only [Instr.wellFormed, isInt16, fitsBits, Bool.and_eq_false_iff, decide_eq_false_iff_not]
  omega

/-- Only `WR8`, `WR16`, `HOSTCMD` and `FIFO_TEXT` have operands narrower than their request fields. -/
theorem wellFormed_eq_false_iff {r : Request} {i : Instr} (hop : r.op = i.opcode) (hc : carries r i) :
    i.wellFormed = false ↔ TooWide r := by
  cases i <;> simp only [carries] at hc
  case fifoText => simp [TooWide, hop, Instr.opcode, hc, fifoText_wellFormed_eq_false_iff]
  all_goals simp [TooWide, hop, Instr.opcode, hc, Instr.wellFormed, fitsBits]

/-- R111, R113: the step answers a request the decoder rejects with its refusal, whatever the state. -/
theorem step_of_rejected {s : State} {r : Request} {e : Reject} (h : s.port.pending.head? = some r)
    (hd : decode r = .error e) : step s = .refused (refusalOf e) := by
  simp [step, fetch, h, hd]

/-- Settles O6: a request that carries its operands decodes to the operation it names or, exactly where that one is not well
formed, to the refusal for a wide operand. -/
theorem badRequestsAreRefused : Obligations.BadRequestsAreRefused := by
  refine ⟨fun s r hr hop => step_of_rejected hr (decode_of_reserved hop), fun r hop hdata hoff => ?_,
    fun s r hr hd => step_of_rejected hr hd⟩
  obtain ⟨i, hi, hc⟩ := exists_carries_of_present hop hdata hoff
  have hwide := wellFormed_eq_false_iff hi hc
  rw [decode_of_carries hi hc]
  cases hw : i.wellFormed with
  | true => exact ⟨.inl ⟨i, rfl⟩, by simp, fun h => absurd (hw.symm.trans (hwide.2 h)) (by simp)⟩
  | false => exact ⟨.inr rfl, fun _ => hwide.1 hw, fun _ => rfl⟩

end Sys2Proof.Machine
end

section
/-! PROOFS. The transactions of the read, write and host-command operations (30_encoding.md R105 to R107; 40_transactions.md
R142 to R148). -/

namespace Sys2Proof.Machine

theorem MemActs.memKept {cfg : Cfg} {P : Nat → Prop} {m m' : Memory} (h : MemActs cfg P m m') : MemKept cfg P m m' :=
  h.outside

/-! ### Reads -/

/-- Where the bytes at `a` hold a value, an answer that agrees with them byte by byte is that value's. -/
theorem eq_leBytes_of_bytes {m : Memory} {a n v : Nat} {got : List Byte} (hl : got.length = n)
    (hv : m.readLE a n = some v) (h : ∀ k < n, ∀ b, m.read (a + k) = some b → got[k]? = some b) :
    got = leBytes n v := by
  obtain ⟨-, hbytes⟩ := (Memory.readLE_eq_some_iff m a n v).1 hv
  refine List.ext_getElem? fun k => ?_
  by_cases hk : k < n
  · have hb := leBytes_getElem? n v k hk
    rw [hb]
    exact h k hk _ ((hbytes k hk).trans hb)
  · rw [List.getElem?_eq_none (by omega), List.getElem?_eq_none (by rw [leBytes_length]; omega)]

/-- Settles O19: the answer is, byte by byte, what the device held at some moment of the call, and away from RP the consumer
changes none of that. -/
theorem readsReturnTheDeviceValue : Obligations.ReadsReturnTheDeviceValue := by
  intro i a n s hi hb ⟨hinv, he, hw⟩
  have hpos := hi.pos
  have hA := doRead_acts a n s hinv.tx_closed
  obtain ⟨m1, m2, got, -, -, hlen, hval, herr, -, -, hwire, htx, -, -, -, callNo, hbytes⟩ :=
    doRead_works a n s hinv.tx_closed he (by simp only [addrLimit]; omega) hw
  have hdev : ∀ k < n, ¬ onRP s.cfg (a + k) → ∀ b, s.env.mem.read (a + k) = some b → got[k]? = some b := by
    intro k hk hrp b hread
    obtain ⟨m, hdrift, hgot⟩ := hbytes k hk
    rw [hgot, hdrift.outside _ hrp, hread]
    rfl
  refine ⟨_, got, exec_read hi s hb, hlen, ?_, hwire, hdev, fun hrp v hv => ?_, herr, hA.woff, hA.mem.memKept, htx,
    hA.kept.clock⟩
  · rw [returnRead, hval]
    exact hA.returns _ _
  · have hgot : got = leBytes n v :=
      eq_leBytes_of_bytes hlen hv fun k hk => hdev k hk (hrp _ ⟨Nat.le_add_right a k, Nat.add_lt_add_left hk a⟩)
    refine ⟨hgot, ?_⟩
    rw [hgot, fromLE_leBytes, Nat.mod_eq_of_lt ((Memory.readLE_eq_some_iff ..).1 hv).1]

/-! ### Writes -/

/-- Settles O23: the payload is committed after the consumer's last turn, so its bytes stand at the end. -/
theorem writesStoreTheirBytes : Obligations.WritesStoreTheirBytes := by
  intro i a n v s hi hb ⟨hinv, he, hw⟩
  have hpos := hi.pos
  have ha : a < addrLimit := by simp only [addrLimit]; omega
  have hA := doWrite_acts a n v s hinv.tx_closed ha
  obtain ⟨m, -, hst, herr, hmem, -, hwire, htx, -, -⟩ := doWrite_works a n v s hinv.tx_closed he ha hw
  refine ⟨_, exec_write hi s hb, ?_, hwire, fun k hk => ?_, hA.mem.memKept, herr, hA.woff, htx, hA.kept.clock⟩
  · rw [returnStatus, hst]
    exact hA.returns _ _
  · calc (doWrite a n v s).2.env.mem.read (a + k) = (leBytes n v)[k]? := by
          rw [hmem, Memory.read_writeBytes_of_lt _ _ _ _ (by simpa using hk) (by simpa using hb)]
      _ = some (BitVec.ofNat 8 (v / 256 ^ k)) := leBytes_getElem? n v k hk

/-! ### Host commands -/

/-- The body of `HOSTCMD` with a clean error register. -/
theorem doCommand_eq (c : Byte) (s : State) (h : s.err = .ok) :
    doCommand c s = (statusOf (sendCommand s.cfg s.ghost.haz.any c s.env).1,
      { s with
        env := (sendCommand s.cfg s.ghost.haz.any c s.env).2
        err := errOf (sendCommand s.cfg s.ghost.haz.any c s.env).1 }) := by
  rw [← errOf_status, ← accessed_eq _ s h]
  simp only [doCommand, h]

/-- R148: the state after `HOSTCMD`, whose one access sends the command's low byte. -/
def afterCommand (c : Word) (s : State) : State := returnStatus (doCommand (BitVec.ofNat 8 c.toNat) s)

theorem exec_hostcmd (c : Word) (s : State) : exec (.hostcmd c) s = .next (afterCommand c s) := by
  rw [afterCommand, BitVec.ofNat_toNat]
  rfl

/-- What `HOSTCMD` does, by the reason `out` its transaction stopped for and the calls `l` it made. -/
structure CommandDone (c : Byte) (out : Option Reason) (l : List TxCall) (s t : State) : Prop where
  trace : CommandTrace c out l
  wire : t.env.wire = s.env.wire ++ l
  returns : s.Returns t (statusOf out) .absent
  err : t.err = errOf out
  woff : t.woff = s.woff
  ghost : t.ghost = s.ghost
  mem : MemKept s.cfg nowhere s.env.mem t.env.mem
  clock : t.env.clock = s.env.clock
  closed : out = none → t.env.tx = []

theorem afterCommand_done (c : Word) (s : State) (hi : s.Inv) (he : s.err = .ok) :
    ∃ l, CommandDone (BitVec.ofNat 8 c.toNat)
      (sendCommand s.cfg s.ghost.haz.any (BitVec.ofNat 8 c.toNat) s.env).1 l s (afterCommand c s) := by
  have hA := doCommand_acts (BitVec.ofNat 8 c.toNat) s hi.tx_closed
  obtain ⟨m, l, -, hdone, -, hwire, htrace⟩ :=
    sendCommand_cases s.cfg s.ghost.haz.any (BitVec.ofNat 8 c.toNat) s.env (openTx_of_closed hi.tx_closed)
  unfold afterCommand returnStatus
  rw [doCommand_eq _ _ he] at hA ⊢
  exact ⟨l, htrace, hwire, hA.returns _ _, rfl, rfl, rfl, hA.mem.memKept, hA.kept.clock,
    fun h => hdone.closed (by rw [h]; rfl)⟩

/-- Settles O28: the transaction stops at its first failing call, and with a transport that works for two calls none fails. -/
theorem hostCommandSendsOneByte : Obligations.HostCommandSendsOneByte := by
  refine ⟨fun c s _ ⟨hi, he, hw⟩ => ?_, fun c s hi he => ?_⟩
  · obtain ⟨l, h⟩ := afterCommand_done c s hi he
    rw [sendCommand_works _ _ _ _ hw] at h
    obtain ⟨⟩ := h.trace
    exact ⟨_, exec_hostcmd c s, h.returns, h.wire, h.mem, h.err, h.woff, h.ghost, h.closed rfl, h.clock⟩
  · obtain ⟨l, h⟩ := afterCommand_done c s hi he
    exact ⟨_, _, l, exec_hostcmd c s, h.trace, h.wire, h.returns, h.err, h.woff, h.ghost, h.mem⟩

end Sys2Proof.Machine
end

section
/-! PROOFS. The error register: the two operations on it, and the first failure kept and returned by every other
(40_transactions.md R141, R149, R150; 10_state.md R32). -/

namespace Sys2Proof.Machine

/-! ### Returning -/

theorem State.returns_complete (s : State) (st : Status) (v : Value) : s.Returns (s.complete st v) st v :=
  ⟨rfl, rfl, rfl, rfl, rfl⟩

/-- An operation returns one status. -/
theorem State.Returns.status_eq {s t : State} {st st' : Status} {v v' : Value} (h : s.Returns t st v)
    (g : s.Returns t st' v') : st = st' := by
  have hr := h.results.symm.trans g.results
  simp only [List.append_cancel_left_eq, List.cons.injEq, Response.mk.injEq] at hr
  exact hr.1.1

/-- An operation that has returned has moved `REQ_IDX`. -/
theorem State.Returns.reqIdx_ne {s t : State} {st : Status} {v : Value} (h : s.Returns t st v) : t.reqIdx ≠ s.reqIdx := by
  rw [h.reqIdx]
  exact Nat.succ_ne_self _

theorem exec_errq (s : State) : exec .errq s = .next (s.complete .ok (.error s.err)) := rfl

/-- Settles O18: both operations complete at once, and `ERRCLR` changes `ERR` alone before it does. -/
theorem errorRegisterOperations : Obligations.ErrorRegisterOperations := fun s =>
  ⟨⟨_, exec_errq s, s.returns_complete _ _, rfl, rfl, rfl, rfl⟩,
    ⟨_, exec_errclr s, ⟨rfl, rfl, rfl, rfl, rfl⟩, rfl, rfl, rfl, rfl⟩⟩

/-! ### How an operation ends, by what its accesses left in the error register -/

/-- Where the accesses leave an error, the operation returns it and reads no clock; `ERRQ`, which makes no access, apart. -/
theorem OpEnds.returns_error {i : Instr} {s s1 t : State} {P : Nat → Prop} {r : Reason} (h : OpEnds i s s1 t)
    (ha : Acts P s s1) (hr : s1.err = .failed r) :
    (i = .errq ∧ s1 = s) ∨ t.env = s1.env ∧ ∃ v, s.Returns t (.err r) v := by
  cases h with
  | queried hi hs => exact .inl ⟨hi, hs⟩
  | returned o v =>
    have hret := ha.returns_with o s1.env s1.err.status v
    exact .inr ⟨rfl, v, Err.status_eq_err.2 hr ▸ hret⟩
  | timedOut _ hok => exact absurd (hr.symm.trans hok) (by simp)
  | goesOn _ hok => exact absurd (hr.symm.trans hok) (by simp)

/-- Where the accesses leave no error, the operation returns none. -/
theorem OpEnds.not_returns_error {i : Instr} {s s1 t : State} {P : Nat → Prop} (h : OpEnds i s s1 t)
    (ha : Acts P s s1) (hok : s1.err = .ok) (r : Reason) (v : Value) : ¬ s.Returns t (.err r) v := by
  intro hret
  cases h with
  | queried => exact absurd (hret.status_eq (s.returns_complete _ _)) (by simp)
  | returned o v' =>
    have hst : Status.err r = s1.err.status := hret.status_eq (ha.returns_with o s1.env _ v')
    exact absurd (hok.symm.trans (Err.status_eq_err.1 hst.symm)) (by simp)
  | timedOut => exact absurd (hret.status_eq (ha.returns_with s1.woff s1.env.popTick .timeout .absent)) (by simp)
  | goesOn => exact hret.reqIdx_ne ha.reqIdx

/-- Settles O17: a fault and `ERRCLR` latch no error, the accesses of any other operation keep one that is latched and then
send nothing, and the operation returns what they leave in the error register. -/
theorem firstFailureWins : Obligations.FirstFailureWins := by
  intro i s t hinv hexec
  rcases exec_next (cfgFacts hinv.configured) hinv.tx_closed hexec with
    ⟨f, hf, rfl⟩ | ⟨rfl, rfl⟩ | ⟨s1, -, -, ha, hends⟩
  · -- a fault
    have herr : (s.raiseFault f).err = s.err := s.raiseFault_err f
    refine ⟨fun r hr _ => herr.trans hr, fun _ _ _ _ hn => ?_, fun r hok hr => ?_, fun _ _ r v hret => ?_⟩
    · exact absurd (hf.symm.trans hn) (by simp)
    · exact absurd (hok.symm.trans (herr.symm.trans hr)) (by simp)
    · exact hret.reqIdx_ne (s.raiseFault_reqIdx f)
  · -- `ERRCLR`
    refine ⟨fun _ _ hi => absurd rfl hi, fun _ _ hi => absurd rfl hi, fun r _ hr => ?_, fun _ _ r v hret => ?_⟩
    · exact absurd hr (by simp)
    · exact absurd (hret.status_eq (v' := .absent) ⟨rfl, rfl, rfl, rfl, rfl⟩) (by simp : Status.err r ≠ .ok)
  · -- the accesses and the end of an operation
    have herr : t.err = s1.err := hends.same.2.1
    refine ⟨fun r hr _ => herr.trans (ha.poisoned r hr).1, fun r hr _ hi _ => ?_, fun r hok hr => ?_,
      fun _ hok r v => hends.not_returns_error ha (herr.symm.trans hok) r v⟩
    · obtain ⟨hr1, henv⟩ := ha.poisoned r hr
      rcases hends.returns_error ha hr1 with ⟨hq, -⟩ | ⟨henv1, hret⟩
      · exact absurd hq hi
      · exact ⟨henv1.trans henv, hret⟩
    · have hr1 : s1.err = .failed r := herr.symm.trans hr
      rcases hends.returns_error ha hr1 with ⟨-, rfl⟩ | ⟨-, hret⟩
      · exact absurd (hok.symm.trans hr1) (by simp)
      · exact hret

end Sys2Proof.Machine
end

section
/-! PROOFS. The display-list writer: the overflow record, then one write at `DL_BASE + off` (41_display_list.md R160, R161;
70_reset_and_hazards.md R231). -/

namespace Sys2Proof.Machine

/-! ### The overflow record -/

/-- R231: the check records an overflow exactly where the region has a given size and the word reaches past it. -/
theorem dlOverflowCheck_dlOverflow (cfg : Cfg) (off : Nat) (g : Ghost) :
    (dlOverflowCheck cfg off g).haz.dlOverflow = true ↔
      g.haz.dlOverflow = true ∨ ∃ cap, cfg.dlCap = some cap ∧ cap < off + 4 := by
  unfold dlOverflowCheck
  cases cfg.dlCap with
  | none => simp
  | some cap =>
    have hflag := Ghost.flagIf_has (decide (cap < off + 4)) .dlOverflow .dlOverflow g
    change (g.flagIf _ .dlOverflow).haz.dlOverflow = (_ || g.haz.dlOverflow) at hflag
    rw [hflag]
    simp [or_comm]

/-- The access itself records no display-list overflow, whatever `ERR` holds. -/
theorem doWrite_dlOverflow (a n v : Nat) (s : State) :
    (doWrite a n v s).2.ghost.haz.dlOverflow = s.ghost.haz.dlOverflow := by
  cases he : s.err with
  | ok =>
    rw [doWrite_ghost _ _ _ _ he]
    exact ghostWrite_other s.cfg a n v s.ghost .dlOverflow (by simp) (by simp) (by simp) (by simp)
  | failed r => rw [doWrite_poisoned _ _ _ _ r he]

/-! ### The operation -/

/-- The state in which `DLAPPEND` makes its access: the overflow is recorded before anything is sent (R160). -/
def dlChecked (off : Word) (s : State) : State := { s with ghost := dlOverflowCheck s.cfg off.toNat s.ghost }

/-- The access of `DLAPPEND`, at the unreduced address (R161). -/
def dlWrite (off w : Word) (s : State) : Status × State := doWrite (dlAddr s.cfg off.toNat) 4 w.toNat (dlChecked off s)

/-- Where the word lies inside the device, `DLAPPEND` returns the status of its access and `off + 4`. -/
theorem exec_dlappend {off : Word} {s : State} (hb : s.cfg.dlBase + off.toNat + 4 ≤ 2 ^ 22) (w : Word) :
    exec (.dlappend off w) s =
      .next ((dlWrite off w s).2.complete (dlWrite off w s).1 (.offset (off.toNat + 4))) :=
  checked_of_none ((addrFault_eq_none_iff (by decide)).2 hb)

theorem dlAddr_lt {off : Word} {cfg : Cfg} (hb : cfg.dlBase + off.toNat + 4 ≤ 2 ^ 22) :
    dlAddr cfg off.toNat < addrLimit := by
  simp only [dlAddr, addrLimit]
  omega

/-- The overflow record and the access, as one sequence of accesses to the word's four bytes. -/
theorem dlWrite_acts {off : Word} {s : State} (hc : s.env.Closed) (hb : s.cfg.dlBase + off.toNat + 4 ≤ 2 ^ 22) (w : Word) :
    Acts (within (dlAddr s.cfg off.toNat) 4) s (dlWrite off w s).2 := by
  have hcheck : Acts (within (dlAddr s.cfg off.toNat) 4) s (dlChecked off s) :=
    .of_ghost _ hc (fun _ => dlOverflowCheck_haz _ _ _ _) fun g => dlOverflowCheck_ok _ _ g
  exact hcheck.trans (doWrite_acts _ 4 w.toNat (dlChecked off s) hc (dlAddr_lt hb))

/-- R160, R231: the overflow hazard after the access, whatever `ERR` holds and whatever the transport answers. -/
theorem dlWrite_dlOverflow (off w : Word) (s : State) :
    (dlWrite off w s).2.ghost.haz.dlOverflow = true ↔
      s.ghost.haz.dlOverflow = true ∨ ∃ cap, s.cfg.dlCap = some cap ∧ cap < off.toNat + 4 := by
  rw [dlWrite, doWrite_dlOverflow]
  exact dlOverflowCheck_dlOverflow s.cfg off.toNat s.ghost

/-- Settles O29: the overflow record changes the ghost alone, so the access that follows is a plain 4-byte write, whose
payload is committed after the consumer's last turn. -/
theorem dlappendStoresTheWord : Obligations.DlappendStoresTheWord := by
  intro off w s hb ⟨hinv, he, hw⟩
  have hA := dlWrite_acts hinv.tx_closed hb w
  obtain ⟨m, -, hst, herr, hmem, -, hwire, htx, -, -⟩ :=
    doWrite_works (dlAddr s.cfg off.toNat) 4 w.toNat (dlChecked off s) hinv.tx_closed he (dlAddr_lt hb) hw
  refine ⟨_, exec_dlappend hb w, ?_, hwire, fun k hk => ?_, hA.mem.memKept, dlWrite_dlOverflow off w s, herr, hA.woff, htx,
    hA.kept.clock⟩
  · rw [dlWrite, hst]
    exact hA.returns _ _
  · calc (dlWrite off w s).2.env.mem.read (dlAddr s.cfg off.toNat + k) = (leBytes 4 w.toNat)[k]? := by
          rw [dlWrite, hmem, Memory.read_writeBytes_of_lt _ _ _ _ (by simpa using hk) (by rw [leBytes_length]; exact hb)]
      _ = some (BitVec.ofNat 8 (w.toNat / 256 ^ k)) := leBytes_getElem? 4 w.toNat k hk

end Sys2Proof.Machine
end

section
/-! PROOFS. Writes and appends that a failing call cuts short: the calls made, and the prefix of the bytes that the device has
stored (40_transactions.md R140, R141; 20_memory.md R87; 42_fifo_writer.md R172). -/

namespace Sys2Proof.Machine

/-! ### What the device has stored -/

/-- The memory `m` has become `m'` by storing the first `j` little-endian bytes of `v` from `a` on, and by what the consumer did
to RP (R87). -/
structure PrefixStored (cfg : Cfg) (a v j : Nat) (m m' : Memory) : Prop where
  bytes : ∀ k < j, m'.read (a + k) = some (BitVec.ofNat 8 (v / 256 ^ k))
  kept : MemKept cfg (within a j) m m'

/-- The bytes are committed after the consumer's last turn. -/
theorem PrefixStored.of_writeBytes {cfg : Cfg} {a n v j : Nat} {m m1 : Memory} (hd : Drift cfg m m1) (hj : j ≤ n)
    (hb : a + n ≤ addrLimit) : PrefixStored cfg a v j m (m1.writeBytes a ((leBytes n v).take j)) := by
  have hl : ((leBytes n v).take j).length = j := by rw [List.length_take, leBytes_length, Nat.min_eq_left hj]
  refine ⟨fun k hk => ?_, fun x hx hrp => ?_⟩
  · calc (m1.writeBytes a ((leBytes n v).take j)).read (a + k) = ((leBytes n v).take j)[k]? :=
          Memory.read_writeBytes_of_lt _ _ _ _ (by omega) (by omega)
      _ = some (BitVec.ofNat 8 (v / 256 ^ k)) := by
          rw [List.getElem?_take_of_lt hk, leBytes_getElem? n v k (by omega)]
  · rw [Memory.read_writeBytes_of_not_mem, hd.outside x hrp]
    simp only [within] at hx
    omega

/-! ### One write transaction -/

theorem devAddr_toNat_of_lt {a : Nat} (ha : a < addrLimit) : (BitVec.ofNat 22 a).toNat = a := by
  rw [BitVec.toNat_ofNat]
  exact Nat.mod_eq_of_lt ha

/-- R87: a payload call that fails leaves as many of its bytes in the device as the transport's answer says. -/
theorem sendWrite_payloadFails (cfg : Cfg) (z : Bool) (a : DevAddr) (p : List Byte) (e : Env) (x : TxError)
    (ho : e.openTx = []) (h1 : (e.peekCall 0).fails = none) (h2 : (e.peekCall 1).fails = some x) :
    ∃ m, Drift cfg e.mem m ∧ (sendWrite cfg z a p e).1 = some (.eWrite x) ∧
      (sendWrite cfg z a p e).2.mem = m.writeBytes a.toNat (p.take (e.peekCall 1).commit) := by
  obtain ⟨m1, d1, -, f1, -, t1, x1, p1, y1⟩ := txWrite_cases cfg z (hdr a .write) e
  obtain ⟨m2, d2, -, f2, -, -, -, -, y2⟩ := txWrite_cases cfg z p (txWrite cfg z (hdr a .write) e).2
  rw [Env.call_eq_peekCall, h1] at f1 x1 y1
  rw [ho, List.nil_append] at t1
  rw [Env.call_eq_peekCall, p1, h2] at f2 y2
  rw [openTx_of_fields t1 x1] at y2
  simp only [Option.isSome_none, Bool.false_eq_true, if_false] at y1
  simp only [Option.isSome_some, if_true, deviceCommitPrefix_write] at y2
  rw [y1] at d2
  have hs : sendWrite cfg z a p e = (some (.eWrite x), (txWrite cfg z p (txWrite cfg z (hdr a .write) e).2).2) := by
    simp only [sendWrite, f1, f2]
  rw [hs]
  exact ⟨m2, d1.trans d2, rfl, y2⟩

/-- What one write transaction does from a clean error register, by the reason `out` it stopped for, the calls `l` it made and
the number `j` of its bytes that the device has stored. -/
structure WriteCut (a n v : Nat) (out : Option Reason) (l : List TxCall) (j : Nat) (s t : State) : Prop where
  trace : WriteTrace (hdr (BitVec.ofNat 22 a) .write) (leBytes n v) out l
  wire : t.env.wire = s.env.wire ++ l
  err : t.err = errOf out
  woff : t.woff = s.woff
  j_le : j ≤ n
  whole : out = none → j = n
  stored : PrefixStored s.cfg a v j s.env.mem t.env.mem

theorem doWrite_cut (a n v : Nat) (s : State) (hc : s.env.Closed) (he : s.err = .ok) (hn : 0 < n) (hb : a + n ≤ addrLimit) :
    ∃ out l j, WriteCut a n v out l j s (doWrite a n v s).2 := by
  obtain ⟨m, j, l, hd, hj, -, hm, hjn, hw, htr⟩ := sendWrite_cases s.cfg (ghostWrite s.cfg a n v s.ghost).haz.any
    (BitVec.ofNat 22 a) (leBytes n v) s.env (openTx_of_closed hc)
  rw [devAddr_toNat_of_lt (by omega)] at hm
  rw [leBytes_length] at hj hjn
  rw [doWrite_eq _ _ _ _ he]
  exact ⟨_, l, j, htr, hw, rfl, rfl, hj, hjn, by rw [hm]; exact .of_writeBytes hd hj hb⟩

/-- The payload call fails, and the transport has drawn how much of it the device has stored. -/
theorem doWrite_payloadFails (a n v : Nat) (s : State) (x : TxError) (hc : s.env.Closed) (he : s.err = .ok) (hn : 0 < n)
    (hb : a + n ≤ addrLimit) (h1 : (s.env.peekCall 0).fails = none) (h2 : (s.env.peekCall 1).fails = some x)
    (hj : (s.env.peekCall 1).commit ≤ n) :
    (doWrite a n v s).2.err = .failed (.eWrite x) ∧
      PrefixStored s.cfg a v (s.env.peekCall 1).commit s.env.mem (doWrite a n v s).2.env.mem := by
  obtain ⟨m, hd, hout, hm⟩ := sendWrite_payloadFails s.cfg (ghostWrite s.cfg a n v s.ghost).haz.any (BitVec.ofNat 22 a)
    (leBytes n v) s.env x (openTx_of_closed hc) h1 h2
  rw [devAddr_toNat_of_lt (by omega)] at hm
  rw [doWrite_eq _ _ _ _ he]
  refine ⟨by rw [hout]; rfl, ?_⟩
  rw [hm]
  exact .of_writeBytes hd hj hb

/-! ### Operations of one write -/

/-- The ghost state has no part in how an operation returns. -/
theorem State.Returns.of_ghost {s t : State} {g : Ghost} {st : Status} {v : Value}
    (h : State.Returns { s with ghost := g } t st v) : s.Returns t st v :=
  ⟨h.results, h.pending, h.reqIdx, h.cfg, h.fault⟩

theorem exec_oneWrite_cut {i : Instr} {a n v : Nat} {val : Value} {s : State} (h : OneWrite s i a n v val)
    (hr : raisedBy i s = none) (hi : s.Inv) (he : s.err = .ok) :
    ∃ t out l j, exec i s = .next t ∧ s.Returns t (statusOf out) val ∧ WriteCut a n v out l j s t := by
  obtain ⟨g, hx⟩ := exec_oneWrite h hr
  obtain ⟨hn, hb⟩ := h.bounds (cfgFacts hi.configured) hr
  have hA := doWrite_acts a n v { s with ghost := g } hi.tx_closed (by omega)
  obtain ⟨out, l, j, hcut⟩ := doWrite_cut a n v { s with ghost := g } hi.tx_closed he hn hb
  refine ⟨_, out, l, j, hx, ?_, { hcut with }⟩
  rw [doWrite_status, hcut.err, errOf_status]
  exact (hA.returns _ _).of_ghost

/-- Every prefix of the one write may be what the device has stored: the transport draws it. -/
theorem exec_oneWrite_payloadFails {i : Instr} {a n v : Nat} {val : Value} {s : State} {x : TxError}
    (h : OneWrite s i a n v val) (hr : raisedBy i s = none) (hi : s.Inv) (he : s.err = .ok)
    (h1 : (s.env.peekCall 0).fails = none) (h2 : (s.env.peekCall 1).fails = some x) (hj : (s.env.peekCall 1).commit ≤ n) :
    ∃ t, exec i s = .next t ∧ t.err = .failed (.eWrite x) ∧
      PrefixStored s.cfg a v (s.env.peekCall 1).commit s.env.mem t.env.mem := by
  obtain ⟨g, hx⟩ := exec_oneWrite h hr
  obtain ⟨hn, hb⟩ := h.bounds (cfgFacts hi.configured) hr
  exact ⟨_, hx, doWrite_payloadFails a n v { s with ghost := g } x hi.tx_closed he hn hb h1 h2 hj⟩

/-! ### Appends -/

/-- An append from a clean error register makes the write transactions of its words, cut after the first failing call, and
returns what that leaves in the error register. -/
theorem exec_append_wrote {i : Instr} {off : Option Word} {ws : List Word} {s : State} (h : IsAppend s.cfg i off ws)
    (hr : raisedBy i s = none) (hi : s.Inv) (he : s.err = .ok) :
    ∃ t n q j out l, exec i s = .next t ∧
      s.Returns t (statusOf out) (.offset (red s.cfg (startOffset off s + 4 * ws.length))) ∧
      Wrote (startOffset off s) (wordsBytes ws) (appendWrites s.cfg (startOffset off s) ws) n q j out l s t := by
  have c := cfgFacts hi.configured
  obtain ⟨n, q, j, out, l, hw⟩ := appendWords_wrote ws (startOffset off s) s c hi.tx_closed he (red_lt c.cap_pos _)
  obtain ⟨-, hret, -⟩ := appendAll_facts off ws s hi
  rw [hw.err, errOf_status] at hret
  exact ⟨_, n, q, j, out, l, exec_append h hr, hret, { hw with }⟩

/-! ### The two statements -/

/-- Settles O24: an operation of one write is one cut transaction, an append the cut sequence of its words' transactions, and
each returns the status of the reason it stopped for. -/
theorem writesStopAtTheFirstFailure : Obligations.WritesStopAtTheFirstFailure := by
  refine ⟨fun i a n v val s h hr hi he => ?_, fun i off ws s h hr hi he => ?_⟩
  · obtain ⟨t, out, l, j, hx, hret, hcut⟩ := exec_oneWrite_cut h hr hi he
    exact ⟨t, out, l, hx, hcut.trace, hcut.wire, hret, hcut.err, hcut.woff⟩
  · obtain ⟨t, n, q, j, out, l, hx, hret, hw⟩ := exec_append_wrote h hr hi he
    exact ⟨t, n, q, out, l, hx, hw.sent, hw.wire, hret, hw.err⟩

/-- Settles O25: the device commits a prefix of a cut transaction after the consumer's last turn; the transactions of an append
before the cut one are stored whole; and the length of the prefix is the transport's to draw. -/
theorem failedWriteLeavesAPrefix : Obligations.FailedWriteLeavesAPrefix := by
  refine ⟨fun i a n v val s t h hr hi he hexec => ?_, fun i off ws s t h hr hi he hexec => ?_,
    fun i a n v val s x j h hr hi he hj d1 d2 hd1 hd2 hcommit hcalls => ?_⟩
  · -- one write
    obtain ⟨t', out, l, j, hx, -, hcut⟩ := exec_oneWrite_cut h hr hi he
    cases hx.symm.trans hexec
    exact ⟨j, hcut.j_le, fun hok => hcut.whole (errOf_eq_ok.1 (hcut.err.symm.trans hok)), hcut.stored.bytes,
      hcut.stored.kept⟩
  · -- an append
    obtain ⟨t', n, q, j, out, l, hx, -, hw⟩ := exec_append_wrote h hr hi he
    cases hx.symm.trans hexec
    have hjn := hw.n_le
    have hjq := hw.j_le
    have hle := hw.le
    rw [wordsBytes_length] at hle
    refine ⟨n, q, j, out, l, hw.sent, hw.wire, hjn, hjq, by omega, fun hok => ?_, fun k hk hfit => ?_, hw.kept⟩
    · obtain ⟨hn, -⟩ := hw.whole (errOf_eq_ok.1 (hw.err.symm.trans hok))
      rw [wordsBytes_length] at hn
      omega
    · rw [← wordsBytes_getElem?]
      exact hw.stored k hk hfit
  · -- every prefix of one write
    have hp0 : s.env.peekCall 0 = d1 := by rw [Env.peekCall, hcalls]; rfl
    have hp1 : s.env.peekCall 1 = d2 := by rw [Env.peekCall, hcalls]; rfl
    obtain ⟨t, hx, herr, hst⟩ := exec_oneWrite_payloadFails h hr hi he (x := x) (by rw [hp0]; exact hd1.1) (by rw [hp1, hd2])
      (by rw [hp1, hcommit]; exact hj)
    rw [hp1, hcommit] at hst
    exact ⟨t, hx, herr, hst.bytes, hst.kept⟩

end Sys2Proof.Machine
end

section
/-! PROOFS. The hazards of the command FIFO: the bytes outstanding at an append and at a publish, and writes that fall on the
pointer registers (70_reset_and_hazards.md R226, R227, R230). -/

namespace Sys2Proof.Machine

/-! ### What one write records -/

/-- R227: a publish is full exactly where it announces bytes and these bring the outstanding ones to the capacity. -/
theorem ghostPublish_full (cfg : Cfg) (v : Nat) (g : Ghost) :
    (ghostPublish cfg v g).haz.full = true ↔ g.haz.full = true ∨
      0 < dist cfg g.pubOff v ∧ cfg.fifoCap ≤ dist cfg g.lastRP g.pubOff + dist cfg g.pubOff v := by
  change ((g.flagIf _ .unwritten).flagIf _ .full).haz.has .full = true ↔ g.haz.has .full = true ∨ _
  rw [Ghost.flagIf_has, Ghost.flagIf_has]
  simp [or_comm]

/-- R227: a publish clears the dirty bits of the offsets it announces. -/
theorem mem_ghostPublish_dirty (cfg : Cfg) (v : Nat) (g : Ghost) (o : Nat) :
    o ∈ (ghostPublish cfg v g).dirty ↔ o ∈ g.dirty ∧ inRing cfg o g.pubOff v = false := by
  simp [ghostPublish, List.mem_filter]

@[simp] theorem ghostPublish_span (cfg : Cfg) (v : Nat) (g : Ghost) :
    (ghostPublish cfg v g).span = g.span - dist cfg g.pubOff v := rfl

@[simp] theorem ghostPublish_pubOff (cfg : Cfg) (v : Nat) (g : Ghost) : (ghostPublish cfg v g).pubOff = v := rfl

@[simp] theorem ghostPublish_lastRP (cfg : Cfg) (v : Nat) (g : Ghost) : (ghostPublish cfg v g).lastRP = g.lastRP := by
  simp [ghostPublish]

/-- R230: a write sets the alias flag exactly where it aliases a pointer; its other bookkeeping leaves that flag. -/
theorem ghostWrite_ptrAliased (cfg : Cfg) (a n v : Nat) (g : Ghost) :
    (ghostWrite cfg a n v g).haz.ptrAliased = (isPtrAliased cfg a n v || g.haz.ptrAliased) := by
  have hflag : ((ghostWindow cfg a n g).flagIf (isPtrAliased cfg a n v) .ptrAliased).haz.has .ptrAliased =
      (isPtrAliased cfg a n v || g.haz.has .ptrAliased) := by
    rw [Ghost.flagIf_has, ghostWindow_other _ _ _ _ _ (by simp)]
    simp
  change (ghostWrite cfg a n v g).haz.has .ptrAliased = _
  unfold ghostWrite
  dsimp only
  split_ifs
  · rw [ghostPublish_other _ _ _ _ (by simp) (by simp)]
    exact hflag
  · exact hflag

/-- R227, R230: a full-width write at `REG_WP` of a value that is no offset is an alias and nothing else. -/
theorem ghostWrite_wp_of_cap_le {cfg : Cfg} (c : CfgFacts cfg) {v : Nat} (hv : cfg.fifoCap ≤ v) (g : Ghost) :
    ghostWrite cfg cfg.regWP 4 v g = { g with haz := g.haz.set .ptrAliased } := by
  have hwp := c.fifo_wp
  have halias : isPtrAliased cfg cfg.regWP 4 v = true := (isPtrAliased_iff c _ _ _ (by omega)).2 (.inr (.inr ⟨rfl, rfl, hv⟩))
  rw [ghostWrite_plain c (by omega), ghostWindow_outside _ _ _ _ (by omega), halias]
  rfl

/-- The ghost state after `WR8`, `WR16` or `WR32`. -/
theorem exec_write_ghost {i : Instr} {a n v : Nat} {s t : State} (h : IsWrite i a n v) (hb : a + n ≤ 2 ^ 22)
    (he : s.err = .ok) (hx : exec i s = .next t) : t.ghost = ghostWrite s.cfg a n v s.ghost := by
  rw [exec_write h s hb] at hx
  cases hx
  exact doWrite_ghost a n v s he

/-! ### Appends -/

/-- The ghost state after an append is the one its words leave: returning does not touch it. -/
theorem exec_append_ghost {i : Instr} {off : Option Word} {ws : List Word} {s t : State} (h : IsAppend s.cfg i off ws)
    (hr : raisedBy i s = none) (hx : exec i s = .next t) :
    t.ghost = (appendWords ws (startOffset off s) s).2.ghost := by
  rw [exec_append h hr] at hx
  cases hx
  rfl

/-- The operations that append are those with an offset operand and words (42_fifo_writer.md R171 to R173). -/
theorem exists_isAppend {i : Instr} (h : appendsToFifo i = true) (cfg : Cfg) : ∃ off ws, IsAppend cfg i off ws := by
  cases i with
  | fifoWord off w => exact ⟨off, _, .word off w⟩
  | fifoCmd off c ws => exact ⟨off, _, .cmd off c ws⟩
  | fifoText off x y font options t => exact ⟨off, _, .text off x y font options t⟩
  | _ => cases h

/-- An append records no hazard but an overrun and a full ring. -/
theorem exec_append_hazard {i : Instr} {s t : State} {x : Hazard} (h : appendsToFifo i = true) (hi : s.Inv)
    (hx : exec i s = .next t) (hover : x ≠ .overrun) (hfull : x ≠ .full) : t.ghost.haz.has x = s.ghost.haz.has x := by
  cases hr : raisedBy i s with
  | some f =>
    rw [exec_raises i s f hr] at hx
    cases hx
    rw [State.raiseFault_ghost]
  | none =>
    have c := cfgFacts hi.configured
    obtain ⟨off, ws, ha⟩ := exists_isAppend h s.cfg
    rw [exec_append_ghost ha hr hx]
    exact appendWords_hazard ws _ s c hi.tx_closed (red_lt c.cap_pos _) hover hfull

/-! ### The three statements -/

/-- Settles O41: each word counts its four bytes before its write, whatever comes of that write; the count only grows, so the
last word decides whether the capacity is reached. -/
theorem appendsCountOutstandingBytes : Obligations.AppendsCountOutstandingBytes := by
  intro i off ws s t h hr hi hx
  have c := cfgFacts hi.configured
  obtain ⟨hspan, hpub, hrp, hfull⟩ :=
    appendWords_counts ws (startOffset off s) s c hi.tx_closed (red_lt c.cap_pos _)
  rw [exec_append_ghost h hr hx]
  exact ⟨hspan, hpub, hrp, by simpa [h.ne_nil] using hfull⟩

/-- Settles O42: a full-width write of an offset at `REG_WP` is `ghostPublish` and nothing else, from a ghost state that differs
from the one found in a display-list overflow at most; of a value that is no offset it is an alias and nothing else. -/
theorem publishChecks : Obligations.PublishChecks := by
  refine ⟨fun i v val s t h hr hv hi he hx => ?_, fun v s t hv hi he hx => ?_⟩
  · have c := cfgFacts hi.configured
    obtain ⟨g, ht, hdirty, hpub, hrp, hspan, hhaz⟩ := exec_oneWrite_ghost h hr he hx
    have hwrite := ghostWrite_publish c v hv g
    rw [c.ptrBytes_eq] at hwrite
    have hun : g.haz.unwritten = s.ghost.haz.unwritten := hhaz .unwritten (by simp)
    have hfull : g.haz.full = s.ghost.haz.full := hhaz .full (by simp)
    rw [ht, hwrite, ← hdirty, ← hpub, ← hrp, ← hspan, ← hun, ← hfull]
    exact ⟨ghostPublish_unwritten c v g, ghostPublish_full s.cfg v g, mem_ghostPublish_dirty s.cfg v g,
      ghostPublish_span s.cfg v g, ghostPublish_pubOff s.cfg v g, ghostPublish_lastRP s.cfg v g,
      (ghostPublish_other s.cfg v g .overrun (by simp) (by simp)).trans (hhaz .overrun (by simp)),
      (ghostPublish_other s.cfg v g .ptrAliased (by simp) (by simp)).trans (hhaz .ptrAliased (by simp))⟩
  · have c := cfgFacts hi.configured
    have hw := IsWrite.wr32 (BitVec.ofNat 32 s.cfg.regWP) v
    rw [c.regWP_toNat] at hw
    rw [exec_write_ghost hw c.wp_in he hx, ghostWrite_wp_of_cap_le c hv]

/-- Settles O44: the one write sets the flag by the addresses of its bytes, and what an operation records before its write is no
alias; the bytes of an append stay inside the window, which holds neither pointer register. -/
theorem pointerAlias : Obligations.PointerAlias := by
  refine ⟨fun i a n v val s t h hr hi he hx => ?_, fun i s t h hi hx => ?_⟩
  · have c := cfgFacts hi.configured
    obtain ⟨hn, -⟩ := h.bounds c hr
    obtain ⟨g, ht, -, -, -, -, hhaz⟩ := exec_oneWrite_ghost h hr he hx
    have hg : g.haz.ptrAliased = s.ghost.haz.ptrAliased := hhaz .ptrAliased (by simp)
    rw [ht, ghostWrite_ptrAliased, hg, Bool.or_eq_true, isPtrAliased_iff c a n v hn, or_comm]
  · exact exec_append_hazard h hi hx (x := .ptrAliased) (by simp) (by simp)

end Sys2Proof.Machine
end

section
/-! PROOFS. The round trips of requests and transactions, and words decoded by hand (30_encoding.md R100 to R113). -/

namespace Sys2Proof.Machine

/-! ### Requests -/

theorem encode_op (i : Instr) : (encode i).op = i.opcode := by cases i <;> rfl

/-- R109: the encoder puts each operand of an operation in its field. -/
theorem carries_encode (i : Instr) : carries (encode i) i := by
  cases i with
  | rd8 a => exact rfl
  | rd16 a => exact rfl
  | rd32 a => exact rfl
  | wr8 a d => exact ⟨rfl, rfl⟩
  | wr16 a d => exact ⟨rfl, rfl⟩
  | wr32 a d => exact ⟨rfl, rfl⟩
  | hostcmd c => exact rfl
  | errq => trivial
  | errclr => trivial
  | dlappend o w => exact ⟨rfl, rfl⟩
  | fifoWord o w => exact ⟨rfl, rfl⟩
  | fifoCmd o c ws => exact ⟨rfl, rfl, rfl⟩
  | fifoText o x y f opt t => exact ⟨rfl, rfl, rfl, rfl, rfl, rfl⟩
  | fifoPublish v => exact rfl
  | fifoWaitEmpty t => exact rfl
  | fifoWaitOffset e t => exact ⟨rfl, rfl⟩

/-- Settles O4: the encoded request names its operation by op code and operands, and these two determine what is decoded. -/
theorem requestRoundTrip : Obligations.RequestRoundTrip := by
  intro i hwf
  rw [decode_of_carries (encode_op i) (carries_encode i), if_pos hwf]

/-- An operand that is required is present. -/
theorem required_map_eq_ok_iff {v : Option Word} {f : Word → Instr} {i : Instr} :
    (required v).map f = .ok i ↔ ∃ d, v = some d ∧ f d = i := by
  cases v <;> simp [required, Except.map]

/-- Both operands that are required are present. -/
theorem required_bind_map_eq_ok_iff {u v : Option Word} {f : Word → Word → Instr} {i : Instr} :
    ((required u).bind fun o => (required v).map (f o)) = .ok i ↔ ∃ o d, u = some o ∧ v = some d ∧ f o d = i := by
  cases u <;> cases v <;> simp [required, Except.bind, Except.map]

/-- The op code of a request that is decoded is below `0x10` (R111). -/
theorem op_lt_of_decodeOp {r : Request} {i : Instr} (h : decodeOp r = .ok i) : r.op.toNat < 16 := by
  by_contra hop
  have hd := decode_of_reserved (Nat.not_lt.1 hop)
  rw [decode, h] at hd
  unfold checkOperands at hd
  cases hw : i.wellFormed <;> simp [Except.bind, hw] at hd

/-- R109, R110: a request decodes, up to the width of its operands, to an operation that it names and whose operands it
carries. -/
theorem carries_of_decodeOp {r : Request} {i : Instr} (h : decodeOp r = .ok i) : r.op = i.opcode ∧ carries r i := by
  have hlt := op_lt_of_decodeOp h
  have hop : r.op = BitVec.ofNat 5 r.op.toNat := by simp
  unfold decodeOp at h
  generalize r.op.toNat = n at hlt hop h
  interval_cases n <;> simp only [required_map_eq_ok_iff, Except.ok.injEq] at h
  · subst h; exact ⟨hop, rfl⟩
  · subst h; exact ⟨hop, rfl⟩
  · subst h; exact ⟨hop, rfl⟩
  · obtain ⟨d, hd, rfl⟩ := h; exact ⟨hop, rfl, hd⟩
  · obtain ⟨d, hd, rfl⟩ := h; exact ⟨hop, rfl, hd⟩
  · obtain ⟨d, hd, rfl⟩ := h; exact ⟨hop, rfl, hd⟩
  · obtain ⟨d, hd, rfl⟩ := h; exact ⟨hop, hd⟩
  · subst h; exact ⟨hop, trivial⟩
  · subst h; exact ⟨hop, trivial⟩
  · obtain ⟨o, d, ho, hd, rfl⟩ := required_bind_map_eq_ok_iff.1 h; exact ⟨hop, ho, hd⟩
  · obtain ⟨d, hd, rfl⟩ := h; exact ⟨hop, rfl, hd⟩
  · obtain ⟨d, hd, rfl⟩ := h; exact ⟨hop, rfl, hd, rfl⟩
  · subst h; exact ⟨hop, rfl, rfl, rfl, rfl, rfl, rfl⟩
  · subst h; exact ⟨hop, rfl⟩
  · subst h; exact ⟨hop, rfl⟩
  · subst h; exact ⟨hop, rfl, rfl⟩

/-- R109, R113: what decodes is an operation that the request names, all of whose operands fit. -/
theorem decode_eq_ok_iff (r : Request) (i : Instr) :
    decode r = .ok i ↔ r.op = i.opcode ∧ carries r i ∧ i.wellFormed = true := by
  constructor
  · intro h
    unfold decode at h
    cases hd : decodeOp r with
    | error e => simp [hd, Except.bind] at h
    | ok j =>
      cases hw : j.wellFormed <;> simp [hd, Except.bind, checkOperands, hw] at h
      subst h
      obtain ⟨hop, hc⟩ := carries_of_decodeOp hd
      exact ⟨hop, hc, hw⟩
  · rintro ⟨hop, hc, hw⟩
    rw [decode_of_carries hop hc, if_pos hw]

/-- Settles O5: the decoder inverts the naming of an operation by op code and operands, and reads no other field. -/
theorem requestDecoding : Obligations.RequestDecoding := decode_eq_ok_iff

/-! ### Transactions -/

theorem encode_readAccess (a : DevAddr) (ds : List Byte) : encodeTransaction (.readAccess a ds) = hdr a .read ++ ds := rfl

theorem encode_writeAccess (a : DevAddr) (p : List Byte) : encodeTransaction (.writeAccess a p) = hdr a .write ++ p := rfl

/-- R105 to R107: the wire decoder inverts the encoder. -/
theorem decode_encodeTransaction (t : Transaction) : decodeTransaction (encodeTransaction t) = .ok t := by
  cases t with
  | hostCommand c => exact decodeTransaction_command c
  | readAccess a ds => exact decodeTransaction_read a ds
  | writeAccess a p => exact decodeTransaction_write a p

/-- R108: what the wire decoder makes of three bytes or more is the header's intent and address, and the bytes after it. -/
theorem decodeTransaction_of_header {b0 b1 b2 : Byte} {rest : List Byte} {t : Transaction}
    (h : decodeTransaction (b0 :: b1 :: b2 :: rest) = .ok t) :
    ∃ a, unhdr b0 b1 b2 = .ok (.read, a) ∧ t = .readAccess a rest ∨
      unhdr b0 b1 b2 = .ok (.write, a) ∧ t = .writeAccess a rest := by
  unfold decodeTransaction at h
  cases hu : unhdr b0 b1 b2 with
  | error e => simp [hu] at h
  | ok p =>
    obtain ⟨i, a⟩ := p
    cases i <;> simp [hu] at h <;> exact ⟨a, by simp [h]⟩

/-- R108: a byte list that decodes is the encoding of what it decodes to. -/
theorem encode_of_decodeTransaction {bs : List Byte} {t : Transaction} (h : decodeTransaction bs = .ok t) :
    encodeTransaction t = bs := by
  match bs, h with
  | [b], h => cases h; rfl
  | b0 :: b1 :: b2 :: rest, h =>
    obtain ⟨a, ⟨hu, rfl⟩ | ⟨hu, rfl⟩⟩ := decodeTransaction_of_header h
    · obtain ⟨hcode, rfl⟩ := (unhdr_eq_ok_iff ..).1 hu
      rw [encode_readAccess, hdr_of_bytes hcode]
      rfl
    · obtain ⟨hcode, rfl⟩ := (unhdr_eq_ok_iff ..).1 hu
      rw [encode_writeAccess, hdr_of_bytes hcode]
      rfl

/-- Settles O3: decoding and encoding invert each other, so the one-byte lists are the host commands, and the framer's read
request is the encoding of a read access. -/
theorem transactionRoundTrip : Obligations.TransactionRoundTrip := by
  refine ⟨decode_encodeTransaction, fun bs t h => encode_of_decodeTransaction h, fun cfg a => ⟨?_, ?_⟩, fun a n v => ?_,
    fun bs c => ⟨fun h => (encode_of_decodeTransaction h).symm, ?_⟩⟩
  · rw [readRequestBytes, List.length_append, hdr_length, List.length_replicate]
  · exact decodeTransaction_read a _
  · rw [encode_writeAccess, List.length_append, hdr_length, leBytes_length]
  · rintro rfl
    exact decodeTransaction_command c

/-! ### Words written out by hand -/

/-- Settles O7: each word is decoded by computation. -/
theorem knownWords : Obligations.KnownWords := by
  unfold Obligations.KnownWords
  decide

end Sys2Proof.Machine
end

section
/-! PROOFS. The step: its priorities, what it keeps, and the state after reset (10_state.md R35 to R43; 60_exceptions.md R205;
70_reset_and_hazards.md R222). -/

namespace Sys2Proof.Machine

/-- Settles O55: a step is at most one operation and then the consumer's turn, and each of the two keeps the invariant. -/
theorem everyStepKeepsTheInvariant : Obligations.EveryStepKeepsTheInvariant := by
  intro s t hi hst
  rcases step_next hst with ⟨i, u, hx, -, rfl⟩ | rfl
  · exact between_inv (exec_inv hi hx)
  · exact between_inv hi

/-- R88: the consumer's turn is one step of it by the next move drawn, which is the head of the list where there is one. -/
theorem between_eq_consumerStep (t : State) :
    ∃ n, (∀ m ms, t.env.moves = m :: ms → n = m) ∧
      t.between =
        { t with
          env := consumerStep t.cfg (decide (t.ghost.haz ≠ Hazards.none)) n
            { t.env with moves := t.env.moves.tail, moveNo := t.env.moveNo + 1 } } := by
  refine ⟨t.env.move, fun m ms h => ?_, rfl⟩
  rw [Env.move, h, List.headD_cons]

theorem decode_ofTableWord {nbits w : Nat} {i : Instr} (h : decodeTableWord nbits w = some i) :
    decode (Request.ofTableWord nbits w) = .ok i := by
  unfold decodeTableWord at h
  cases hd : decode (Request.ofTableWord nbits w) with
  | ok j =>
    rw [hd] at h
    exact congrArg _ (Option.some.inj h)
  | error e => simp [hd] at h

/-- Settles O8: the request offered is decoded and run; a table word is offered as its request; and the turn of the consumer is
one step by its next move. -/
theorem stepRunsDecodedInstruction : Obligations.StepRunsDecodedInstruction := by
  refine ⟨fun s r i hr hd hf => step_of_decode hr hd hf, fun s nbits w i hw hf => ?_,
    fun t => ⟨thenConsumer_next t, between_eq_consumerStep t⟩⟩
  exact step_of_decode (placeRequest_head? _ s) (decode_ofTableWord hw) hf

theorem step_of_no_request {s : State} (h : s.port.pending = []) : step s = idle s := by
  simp [step, fetch, h]

/-- Settles O9: the four cases follow the order in which the step looks at the port, the decoder and `FAULT`. -/
theorem stepPriority : Obligations.StepPriority := by
  refine ⟨fun s r e hr hd => step_of_rejected hr hd, fun s r i f hr hd hf => step_of_halted hr hd hf,
    fun s f hp hf => ?_, fun s hp hf => ?_⟩
  · rw [step_of_no_request hp, idle, hf]
  · rw [step_of_no_request hp, idle, hf]

/-! ### Reset -/

theorem failedCheck_exampleCfg : failedCheck exampleCfg = none := by decide

/-- R222: on the clean chip RP and WP hold 0. -/
theorem cleanChip_pointers {cfg : Cfg} (c : CfgFacts cfg) :
    (cleanChip cfg).readLE cfg.regRP 4 = some 0 ∧ (cleanChip cfg).readLE cfg.regWP 4 = some 0 := by
  refine ⟨?_, Memory.readLE_writeBytes _ _ _ _ c.wp_in (by decide)⟩
  rw [cleanChip, Memory.readLE_writeBytes_of_disjoint _ _ _ _ _ (by rw [leBytes_length]; exact c.rp_wp)]
  exact Memory.readLE_writeBytes _ _ _ _ c.rp_in (by decide)

theorem cleanChip_wf (cfg : Cfg) : (cleanChip cfg).wf = true :=
  Memory.wf_writeBytes (Memory.wf_writeBytes Memory.wf_nil _ _) _ _

/-- A block constructed on a clean chip with a configuration that passes every check meets the invariant. -/
theorem construct_inv {cfg : Cfg} (h : failedCheck cfg = none) : (State.construct cfg (cleanChip cfg)).Inv := by
  have hcap := (cfgFacts h).cap_pos
  obtain ⟨hrp, hwp⟩ := cleanChip_pointers (cfgFacts h)
  exact ⟨h, hcap, hcap, hcap, rfl, cleanChip_wf cfg, by simp [State.rp, hrp], by simp [State.wp, hwp], fun _ => rfl, rfl⟩

/-- Settles O13: the example configuration passes every check, so reset is construction on a clean chip, where both pointer
registers hold 0. -/
theorem resetIsReady : Obligations.ResetIsReady := by
  obtain ⟨hrp, hwp⟩ := cleanChip_pointers (cfgFacts failedCheck_exampleCfg)
  exact ⟨construct_inv failedCheck_exampleCfg, ⟨hrp, hwp⟩,
    ⟨rfl, State.construct_fault_of_passes failedCheck_exampleCfg _, rfl⟩, hrp.trans hwp.symm⟩

/-! ### What an operation and a step leave -/

/-- A fault and `ERRCLR` change `FAULT`, `ERR` and the port at most. -/
structure Quiet (s t : State) : Prop where
  cfg : t.cfg = s.cfg
  woff : t.woff = s.woff
  ghost : t.ghost = s.ghost
  env : t.env = s.env

/-- An operation makes its accesses and ends, or it is quiet. -/
theorem exec_quiet_or_ends {i : Instr} {s t : State} (hi : s.Inv) (hx : exec i s = .next t) :
    Quiet s t ∨ ∃ s1, raisedBy i s = none ∧ Acts (mayStore i s) s s1 ∧ OpEnds i s s1 t := by
  rcases exec_next (cfgFacts hi.configured) hi.tx_closed hx with ⟨f, -, rfl⟩ | ⟨-, rfl⟩ | ⟨s1, hr, -, ha, hends⟩
  · exact .inl ⟨s.raiseFault_cfg f, s.raiseFault_woff f, s.raiseFault_ghost f, s.raiseFault_env f⟩
  · exact .inl ⟨rfl, rfl, rfl, rfl⟩
  · exact .inr ⟨s1, hr, ha, hends⟩

/-- R34: no operation writes `CFG`. -/
theorem exec_cfg {i : Instr} {s t : State} (hi : s.Inv) (hx : exec i s = .next t) : t.cfg = s.cfg := by
  rcases exec_quiet_or_ends hi hx with hq | ⟨s1, -, ha, hends⟩
  · exact hq.cfg
  · exact hends.same.1.trans ha.cfg

/-- R31: the end of an operation that is no append leaves `WOFF`. -/
theorem OpEnds.woff {i : Instr} {P : Nat → Prop} {s s1 t : State} (h : OpEnds i s s1 t) (ha : Acts P s s1)
    (hi : appendsToFifo i = false) : t.woff = s.woff := by
  cases h with
  | queried => rfl
  | returned o v _ ho _ => exact ho hi
  | timedOut => exact ha.woff
  | goesOn => exact ha.woff

/-- Settles O56: accesses leave both registers, and only an append's end writes `WOFF`. -/
theorem onlyAppendsWriteWoff : Obligations.OnlyAppendsWriteWoff := by
  refine ⟨fun s t hst hi => ?_, fun i s t hi hx hni => ?_⟩
  · rcases step_next hst with ⟨i, u, hx, -, rfl⟩ | rfl
    · exact (State.between_cfg u).trans (exec_cfg hi hx)
    · rfl
  · rcases exec_quiet_or_ends hi hx with hq | ⟨s1, -, ha, hends⟩
    · exact hq.woff
    · exact hends.woff ha hni

/-- The end of an operation returns, or it is a wait that goes on. -/
theorem OpEnds.returns_or_polls {i : Instr} {P : Nat → Prop} {s s1 t : State} (h : OpEnds i s s1 t) (ha : Acts P s s1) :
    (∃ st v, s.Returns t st v) ∨ isWait i = true ∧ t.port = s.port ∧ t.reqIdx = s.reqIdx := by
  cases h with
  | queried => exact .inl ⟨_, _, s.returns_complete _ _⟩
  | returned o v => exact .inl ⟨_, _, ha.returns_with o s1.env _ _⟩
  | timedOut => exact .inl ⟨_, _, ha.returns_with s1.woff s1.env.popTick _ _⟩
  | goesOn hw => exact .inr ⟨hw, ha.port, ha.reqIdx⟩

/-- Settles O57: a fault leaves the port; `ERRCLR` returns; any other operation returns or is a wait that goes on. -/
theorem requestIndexCountsReturns : Obligations.RequestIndexCountsReturns := by
  intro i s t hi hx
  rcases exec_next (cfgFacts hi.configured) hi.tx_closed hx with ⟨f, hf, rfl⟩ | ⟨-, rfl⟩ | ⟨s1, -, -, ha, hends⟩
  · exact .inr ⟨s.raiseFault_port f, s.raiseFault_reqIdx f, .inl (by simp [hf])⟩
  · exact .inl ⟨_, _, rfl, rfl, rfl, rfl, rfl⟩
  · rcases hends.returns_or_polls ha with hret | ⟨hw, hport, hidx⟩
    · exact .inl hret
    · exact .inr ⟨hport, hidx, .inr (isWait_iff hw)⟩

/-- Settles O58: accesses send framed transactions and close the last one unless an error is latched; the end of an operation
sends nothing. -/
theorem operationsSendFramedTransactions : Obligations.OperationsSendFramedTransactions := by
  intro i s t hi hx
  rcases exec_quiet_or_ends hi hx with hq | ⟨s1, -, ha, hends⟩
  · exact ⟨[], by rw [hq.env, List.append_nil], .nil, fun h => absurd rfl h⟩
  · obtain ⟨-, herr, -, -, -, hwire, htx, hfailed, -⟩ := hends.same
    obtain ⟨l, hl, hframed, -, -, hlast⟩ := ha.wire
    refine ⟨l, hwire.trans hl, hframed, fun hne hok => ?_⟩
    have hopen := hlast hne (herr.symm.trans hok)
    exact ⟨hfailed.trans hopen, htx.trans (ha.closed hopen)⟩

/-- Settles O59: accesses store only where their operation may, and the end of an operation stores nothing. -/
theorem memoryFrame : Obligations.MemoryFrame := by
  intro i s t hi hx
  rcases exec_quiet_or_ends hi hx with hq | ⟨s1, -, ha, hends⟩
  · rw [hq.env]
    exact fun _ _ _ => rfl
  · obtain ⟨-, -, -, -, hmem, -⟩ := hends.same
    rw [hmem]
    exact ha.mem.memKept

/-- The clock at the end of an operation: only a wait has read it. -/
theorem OpEnds.clock {i : Instr} {P : Nat → Prop} {s s1 t : State} (h : OpEnds i s s1 t) (ha : Acts P s s1) :
    s.env.clock ≤ t.env.clock ∧ (isWait i = false → t.env.clock = s.env.clock) := by
  have hc := ha.kept.clock
  have hread : s.env.clock ≤ s1.env.popTick.clock := by
    rw [Env.popTick_clock, hc]
    exact Nat.le_add_right _ _
  cases h with
  | queried => exact ⟨le_rfl, fun _ => rfl⟩
  | returned o v => exact ⟨hc.ge, fun _ => hc⟩
  | timedOut hw => exact ⟨hread, fun hn => absurd (hn.symm.trans hw) (by simp)⟩
  | goesOn hw => exact ⟨hread, fun hn => absurd (hn.symm.trans hw) (by simp)⟩

/-- Settles O60: only the end of a wait reads the clock, and a reading adds to it. -/
theorem clockNeverGoesBack : Obligations.ClockNeverGoesBack := by
  intro i s t hi hx
  rcases exec_quiet_or_ends hi hx with hq | ⟨s1, -, ha, hends⟩
  · rw [hq.env]
    exact ⟨le_rfl, fun _ _ => rfl⟩
  · obtain ⟨hle, hkept⟩ := hends.clock ha
    refine ⟨hle, fun hne hno => hkept (Bool.eq_false_iff.2 fun hw => ?_)⟩
    rcases isWait_iff hw with ⟨d, rfl⟩ | ⟨e, d, rfl⟩
    · exact hne d rfl
    · exact hno e d rfl

end Sys2Proof.Machine
end

section
/-! PROOFS. What each construction check asks for, and which one a bad configuration fails first (70_reset_and_hazards.md
R220). -/

namespace Sys2Proof.Machine

/-! ### Each check -/

theorem chk2_eq_true_iff (cfg : Cfg) : chk2 cfg = true ↔ cfg.fifoBase + cfg.fifoCap ≤ 2 ^ 22 := by
  simp [chk2]

theorem chk3_eq_true_iff (cfg : Cfg) :
    chk3 cfg = true ↔ cfg.dlBase < 2 ^ 22 ∧ ∀ n, cfg.dlCap = some n → cfg.dlBase + n ≤ 2 ^ 22 := by
  cases hd : cfg.dlCap <;> simp [chk3, dlRegion, hd]

theorem chk4_eq_true_iff (cfg : Cfg) : chk4 cfg = true ↔ cfg.regRP + 3 < 2 ^ 22 ∧ cfg.regWP + 3 < 2 ^ 22 := by
  simp [chk4]

/-- CHK5: no address lies in two of the regions; the display list is one of them where its size is given. -/
theorem chk5_eq_true_iff (cfg : Cfg) :
    chk5 cfg = true ↔ ∀ x, ¬(onWindow cfg x ∧ onRP cfg x) ∧ ¬(onWindow cfg x ∧ onWP cfg x) ∧
      ¬(onRP cfg x ∧ onWP cfg x) ∧
      ∀ n, cfg.dlCap = some n → within cfg.dlBase n x → ¬ onWindow cfg x ∧ ¬ onRP cfg x ∧ ¬ onWP cfg x := by
  unfold chk5 regions dlRegion onWindow onRP onWP
  cases hd : cfg.dlCap
  all_goals
    simp only [pairwiseDisjoint, List.all_cons, List.all_nil, Bool.and_eq_true, regionsDisjoint_iff]
    grind

theorem chk6_eq_true_iff (cfg : Cfg) : chk6 cfg = true ↔ cfg.ptrWidth = 32 := by
  simp [chk6]

theorem chk7_eq_true_iff (cfg : Cfg) : chk7 cfg = true ↔ ∃ ws, cfg.packText = .fixed ws := by
  cases h : cfg.packText <;> simp [chk7, h]

/-- A packing that passes CHK7 has one length for all arguments. -/
theorem packText_length {cfg : Cfg} {ws : List PackWord} (h : cfg.packText = .fixed ws) (x y : Int) (font options : Nat) :
    (packText cfg x y font options).length = ws.length := by
  simp [packText, h]

/-- Settles O11: each check is restated as what it asks for; what fails it contradicts that, and the checks before it pass. -/
theorem configurationChecks : Obligations.ConfigurationChecks := by
  refine ⟨fun cfg h => ?_, fun cfg h => failedCheck_of_chk1_eq_false ((chk1_eq_false_iff cfg).2 h), fun cfg hk h4 h => ?_,
    fun cfg h1 h2 h => ?_, fun cfg h1 h2 h3 h => ?_, fun cfg x h1 h2 h3 h4 h => ?_, fun cfg h1 h2 h3 h4 h5 h => ?_,
    fun cfg id h1 h2 h3 h4 h5 h6 h => ?_⟩
  · -- every check passes
    obtain ⟨h1, h2, h3, h4, h5, h6, h7⟩ := (failedCheck_eq_none_iff cfg).1 h
    obtain ⟨hpow, hcap⟩ := (chk1_eq_true_iff cfg).1 h1
    obtain ⟨hdl, hdlCap⟩ := (chk3_eq_true_iff cfg).1 h3
    obtain ⟨hrp, hwp⟩ := (chk4_eq_true_iff cfg).1 h4
    obtain ⟨ws, hws⟩ := (chk7_eq_true_iff cfg).1 h7
    exact ⟨hpow, hcap, (chk2_eq_true_iff cfg).1 h2, hdl, hdlCap, hrp, hwp, (chk5_eq_true_iff cfg).1 h5,
      (chk6_eq_true_iff cfg).1 h6, ws.length, packText_length hws⟩
  · have h1 : chk1 cfg = true := (chk1_eq_true_iff cfg).2 ⟨hk, h4⟩
    have h2 : chk2 cfg = false := Bool.eq_false_iff.2 fun h2 => absurd ((chk2_eq_true_iff cfg).1 h2) (by omega)
    simp [failedCheck, h1, h2]
  · have h3 : chk3 cfg = false := Bool.eq_false_iff.2 fun h3 => by
      obtain ⟨hdl, hdlCap⟩ := (chk3_eq_true_iff cfg).1 h3
      rcases h with h | ⟨n, hn, h⟩
      · omega
      · exact absurd (hdlCap n hn) (by omega)
    simp [failedCheck, h1, h2, h3]
  · have h4 : chk4 cfg = false := Bool.eq_false_iff.2 fun h4 => absurd ((chk4_eq_true_iff cfg).1 h4) (by omega)
    simp [failedCheck, h1, h2, h3, h4]
  · have h5 : chk5 cfg = false := Bool.eq_false_iff.2 fun h5 => by
      obtain ⟨hwr, hww, hrw, hdl⟩ := (chk5_eq_true_iff cfg).1 h5 x
      rcases h with h | h | h | ⟨n, hn, hx, h⟩
      · exact hwr h
      · exact hww h
      · exact hrw h
      · obtain ⟨hw, hr, hp⟩ := hdl n hn hx
        exact h.elim hw fun h => h.elim hr hp
    simp [failedCheck, h1, h2, h3, h4, h5]
  · have h6 : chk6 cfg = false := Bool.eq_false_iff.2 fun h6 => h ((chk6_eq_true_iff cfg).1 h6)
    simp [failedCheck, h1, h2, h3, h4, h5, h6]
  · have h7 : chk7 cfg = false := Bool.eq_false_iff.2 fun h7 => by
      obtain ⟨ws, hws⟩ := (chk7_eq_true_iff cfg).1 h7
      exact absurd (h.symm.trans hws) (by simp)
    simp [failedCheck, h1, h2, h3, h4, h5, h6, h7]

end Sys2Proof.Machine
end

section
/-! PROOFS. Faults: which operands raise one, and what that changes; and what a poisoned operation does
(60_exceptions.md R200 to R207; 40_transactions.md R140). -/

namespace Sys2Proof.Machine

/-! ### Faults -/

/-- R206: a fault is recorded where none was. -/
theorem raiseFault_of_none {s : State} (h : s.fault = none) (f : FaultRec) : s.raiseFault f = { s with fault := some f } := by
  simp only [State.raiseFault, h]

/-- Settles O14: the check that fails is the only thing the operation does, and a halted block takes no request. -/
theorem faultsArePrecise : Obligations.FaultsArePrecise := by
  refine ⟨fun i s f hf hr => ⟨?_, fun r j hd => step_of_halted (placeRequest_head? r _) hd rfl⟩,
    fun i s hi hr => exec_next_fault i s hi hr⟩
  rw [exec_raises i s f hr, raiseFault_of_none hf]

theorem IsRead.raisedBy {i : Instr} {a n : Nat} (h : IsRead i a n) (s : State) : raisedBy i s = addrFault a n := by
  cases h <;> rfl

theorem IsWrite.raisedBy {i : Instr} {a n v : Nat} (h : IsWrite i a n v) (s : State) : raisedBy i s = addrFault a n := by
  cases h <;> rfl

theorem offsetFault_of_lt {cfg : Cfg} {v : Nat} (h : v < cfg.fifoCap) : offsetFault cfg v = none := if_neg (by omega)

theorem offsetFault_of_le {cfg : Cfg} {v : Nat} (h : cfg.fifoCap ≤ v) : offsetFault cfg v = some (.offsetRange v) := if_pos h

theorem textFault_of_le {cfg : Cfg} {t : List Byte} (h : t.length ≤ cfg.maxTextLen) : textFault cfg t = none :=
  if_neg (by omega)

theorem textFault_of_lt {cfg : Cfg} {t : List Byte} (h : cfg.maxTextLen < t.length) :
    textFault cfg t = some (.textTooLong t.length) := if_pos h

/-- Settles O15: an operation raises the fault of the check its operand meets, and each check has one bound. -/
theorem faultBounds : Obligations.FaultBounds := by
  refine ⟨fun i s a n h => ?_, fun off w s => ⟨fun hb => addrFault_none hb, fun hb => addrFault_some hb⟩,
    fun v d s => ⟨fun hv => ⟨offsetFault_of_lt hv, offsetFault_of_lt hv⟩,
      fun hv => ⟨offsetFault_of_le hv, offsetFault_of_le hv⟩⟩,
    fun off x y font options t s => ⟨textFault_of_le, textFault_of_lt⟩⟩
  have hr : raisedBy i s = addrFault a n := by
    rcases h with h | ⟨v, h⟩
    · exact h.raisedBy s
    · exact h.raisedBy s
  rw [hr]
  exact ⟨addrFault_none, addrFault_some⟩

/-! ### Under a latched error -/

theorem returnRead_poisoned {s : State} {r : Reason} (h : s.err = .failed r) (a n : Nat) :
    returnRead (doRead a n s) = s.complete (.err r) (.word 0) := by
  rw [doRead_poisoned a n s r h]
  rfl

theorem returnStatus_poisoned {s : State} {r : Reason} (h : s.err = .failed r) (a n v : Nat) :
    returnStatus (doWrite a n v s) = s.complete (.err r) .absent := by
  rw [doWrite_poisoned a n v s r h]
  rfl

theorem returnCommand_poisoned {s : State} {r : Reason} (h : s.err = .failed r) (c : Byte) :
    returnStatus (doCommand c s) = s.complete (.err r) .absent := by
  simp only [doCommand, h]
  rfl

theorem unlessPoisoned_poisoned {s : State} {r : Reason} (h : s.err = .failed r) (b : State) :
    unlessPoisoned s b = s.complete (.err r) .absent := by
  simp only [unlessPoisoned, h]

theorem next_congr {t t' : State} (h : t = t') : (Host.Outcome.next t : Host.Outcome State Fault Refusal) = .next t' :=
  congrArg _ h

/-- R207: a poisoned operation that is neither an append nor on the error register returns at once. -/
theorem exec_poisoned {i : Instr} {s : State} {r : Reason} (h : s.err = .failed r) (hr : raisedBy i s = none)
    (hq : i ≠ .errq) (hc : i ≠ .errclr) (ha : appendsToFifo i = false) (hd : ∀ off w, i ≠ .dlappend off w) :
    exec i s = .next (s.complete (.err r) (poisonedValue i s)) := by
  cases i with
  | rd8 a => exact (checked_of_none hr).trans (next_congr (returnRead_poisoned h _ _))
  | rd16 a => exact (checked_of_none hr).trans (next_congr (returnRead_poisoned h _ _))
  | rd32 a => exact (checked_of_none hr).trans (next_congr (returnRead_poisoned h _ _))
  | wr8 a d => exact (checked_of_none hr).trans (next_congr (returnStatus_poisoned h _ _ _))
  | wr16 a d => exact (checked_of_none hr).trans (next_congr (returnStatus_poisoned h _ _ _))
  | wr32 a d => exact (checked_of_none hr).trans (next_congr (returnStatus_poisoned h _ _ _))
  | hostcmd c => exact next_congr (returnCommand_poisoned h _)
  | errq => exact absurd rfl hq
  | errclr => exact absurd rfl hc
  | dlappend off w => exact absurd rfl (hd off w)
  | fifoWord off w => cases ha
  | fifoCmd off c ws => cases ha
  | fifoText off x y f o t => cases ha
  | fifoPublish v => exact (checked_of_none hr).trans (next_congr (returnStatus_poisoned h _ _ _))
  | fifoWaitEmpty d => exact next_congr (unlessPoisoned_poisoned h _)
  | fifoWaitOffset e d => exact (checked_of_none hr).trans (next_congr (unlessPoisoned_poisoned h _))

/-- R160: a poisoned `DLAPPEND` records an overflow and returns its offset. -/
theorem exec_dlappend_poisoned {off w : Word} {s : State} {r : Reason} (h : s.err = .failed r)
    (hr : raisedBy (.dlappend off w) s = none) :
    exec (.dlappend off w) s = .next ((dlChecked off s).complete (.err r) (.offset (off.toNat + 4))) := by
  have hw : dlWrite off w s = (.err r, dlChecked off s) := doWrite_poisoned _ _ _ _ r h
  refine (checked_of_none hr).trans (next_congr (?_ : (dlWrite off w s).2.complete (dlWrite off w s).1 _ = _))
  rw [hw]

/-- R171, R172: the offset an append returns. -/
theorem IsAppend.poisonedValue {i : Instr} {off : Option Word} {ws : List Word} {s : State} (h : IsAppend s.cfg i off ws) :
    poisonedValue i s = .offset (red s.cfg (startOffset off s + 4 * ws.length)) := by
  cases h with
  | word off w => rfl
  | cmd off c ws => rw [List.length_cons, Nat.add_comm ws.length 1]; rfl
  | text off x y f o t => rfl

/-- R207, R238: a poisoned append moves the offset, sends nothing and marks nothing. -/
structure AppendPoisoned (r : Reason) (v : Nat) (s t : State) : Prop where
  returns : s.Returns t (.err r) (.offset v)
  woff : t.woff = v
  err : t.err = .failed r
  env : t.env = s.env
  marks : MarksKept s t

theorem exec_append_poisoned {i : Instr} {off : Option Word} {ws : List Word} {s : State} {r : Reason}
    (h : IsAppend s.cfg i off ws) (hr : raisedBy i s = none) (hi : s.Inv) (he : s.err = .failed r) :
    ∃ t, exec i s = .next t ∧ AppendPoisoned r (red s.cfg (startOffset off s + 4 * ws.length)) s t := by
  obtain ⟨-, hret, hwoff, herr, henv, hghost⟩ := appendAll_facts off ws s hi
  obtain ⟨herr', henv', -, hmarks⟩ := appendWords_poisoned ws (startOffset off s) s r he
  rw [herr', he] at hret herr
  exact ⟨_, exec_append h hr, hret, hwoff, herr, henv.trans henv', ⟨hghost ▸ hmarks.dirty, hghost ▸ hmarks.overrun,
    hghost ▸ hmarks.pubOff, hghost ▸ hmarks.lastRP⟩⟩

/-- Settles O16: an append goes on with its offsets, `DLAPPEND` with its overflow record, and every other operation returns at
once. -/
theorem poisonedOperationsSendNothing : Obligations.PoisonedOperationsSendNothing := by
  intro i s r hi he hr hq hc
  by_cases ha : appendsToFifo i = true
  · obtain ⟨off, ws, happ⟩ := exists_isAppend ha s.cfg
    obtain ⟨t, hx, h⟩ := exec_append_poisoned happ hr hi he
    refine ⟨t, hx, happ.poisonedValue ▸ h.returns, h.err, h.env, fun hn => absurd (hn.symm.trans ha) (by simp),
      fun hn => absurd (hn.symm.trans ha) (by simp), fun off w hd => ?_, fun _ => ⟨h.marks.dirty, h.marks.overrun⟩⟩
    subst hd
    cases ha
  · have hna : appendsToFifo i = false := Bool.eq_false_iff.2 ha
    by_cases hd : ∃ off w, i = .dlappend off w
    · obtain ⟨off, w, rfl⟩ := hd
      refine ⟨_, exec_dlappend_poisoned he hr, ⟨rfl, rfl, rfl, rfl, rfl⟩, he, rfl, fun _ => rfl,
        fun _ hn => absurd rfl (hn off w), fun off' w' hd => ?_, fun h => absurd h ha⟩
      cases hd
      rfl
    · have hnd : ∀ off w, i ≠ .dlappend off w := fun off w h => hd ⟨off, w, h⟩
      exact ⟨_, exec_poisoned he hr hq hc hna hnd, s.returns_complete _ _, he, rfl, fun _ => rfl, fun _ _ => rfl,
        fun off w h => absurd h (hnd off w), fun h => absurd h ha⟩

end Sys2Proof.Machine
end

section
/-! PROOFS. What a read returns and what it records: whatever the transport answers, of unwritten bytes, of RP while the consumer
moves it, and after a wider write (40_transactions.md R140 to R144; 20_memory.md R68, R86, R91; 70_reset_and_hazards.md R228,
R229). -/

namespace Sys2Proof.Machine

/-! ### One read, whatever the transport answers -/

/-- What one read transaction does from a clean error register, by its outcome `out` and the calls `l` it made. -/
structure ReadCut (a n : Nat) (out : Except Reason (List Byte)) (l : List TxCall) (s : State)
    (p : (Status × Word) × State) : Prop where
  trace : ReadTrace (readRequestBytes s.cfg (BitVec.ofNat 22 a)) n out l
  wire : p.2.env.wire = s.env.wire ++ l
  acts : Acts (fun _ => False) s p.2
  ok : ∀ got, out = .ok got → p.1 = (.ok, BitVec.ofNat 32 (fromLE got)) ∧ p.2.err = .ok ∧
    p.2.ghost = ghostRead s.cfg a n (fromLE got) s.ghost
  error : ∀ r, out = .error r → p.1 = (.err r, 0) ∧ p.2.err = .failed r ∧ p.2.ghost = s.ghost

theorem doRead_cut (a n : Nat) (s : State) (hc : s.env.Closed) (he : s.err = .ok) :
    ∃ out l, ReadCut a n out l s (doRead a n s) := by
  obtain ⟨-, -, l, -, -, -, -, hwire, htrace, -⟩ :=
    sendRead_cases s.cfg s.ghost.haz.any (BitVec.ofNat 22 a) n s.env (openTx_of_closed hc)
  have hA := doRead_acts a n s hc
  cases hs : (sendRead s.cfg s.ghost.haz.any (BitVec.ofNat 22 a) n s.env).1 with
  | error r =>
    rw [hs] at htrace
    rw [doRead_error _ _ _ he r hs] at hA ⊢
    exact ⟨_, l, htrace, hwire, hA, fun _ h => (by cases h), fun r' h => (by cases h; exact ⟨rfl, rfl, rfl⟩)⟩
  | ok got =>
    rw [hs] at htrace
    rw [doRead_ok _ _ _ he got hs] at hA ⊢
    exact ⟨_, l, htrace, hwire, hA, fun got' h => (by cases h; exact ⟨rfl, he, rfl⟩), fun _ h => (by cases h)⟩

/-- Settles O20: the outcome of the transaction decides what is latched and returned, and a read stores nothing. -/
theorem readsStopAtTheFirstFailure : Obligations.ReadsStopAtTheFirstFailure := by
  intro i a n s h hb hi he
  obtain ⟨out, l, hcut⟩ := doRead_cut a n s hi.tx_closed he
  refine ⟨_, out, l, exec_read h s hb, hcut.trace, hcut.wire, fun got hgot => ?_, fun r hr => ?_, hcut.acts.woff,
    hcut.acts.mem.memKept⟩
  · obtain ⟨hval, herr, -⟩ := hcut.ok got hgot
    rw [returnRead, hval]
    exact ⟨hcut.acts.returns _ _, herr⟩
  · obtain ⟨hval, herr, hghost⟩ := hcut.error r hr
    rw [returnRead, hval]
    exact ⟨hcut.acts.returns _ _, herr, hghost⟩

/-! ### Unwritten bytes -/

theorem Env.works_three {e : Env} (h0 : succeeds (e.peekCall 0)) (h1 : succeeds (e.peekCall 1))
    (h2 : succeeds (e.peekCall 2)) : e.works 3 := fun k hk => by
  interval_cases k
  · exact h0
  · exact h1
  · exact h2

/-- The pointer registers hold a value, so an unwritten byte is no byte of RP. -/
theorem not_onRP_of_unwritten {s : State} (hi : s.Inv) {x : Nat} (hx : s.env.mem.read x = none) : ¬ onRP s.cfg x := by
  rintro ⟨hle, hlt⟩
  obtain ⟨k, rfl⟩ := Nat.exists_eq_add_of_le hle
  have hw := (Memory.readLE_isSome_iff _ _ _).1 hi.rp_written k (by omega)
  simp [hx] at hw

theorem ofNat_fromLE_singleton (b : Byte) : BitVec.ofNat 32 (fromLE [b]) = b.setWidth 32 := by
  rw [fromLE_cons, fromLE_nil, Nat.mul_zero, Nat.add_zero]
  exact BitVec.eq_of_toNat_eq (by simp)

/-- Settles O21: an unwritten byte stays unwritten while the consumer moves, so the answer is the transport's own byte. -/
theorem unwrittenBytesAreFree : Obligations.UnwrittenBytesAreFree := by
  intro a b s d1 d2 d3 ds ha hi he hread hd1 hd2 hd3 hfill hcalls
  have h0 : s.env.peekCall 0 = d1 := by rw [Env.peekCall, hcalls]; rfl
  have h1 : s.env.peekCall 1 = d2 := by rw [Env.peekCall, hcalls]; rfl
  have h2 : s.env.peekCall 2 = d3 := by rw [Env.peekCall, hcalls]; rfl
  have hrp := not_onRP_of_unwritten hi hread
  have hA := doRead_acts a.toNat 1 s hi.tx_closed
  obtain ⟨m1, m2, got, -, -, hlen, hval, -, -, -, -, -, -, hpeek, -, callNo, hbytes⟩ :=
    doRead_works a.toNat 1 s hi.tx_closed he ha (Env.works_three (h0 ▸ hd1) (h1 ▸ hd2) (h2 ▸ hd3))
  have hgot : got = [b] := by
    obtain ⟨m, hd, hk⟩ := hbytes 0 (by omega)
    rw [Nat.add_zero, hd.outside _ hrp, hread, h1, drawnByte, hfill] at hk
    obtain ⟨x, rfl⟩ := List.length_eq_one_iff.1 hlen
    exact congrArg (fun y => [y]) (Option.some.inj hk)
  refine ⟨_, exec_read (.rd8 a) s (by omega), ?_, ?_, hpeek⟩
  · rw [returnRead, hval, hgot, ofNat_fromLE_singleton]
    exact hA.returns _ _
  · exact (hA.mem.outside _ (fun h => h) hrp).trans hread

/-! ### Pointer reads -/

/-- Byte `k` of the word that four bytes make. -/
theorem getElem?_eq_extractLsb {got : List Byte} (hl : got.length = 4) {k : Nat} (hk : k < 4) :
    got[k]? = some ((BitVec.ofNat 32 (fromLE got)).extractLsb' (8 * k) 8) := by
  rw [← leBytes_word _ k hk, word_toNat_ofNat (fromLE_lt_word hl), leBytes_fromLE_of_length hl]

/-- R144: a read of RP at its full width, as an operation. -/
theorem isRead_regRP {s : State} (c : CfgFacts s.cfg) : IsRead (.rd32 (BitVec.ofNat 32 s.cfg.regRP)) s.cfg.regRP 4 := by
  have h := IsRead.rd32 (BitVec.ofNat 32 s.cfg.regRP)
  rwa [c.regRP_toNat] at h

/-- Settles O22: every byte of the answer is a byte of RP at some moment of the consumer's moves; without tearing all four are
of one such moment. -/
theorem pointerReadsSeeTheConsumer : Obligations.PointerReadsSeeTheConsumer := by
  intro s r w hrp hwp ⟨hi, he, hworks⟩
  have c := cfgFacts hi.configured
  have hin := c.rp_in
  have hA := doRead_acts s.cfg.regRP 4 s hi.tx_closed
  obtain ⟨m1, m2, got, hd1, -, hlen, hval, -, -, -, -, -, -, -, hatomic, callNo, hbytes⟩ :=
    doRead_works s.cfg.regRP 4 s hi.tx_closed he (by omega) hworks
  refine ⟨_, BitVec.ofNat 32 (fromLE got), exec_read (isRead_regRP c) s hin, ?_, fun k hk => ?_, fun hat => ?_⟩
  · rw [returnRead, hval]
    exact hA.returns _ _
  · obtain ⟨m, hd, hgot⟩ := hbytes k hk
    obtain ⟨n, hn, hv⟩ := hd.rp_value c hrp hwp
    have hread := ((Memory.readLE_eq_some_iff ..).1 hv).2 k hk
    rw [hread, leBytes_getElem? _ _ _ hk, getElem?_eq_extractLsb hlen hk] at hgot
    exact ⟨n, hn, Option.some.inj hgot⟩
  · obtain ⟨n, hn, hv⟩ := hd1.rp_value c hrp hwp
    refine ⟨n, hn, ?_⟩
    rw [word_toNat_ofNat (fromLE_lt_word hlen), hatomic (mayTear_of_atomic hat _ _) _ hv, fromLE_leBytes,
      Nat.mod_eq_of_lt ((Memory.readLE_eq_some_iff ..).1 hv).1]

/-! ### Narrower reads of a word -/

/-- R66, R68: `n` of the four bytes of a word, from byte `k` on, hold those digits of it to the base 256. -/
theorem readLE_of_wordBytes {m : Memory} {a v : Nat} (h : ∀ k < 4, m.read (a + k) = some (BitVec.ofNat 8 (v / 256 ^ k)))
    (n k : Nat) (hk : k + n ≤ 4) : m.readLE (a + k) n = some (v / 256 ^ k % 256 ^ n) := by
  induction n generalizing k with
  | zero => simp [Memory.readLE, Nat.mod_one]
  | succ n ih =>
    rw [Memory.readLE_succ, h k (by omega), Nat.add_assoc, ih (k + 1) (by omega)]
    change some ((BitVec.ofNat 8 (v / 256 ^ k)).toNat + 256 * (v / 256 ^ (k + 1) % 256 ^ n)) = _
    rw [BitVec.toNat_ofNat, pow_succ' 256 n, Nat.mod_mul, pow_succ 256 k, Nat.div_div_eq_div_mul]

theorem ofNat_digits_eq_extractLsb (v : Word) (k n : Nat) :
    BitVec.ofNat 32 (v.toNat / 256 ^ k % 256 ^ n) = (v.extractLsb' (8 * k) (8 * n)).setWidth 32 := by
  refine BitVec.eq_of_toNat_eq ?_
  rw [BitVec.toNat_ofNat, BitVec.toNat_setWidth, BitVec.extractLsb'_toNat, Nat.shiftRight_eq_div_pow,
    show (256 : ℕ) = 2 ^ 8 from rfl, pow_mul, pow_mul]

theorem toNat_add_ofNat {a : Word} {k : Nat} (hk : k < 4) (ha : a.toNat + 4 ≤ 2 ^ 22) :
    (a + BitVec.ofNat 32 k).toNat = a.toNat + k := by
  rw [BitVec.toNat_add, BitVec.toNat_ofNat, Nat.mod_eq_of_lt (show k < 2 ^ 32 by omega), Nat.mod_eq_of_lt (by omega)]

/-- A read of `n` bytes from byte `k` of the word `v` returns those bytes of it. -/
theorem exec_read_of_wordBytes {i : Instr} {a k n : Nat} {v : Word} {t : State} (hr : IsRead i (a + k) n)
    (ha : a + 4 ≤ 2 ^ 22) (hk : k + n ≤ 4) (ht : t.Ready 3) (hrp : ∀ x, within a 4 x → ¬ onRP t.cfg x)
    (h : ∀ j < 4, t.env.mem.read (a + j) = some (BitVec.ofNat 8 (v.toNat / 256 ^ j))) :
    ∃ u, exec i t = .next u ∧ t.Returns u .ok (.word ((v.extractLsb' (8 * k) (8 * n)).setWidth 32)) := by
  obtain ⟨u, got, hx, -, hret, -, -, hval, -⟩ := readsReturnTheDeviceValue i (a + k) n t hr (by omega) ht
  obtain ⟨-, hgot⟩ := hval (fun x hx => hrp x (by simp only [within] at hx ⊢; omega)) _ (readLE_of_wordBytes h n k hk)
  rw [hgot, ofNat_digits_eq_extractLsb] at hret
  exact ⟨u, hx, hret⟩

/-- Settles O27: after the write the four bytes are those of its value, and a read returns the bytes it finds. -/
theorem mixedWidthsSeeBytes : Obligations.MixedWidthsSeeBytes := by
  intro s t a v ha hrp ⟨hi, he, hworks⟩ hx
  have hin : a.toNat < addrLimit := by simp only [addrLimit]; omega
  have hti := exec_inv hi hx
  rw [exec_write (.wr32 a v) s ha] at hx
  cases hx
  have hA := doWrite_acts a.toNat 4 v.toNat s hi.tx_closed hin
  obtain ⟨m, -, -, herr, hmem, -, -, -, -, hpeek⟩ := doWrite_works a.toNat 4 v.toNat s hi.tx_closed he hin
    (Env.works_fewer hworks (by omega))
  have hready : (returnStatus (doWrite a.toNat 4 v.toNat s)).Ready 3 :=
    ⟨hti, herr, Env.works_shift hworks hpeek (by omega)⟩
  have hbytes : ∀ j < 4, (returnStatus (doWrite a.toNat 4 v.toNat s)).env.mem.read (a.toNat + j) =
      some (BitVec.ofNat 8 (v.toNat / 256 ^ j)) := fun j hj => by
    rw [← leBytes_getElem? 4 _ j hj, ← Memory.read_writeBytes_of_lt m a.toNat j (leBytes 4 v.toNat) (by simpa using hj)
      (by rw [leBytes_length]; exact ha), ← hmem]
    rfl
  have hcfg : (returnStatus (doWrite a.toNat 4 v.toNat s)).cfg = s.cfg := hA.cfg
  refine ⟨fun k hk => ?_, ?_⟩
  · have hr := IsRead.rd8 (a + BitVec.ofNat 32 k)
    rw [toNat_add_ofNat hk ha] at hr
    exact exec_read_of_wordBytes hr ha (by omega) hready (hcfg ▸ hrp) hbytes
  · have hr := IsRead.rd16 (a + BitVec.ofNat 32 1)
    rw [toNat_add_ofNat (by omega) ha] at hr
    exact exec_read_of_wordBytes hr ha (by omega) hready (hcfg ▸ hrp) hbytes

/-! ### What a read records -/

/-- R228: a full-width read of RP is an observation of it and nothing else. -/
theorem ghostRead_rp {cfg : Cfg} (c : CfgFacts cfg) (v : Nat) (g : Ghost) :
    ghostRead cfg cfg.regRP 4 v g = ghostObserveRP cfg v g := by
  have h := c.rp_wp
  have hne : cfg.regRP ≠ cfg.regWP := by omega
  simp [ghostRead, c.ptrBytes_eq, hne, Ghost.flagIf_false]

/-- R229: a full-width read of WP is a readback and nothing else. -/
theorem ghostRead_wp {cfg : Cfg} (c : CfgFacts cfg) (v : Nat) (g : Ghost) :
    ghostRead cfg cfg.regWP 4 v g = g.flagIf (decide (v ≠ g.pubOff)) .wpReadback := by
  have h := c.rp_wp
  have hne : ¬ cfg.regWP = cfg.regRP := by omega
  simp [ghostRead, c.ptrBytes_eq, hne]

/-- R228, R229: every other read records nothing. -/
theorem ghostRead_elsewhere {cfg : Cfg} (c : CfgFacts cfg) {a n : Nat} (h : ¬(n = 4 ∧ (a = cfg.regRP ∨ a = cfg.regWP)))
    (v : Nat) (g : Ghost) : ghostRead cfg a n v g = g := by
  by_cases hn : n = 4
  · obtain ⟨hrp, hwp⟩ := not_or.1 fun ha => h ⟨hn, ha⟩
    simp [ghostRead, hrp, hwp, Ghost.flagIf_false]
  · exact ghostRead_narrow c hn g

theorem IsRead.width_le {i : Instr} {a n : Nat} (h : IsRead i a n) : n ≤ 4 := by cases h <;> omega

/-- The word a read returns has the value of the bytes received. -/
theorem toNat_ofNat_fromLE {got : List Byte} (h : got.length ≤ 4) : (BitVec.ofNat 32 (fromLE got)).toNat = fromLE got :=
  word_toNat_ofNat (lt_of_lt_of_le (fromLE_lt got) (Nat.pow_le_pow_right (by omega) h : 256 ^ got.length ≤ 256 ^ 4))

/-- Settles O43: the hook of a read tells the two pointer registers, read at full width, from every other read. -/
theorem readsObserveThePointers : Obligations.ReadsObserveThePointers := by
  intro i a n s h hb ⟨hi, he, hworks⟩
  have c := cfgFacts hi.configured
  have hpos := h.pos
  have hA := doRead_acts a n s hi.tx_closed
  obtain ⟨m1, m2, got, -, -, hlen, hval, -, -, hghost, -⟩ :=
    doRead_works a n s hi.tx_closed he (by simp only [addrLimit]; omega) hworks
  have hv : (BitVec.ofNat 32 (fromLE got)).toNat = fromLE got := toNat_ofNat_fromLE (hlen.trans_le h.width_le)
  refine ⟨_, BitVec.ofNat 32 (fromLE got), exec_read h s hb, ?_, ?_⟩
  · rw [returnRead, hval]
    exact hA.returns _ _
  rw [returnRead, State.complete_ghost, hghost, hv]
  refine ⟨fun ha hn hlt hle => ?_, fun ha hn hor => ?_, fun ha hn hne => ?_, fun ha hn heq => ?_,
    fun hn => ghostRead_elsewhere c hn _ _⟩
  · subst ha hn
    rw [ghostRead_rp c, ghostObserveRP, if_pos ⟨hlt, hle⟩]
  · subst ha hn
    rw [ghostRead_rp c, ghostObserveRP, if_neg (by omega)]
    rfl
  · subst ha hn
    rw [ghostRead_wp c, decide_eq_true hne]
    rfl
  · subst ha hn
    rw [ghostRead_wp c, decide_eq_false (not_not.2 heq), Ghost.flagIf_false]

end Sys2Proof.Machine
end

section
/-! PROOFS. Single writes: the publish, the display-list append under any error register, and the window bytes that writes mark
(41_display_list.md R160; 42_fifo_writer.md R174; 70_reset_and_hazards.md R225). -/

namespace Sys2Proof.Machine

/-! ### The publish -/

/-- R147: a full-width write at `REG_WP`, as an operation. -/
theorem isWrite_regWP {s : State} (c : CfgFacts s.cfg) (v : Word) :
    IsWrite (.wr32 (BitVec.ofNat 32 s.cfg.regWP) v) s.cfg.regWP 4 v.toNat := by
  have h := IsWrite.wr32 (BitVec.ofNat 32 s.cfg.regWP) v
  rwa [c.regWP_toNat] at h

/-- Settles O26: neither operation faults, and both make the same access. -/
theorem writeAtWpIsPublish : Obligations.WriteAtWpIsPublish := by
  intro s v hi hv
  have c := cfgFacts hi.configured
  rw [exec_write (isWrite_regWP c v) s c.wp_in, exec_publish (some v) hv, c.ptrBytes_eq]
  rfl

/-- An offset fits a pointer register. -/
theorem CfgFacts.offset_lt_word {cfg : Cfg} (c : CfgFacts cfg) {v : Nat} (hv : v < cfg.fifoCap) : v < 2 ^ 32 := by
  have h := c.fifo_in
  simp only [addrLimit] at h
  omega

/-- Settles O38: the publish is a plain write of the four bytes of WP, committed after the consumer's last turn. -/
theorem publishWritesWp : Obligations.PublishWritesWp := by
  intro v s hv ⟨hi, he, hworks⟩
  have c := cfgFacts hi.configured
  have hin := c.wp_in
  have ha : s.cfg.regWP < addrLimit := by omega
  have hA := doWrite_acts s.cfg.regWP (ptrBytes s.cfg) (operandOr s.woff v) s hi.tx_closed ha
  obtain ⟨m, -, hst, herr, hmem, -, hwire, htx, -, -⟩ :=
    doWrite_works s.cfg.regWP (ptrBytes s.cfg) (operandOr s.woff v) s hi.tx_closed he ha hworks
  have hx := exec_publish v hv
  rw [returnStatus, hst] at hx
  refine ⟨_, hx, hA.returns _ _, ?_, ?_, hA.mem.memKept, herr, hA.woff, htx, hA.kept.clock⟩
  · rw [State.wp, State.complete_cfg, State.complete_env, hA.cfg, hmem, c.ptrBytes_eq]
    exact Memory.readLE_writeBytes _ _ _ _ hin (c.offset_lt_word hv)
  · rw [c.ptrBytes_eq] at hwire ⊢
    exact hwire

/-! ### The display list -/

/-- Settles O30: the offset is computed and the overflow recorded before the access, which leaves both. -/
theorem dlappendOffsetAndOverflow : Obligations.DlappendOffsetAndOverflow := by
  intro off w s hi hb
  have hA := dlWrite_acts hi.tx_closed hb w
  exact ⟨_, _, exec_dlappend hb w, hA.returns _ _, hA.woff, dlWrite_dlOverflow off w s⟩

/-! ### Window bytes -/

/-- R225: what a write that is no publish leaves of the ghost state: its offsets in the window dirty, an overrun exactly where
one of them is published, and the rest. -/
theorem ghostWrite_marks {cfg : Cfg} (c : CfgFacts cfg) {a n v : Nat} (h : ¬(a = cfg.regWP ∧ n = 4 ∧ v < cfg.fifoCap))
    (g : Ghost) :
    (∀ o, o ∈ (ghostWrite cfg a n v g).dirty ↔
      o ∈ g.dirty ∨ (onWindow cfg (cfg.fifoBase + o) ∧ within a n (cfg.fifoBase + o))) ∧
    ((ghostWrite cfg a n v g).haz.overrun = true ↔ g.haz.overrun = true ∨
      ∃ o, onWindow cfg (cfg.fifoBase + o) ∧ within a n (cfg.fifoBase + o) ∧
        inRing cfg o g.lastRP g.pubOff = true) ∧
    (ghostWrite cfg a n v g).pubOff = g.pubOff ∧ (ghostWrite cfg a n v g).lastRP = g.lastRP ∧
      (ghostWrite cfg a n v g).span = g.span := by
  have hover : ((ghostWindow cfg a n g).flagIf (isPtrAliased cfg a n v) .ptrAliased).haz.overrun =
      (ghostWindow cfg a n g).haz.overrun :=
    (Ghost.flagIf_has _ .ptrAliased .overrun _).trans (by simp [Hazards.has])
  rw [ghostWrite_plain c h, hover, Ghost.flagIf_dirty, Ghost.flagIf_pubOff, Ghost.flagIf_lastRP, Ghost.flagIf_span]
  exact ⟨ghostWindow_dirty cfg a n g, ghostWindow_overrun cfg a n g, ghostWindow_frame cfg a n g⟩

/-- Settles O40: one write marks by its addresses; an append marks the bytes of the transactions that it has begun, which are all
of its bytes where none fails. -/
theorem writesMarkTheWindow : Obligations.WritesMarkTheWindow := by
  refine ⟨fun i a n v val s t h hr hi he hno hx => ?_, fun i off ws s t h hr hi he hx => ?_⟩
  · obtain ⟨g, ht, hdirty, hpub, hrp, hspan, hhaz⟩ := exec_oneWrite_ghost h hr he hx
    have hover : g.haz.overrun = s.ghost.haz.overrun := hhaz .overrun (by simp)
    rw [ht, ← hdirty, ← hpub, ← hrp, ← hspan, ← hover]
    exact ghostWrite_marks (cfgFacts hi.configured) hno g
  · obtain ⟨t', n, q, j, out, l, hx', -, hw⟩ := exec_append_wrote h hr hi he
    cases hx'.symm.trans hx
    refine ⟨n, q, out, l, hw.sent, hw.wire, fun hok => ?_, hw.dirty, hw.overrun⟩
    obtain ⟨hn, hq⟩ := hw.whole (errOf_eq_ok.1 (hw.err.symm.trans hok))
    rw [hn, hq, wordsBytes_length, Nat.add_zero]

end Sys2Proof.Machine
end

section
/-! PROOFS. The appends: the offsets they move, the bytes they place, their transactions, and the text payload
(42_fifo_writer.md R170 to R175; 30_encoding.md R112 to R118; 70_reset_and_hazards.md R238). -/

namespace Sys2Proof.Machine

/-! ### Offsets -/

/-- Settles O33: the offset returned depends on the words alone, and the status on what the words leave in `ERR`. -/
theorem appendsMoveTheOffset : Obligations.AppendsMoveTheOffset := by
  intro i off ws s h hr hi
  have c := cfgFacts hi.configured
  obtain ⟨-, hret, hwoff, herr, -⟩ := appendAll_facts off ws s hi
  refine ⟨_, _, exec_append h hr, hret, hwoff, ?_, fun r => ?_, Err.status_ne_timeout _⟩
  · rw [hwoff]
    exact red_lt c.cap_pos _
  · rw [herr, Err.status_eq_err]

/-- The capacity is a multiple of 4, so reduction keeps the multiples of 4. -/
theorem CfgFacts.four_dvd_red {cfg : Cfg} (c : CfgFacts cfg) {o : Nat} (h : 4 ∣ o) : 4 ∣ red cfg o :=
  (Nat.dvd_mod_iff c.four_dvd).2 h

/-- Settles O35: an aligned start offset stays aligned from word to word, and an aligned word does not cross the end of the
window. -/
theorem defaultOffsetsNeverSplit : Obligations.DefaultOffsetsNeverSplit := by
  intro i ws s t h hi h4 hr hx
  have c := cfgFacts hi.configured
  have hstart : 4 ∣ startOffset none s := c.four_dvd_red h4
  obtain ⟨-, -, hwoff, -, henv, -⟩ := appendAll_facts none ws s hi
  rw [exec_append h hr] at hx
  cases hx
  refine ⟨?_, ?_⟩
  · rw [hwoff]
    exact c.four_dvd_red (Nat.dvd_add hstart (Nat.dvd_mul_right 4 _))
  · rw [henv]
    exact appendWords_wholeWords ws _ s c hi.tx_closed (red_lt c.cap_pos _) hstart

/-! ### Bytes in the ring -/

/-- Settles O34: with a transport that works no word is poisoned by an earlier one, so each is written whole. -/
theorem appendsPlaceEveryWord : Obligations.AppendsPlaceEveryWord := by
  intro i off ws s h hr ⟨hi, he, hworks⟩
  have c := cfgFacts hi.configured
  obtain ⟨hA, hret, hwoff, herr, henv, -⟩ := appendAll_facts off ws s hi
  obtain ⟨hok, hwire, hbytes, hclosed⟩ :=
    appendWords_works ws (startOffset off s) s c hi.tx_closed he (red_lt c.cap_pos _) hworks
  rw [hok] at hret herr
  refine ⟨_, exec_append h hr, hret, hwoff, ?_⟩
  rw [henv]
  refine ⟨hwire, fun j w hw hfit k hk => ?_, hA.mem.memKept, herr, (hclosed h.ne_nil).1, hA.kept.clock⟩
  rw [← leBytes_word w k hk, ← hbytes j w hw hfit k hk, fifoAddr, Nat.add_assoc]

/-- Settles O31: `FIFO_WORD` is the append of one word, which no capacity is too small for. -/
theorem fifoWordPlacesItsBytes : Obligations.FifoWordPlacesItsBytes := by
  intro off w s hready
  have hcap := (cfgFacts hready.1.configured).cap_ge
  obtain ⟨t, hx, hret, hwoff, -, hbytes, hkept, herr, htx, hclock⟩ :=
    appendsPlaceEveryWord _ off [w] s (.word off w) rfl hready
  exact ⟨t, hx, hret, hwoff, hbytes 0 w rfl hcap, hkept, herr, htx, hclock⟩

/-- R170: a write that does not cross the end of the window is one transaction. -/
theorem wrapTrace_of_le {cfg : Cfg} {o : Nat} {bs : List Byte} (h : o + bs.length ≤ cfg.fifoCap) :
    wrapTrace cfg o bs =
      [.write (hdr (BitVec.ofNat 22 (cfg.fifoBase + o)) .write) none, .write bs none, .flush none] := by
  have ht : tailLength cfg o bs.length = bs.length := Nat.min_eq_left (by omega)
  rw [wrapTrace, ht, if_neg (lt_irrefl _), List.take_length, List.append_nil]

/-- R170: a write that crosses the end after `j` bytes is two transactions, the tail first. -/
theorem wrapTrace_of_crosses {cfg : Cfg} {o j : Nat} {bs : List Byte} (hj : j < bs.length) (h : o + j = cfg.fifoCap) :
    wrapTrace cfg o bs =
      [.write (hdr (BitVec.ofNat 22 (cfg.fifoBase + o)) .write) none, .write (bs.take j) none, .flush none,
        .write (hdr (BitVec.ofNat 22 cfg.fifoBase) .write) none, .write (bs.drop j) none, .flush none] := by
  have ht : tailLength cfg o bs.length = j := by
    rw [tailLength]
    omega
  rw [wrapTrace, ht, if_pos hj]
  rfl

/-- Settles O32: the calls of `FIFO_WORD` are those of one wrapped write. -/
theorem fifoWordTransactions : Obligations.FifoWordTransactions := by
  intro off w s hready
  obtain ⟨t, hx, -, -, hwire, -⟩ := appendsPlaceEveryWord _ off [w] s (.word off w) rfl hready
  rw [appendTrace, appendTrace, List.append_nil] at hwire
  refine ⟨t, hx, fun hle => ?_, fun j _ hj h => ?_⟩
  · rw [hwire, wrapTrace_of_le (by rw [leBytes_length]; exact hle)]
  · rw [hwire, wrapTrace_of_crosses (by rw [leBytes_length]; exact hj) h]

/-! ### The text payload -/

/-- R115: a byte of the payload is the text's, and zero from its end on. -/
theorem textBytes_getElem? (t : List Byte) {k : Nat} (hk : k < 4 * (t.length / 4 + 1)) :
    (textBytes t)[k]? = some (t.getD k 0x00) := by
  unfold textBytes
  rcases Nat.lt_or_ge k t.length with h | h
  · rw [List.getElem?_append_left h, List.getD_eq_getElem _ _ h, List.getElem?_eq_getElem h]
  · rw [List.getElem?_append_right h, List.getD_eq_default _ _ h, List.getElem?_replicate, if_pos (by omega)]

theorem textWords_eq (cfg : Cfg) (x y : Int) (font options : Nat) (t : List Byte) :
    textWords cfg x y font options t =
      [cfg.textOpcode] ++ packText cfg x y font options ++ wordsOfBytes (textBytes t) := rfl

/-- Settles O36: the payload is a whole number of words, so its groups of four are exactly these words' bytes. -/
theorem textPayload : Obligations.TextPayload := by
  refine ⟨fun t => ?_, textWords_eq⟩
  have hlen := textBytes_length t
  obtain ⟨hwords, hbytes⟩ := wordsOfBytes_spec _ _ hlen
  refine ⟨hlen, fun k hk => ?_, fun k hk h => ?_, hwords, hbytes⟩
  · rw [textBytes_getElem? t (by omega), List.getD_eq_getElem _ _ hk, List.getElem?_eq_getElem hk]
  · rw [textBytes_getElem? t h, List.getD_eq_default _ _ hk]

theorem textWords_length (cfg : Cfg) (x y : Int) (font options : Nat) (t : List Byte) :
    (textWords cfg x y font options t).length = 1 + (packText cfg x y font options).length + t.length / 4 + 1 := by
  have hwords := (wordsOfBytes_spec _ _ (textBytes_length t)).1
  simp only [textWords_eq, List.length_append, List.length_singleton, hwords]
  omega

/-- R173: byte `k` of the text, or the zero after it, stands in a word of the payload, after the header words. -/
theorem textWords_byte (cfg : Cfg) (x y : Int) (font options : Nat) (t : List Byte) {k : Nat} (hk : k ≤ t.length) :
    ∃ w, (textWords cfg x y font options t)[1 + (packText cfg x y font options).length + k / 4]? = some w ∧
      w.extractLsb' (8 * (k % 4)) 8 = t.getD k 0x00 := by
  obtain ⟨hwords, hbytes⟩ := wordsOfBytes_spec _ _ (textBytes_length t)
  have hg : k / 4 < t.length / 4 + 1 := by omega
  have hbyte := hbytes (k / 4) (k % 4) hg (by omega)
  rw [Nat.div_add_mod, textBytes_getElem? t (by omega), List.getElem?_eq_getElem (by omega), Option.map_some] at hbyte
  have hheader : ([cfg.textOpcode] ++ packText cfg x y font options).length = 1 + (packText cfg x y font options).length := by
    rw [List.length_append, List.length_singleton]
  refine ⟨_, ?_, Option.some.inj hbyte⟩
  rw [textWords_eq, List.getElem?_append_right (by omega), hheader, Nat.add_sub_cancel_left]
  exact List.getElem?_eq_getElem _

/-- Settles O37: the text's bytes stand in the payload words of the append, none of which is overwritten in a command that fits
the ring. -/
theorem fifoTextPlacesItsText : Obligations.FifoTextPlacesItsText := by
  intro off x y font options text s hlen hfit hready
  obtain ⟨t, hx, hret, -, -, hbytes, -⟩ := appendsPlaceEveryWord _ off _ s (.text off x y font options text)
    (textFault_of_le hlen) hready
  refine ⟨t, hx, ?_, fun k hk => ?_⟩
  · rw [← textWords_length]
    exact hret
  · obtain ⟨w, hw, hval⟩ := textWords_byte s.cfg x y font options text hk
    rw [← hval, ← hbytes _ w hw (by omega) (k % 4) (Nat.mod_lt _ (by omega))]
    congr 3
    omega

/-! ### Defaults -/

/-- R112: an absent offset or value is `WOFF`. -/
theorem State.Inv.operandOr_none {s : State} (hi : s.Inv) :
    operandOr s.woff none = operandOr s.woff (some (BitVec.ofNat 32 s.woff)) :=
  (word_toNat_ofNat ((cfgFacts hi.configured).offset_lt_word hi.woff_lt)).symm

theorem State.Inv.startOffset_none {s : State} (hi : s.Inv) :
    startOffset none s = startOffset (some (BitVec.ofNat 32 s.woff)) s :=
  congrArg (red s.cfg) hi.operandOr_none

theorem appendAll_congr {s : State} {off off' : Option Word} (h : startOffset off s = startOffset off' s) (ws : List Word) :
    appendAll off ws s = appendAll off' ws s := by
  rw [appendAll, appendAll, h]

theorem exec_fifoWord (off : Option Word) (w : Word) (s : State) : exec (.fifoWord off w) s = .next (appendAll off [w] s) :=
  exec_append (.word off w) rfl

theorem exec_fifoCmd (off : Option Word) (c : Word) (ws : List Word) (s : State) :
    exec (.fifoCmd off c ws) s = .next (appendAll off (c :: ws) s) := exec_append (.cmd off c ws) rfl

theorem exec_fifoText (off : Option Word) (x y : Int) (f o : Nat) (t : List Byte) (s : State) :
    exec (.fifoText off x y f o t) s = checked (textFault s.cfg t) s (appendAll off (textWords s.cfg x y f o t) s) := rfl

theorem execFifoPublish_congr {s : State} {v v' : Option Word} (h : operandOr s.woff v = operandOr s.woff v') :
    execFifoPublish v s = execFifoPublish v' s := by
  rw [execFifoPublish, execFifoPublish, h]

theorem execFifoWaitOffset_congr {s : State} {v v' : Option Word} (h : operandOr s.woff v = operandOr s.woff v')
    (d : Option Nat) : execFifoWaitOffset v d s = execFifoWaitOffset v' d s := by
  rw [execFifoWaitOffset, execFifoWaitOffset, h]

/-- R191: with no deadline only `cancel` ends a wait. -/
theorem Env.expired_none (e : Env) : e.expired none = (e.peekTick 0).cancel := by
  rw [← Env.tick_eq_peekTick]
  exact Bool.or_false _

/-- Log 17: `DLAPPEND` without an offset is refused. -/
theorem decode_dlappend_without_off {r : Request} (hop : r.op = 0x09) (hoff : r.off = none) :
    decode r = .error .missingOperand := by
  simp [decode, decodeOp, hop, hoff, required, Except.bind]

/-- Settles O39: an operation reads an optional operand through its default only, and the default is `WOFF`. -/
theorem operandDefaults : Obligations.OperandDefaults := by
  refine ⟨fun s hi => ⟨fun w => ?_, fun c ws => ?_, fun x y f o t => ?_, execFifoPublish_congr hi.operandOr_none,
    execFifoWaitOffset_congr hi.operandOr_none⟩, Env.expired_none, fun off c s => ?_, fun s r hr hop hoff => ?_⟩
  · rw [exec_fifoWord, exec_fifoWord, appendAll_congr hi.startOffset_none]
  · rw [exec_fifoCmd, exec_fifoCmd, appendAll_congr hi.startOffset_none]
  · rw [exec_fifoText, exec_fifoText, appendAll_congr hi.startOffset_none]
  · rw [exec_fifoCmd, exec_fifoWord]
  · exact step_of_rejected hr (decode_dlappend_without_off hop hoff)

/-! ### A publish after a poisoned append -/

theorem IsAppend.appendsToFifo {cfg : Cfg} {i : Instr} {off : Option Word} {ws : List Word} (h : IsAppend cfg i off ws) :
    appendsToFifo i = true := by
  cases h <;> rfl

/-- R227: a publish of an offset is flagged unwritten exactly where it announces one that is not dirty. -/
theorem exec_publish_unwritten {s t : State} (c : CfgFacts s.cfg) (he : s.err = .ok) {v : Option Word}
    (hv : operandOr s.woff v < s.cfg.fifoCap) (hx : exec (.fifoPublish v) s = .next t) :
    t.ghost.haz.unwritten = true ↔ s.ghost.haz.unwritten = true ∨
      ∃ o < s.cfg.fifoCap, inRing s.cfg o s.ghost.pubOff (operandOr s.woff v) = true ∧ o ∉ s.ghost.dirty := by
  rw [exec_publish v hv] at hx
  cases hx
  rw [returnStatus, State.complete_ghost, doWrite_ghost _ _ _ _ he, ghostWrite_publish c _ hv]
  exact ghostPublish_unwritten c _ _

/-- Settles O45: the poisoned append leaves the dirty set, the publish offset and the unwritten flag as it found them, and the
publish after `ERRCLR` looks at these. -/
theorem publishAfterPoisonedAppendIsFlagged : Obligations.PublishAfterPoisonedAppendIsFlagged := by
  intro i off ws s t u v r happ hr hi he hx hclr hpub
  have c := cfgFacts hi.configured
  obtain ⟨t', hx', ht⟩ := exec_append_poisoned happ hr hi he
  cases hx'.symm.trans hx
  have hun : t.ghost.haz.unwritten = s.ghost.haz.unwritten :=
    exec_append_hazard happ.appendsToFifo hi hx (x := .unwritten) (by simp) (by simp)
  have hcfg : t.cfg = s.cfg := ht.returns.cfg
  refine ⟨ht.woff, ht.marks.dirty, ht.env, ?_⟩
  cases (exec_errclr t).symm.trans hclr
  have hflag := exec_publish_unwritten (s := t.clearErr.complete .ok .absent) (hcfg ▸ c) rfl (v := none)
    (show t.woff < t.cfg.fifoCap by rw [ht.woff, hcfg]; exact red_lt c.cap_pos _) hpub
  simp only [State.complete_ghost, State.complete_cfg, State.complete_woff, State.clearErr_ghost, State.clearErr_cfg,
    State.clearErr_woff, hun, hcfg, ht.marks.pubOff, ht.marks.dirty] at hflag
  exact hflag

end Sys2Proof.Machine
end

section
/-! PROOFS. Hazards stay set, and each operation records its own only (70_reset_and_hazards.md R225 to R232). -/

namespace Sys2Proof.Machine

/-! ### Hazards stay set -/

theorem exec_keeps_hazard {i : Instr} {s t : State} {x : Hazard} (hi : s.Inv) (hx : exec i s = .next t)
    (h : s.ghost.haz.has x = true) : t.ghost.haz.has x = true := by
  rcases exec_quiet_or_ends hi hx with hq | ⟨s1, -, ha, hends⟩
  · rw [hq.ghost]
    exact h
  · obtain ⟨-, -, -, hghost, -⟩ := hends.same
    rw [hghost]
    exact ha.haz x h

theorem step_keeps_hazard {s t : State} {x : Hazard} (hi : s.Inv) (hst : step s = .next t)
    (h : s.ghost.haz.has x = true) : t.ghost.haz.has x = true := by
  rcases step_next hst with ⟨i, u, hx, -, rfl⟩ | rfl
  · rw [State.between_ghost]
    exact exec_keeps_hazard hi hx h
  · exact h

/-! ### What each operation leaves of the hazards -/

theorem dlOverflowCheck_other (cfg : Cfg) (off : Nat) (g : Ghost) {x : Hazard} (hx : x ≠ .dlOverflow) :
    (dlOverflowCheck cfg off g).haz.has x = g.haz.has x := by
  unfold dlOverflowCheck
  cases cfg.dlCap with
  | none => rfl
  | some cap =>
    dsimp only
    rw [Ghost.flagIf_has]
    simp [hx]

theorem dlWrite_hazard (off w : Word) (s : State) {x : Hazard} (h1 : x ≠ .overrun) (h2 : x ≠ .ptrAliased)
    (h3 : x ≠ .unwritten) (h4 : x ≠ .full) (h5 : x ≠ .dlOverflow) :
    (dlWrite off w s).2.ghost.haz.has x = s.ghost.haz.has x :=
  (doWrite_hazard (s := dlChecked off s) (ghostWrite_other _ _ _ _ _ _ h3 h4 h1 h2)).trans (dlOverflowCheck_other _ _ _ h5)

/-- A host command has no hook. -/
theorem doCommand_ghost (c : Byte) (s : State) : (doCommand c s).2.ghost = s.ghost := by
  cases he : s.err with
  | ok => rw [doCommand_eq _ _ he]
  | failed r => simp only [doCommand, he]

theorem pollPtr_hazard (reg : Nat) (s : State) {x : Hazard} (h1 : x ≠ .rpUnexpected) (h2 : x ≠ .wpReadback) :
    (pollPtr reg s).2.ghost.haz.has x = s.ghost.haz.has x :=
  doRead_hazard fun v => ghostRead_other _ _ _ v _ _ h1 h2

theorem waitOffsetPass_ghost (e : Nat) (d : Option Nat) (s : State) :
    (waitOffsetPass e d s).ghost = (pollPtr s.cfg.regRP s).2.ghost := by
  unfold waitOffsetPass
  dsimp only
  cases (pollPtr s.cfg.regRP s).1.1 with
  | ok =>
    dsimp only
    split_ifs
    · rfl
    · exact pollAgain_ghost _ _
  | err r => rfl
  | timeout => rfl

theorem waitEmptyPass_hazard (d : Option Nat) (s : State) {x : Hazard} (h1 : x ≠ .rpUnexpected) (h2 : x ≠ .wpReadback) :
    (waitEmptyPass d s).ghost.haz.has x = s.ghost.haz.has x := by
  have hp := pollPtr_hazard s.cfg.regRP s h1 h2
  unfold waitEmptyPass
  generalize pollPtr s.cfg.regRP s = p at hp
  have hq := (pollPtr_hazard p.2.cfg.regWP p.2 h1 h2).trans hp
  dsimp only
  generalize pollPtr p.2.cfg.regWP p.2 = q at hq
  cases p.1.1 with
  | ok =>
    cases q.1.1 with
    | ok =>
      dsimp only
      split_ifs
      · exact hq
      · rw [pollAgain_ghost]
        exact hq
    | err r => exact hq
    | timeout => exact hq
  | err r => exact hp
  | timeout => exact hp

theorem unlessPoisoned_hazard {s b : State} {x : Hazard} (h : b.ghost.haz.has x = s.ghost.haz.has x) :
    (unlessPoisoned s b).ghost.haz.has x = s.ghost.haz.has x := by
  unfold unlessPoisoned
  cases s.err with
  | ok => exact h
  | failed r => rfl

/-- A publish that does not fault. -/
theorem exec_publish_hazard {v : Option Word} {s t : State} {x : Hazard} (c : CfgFacts s.cfg)
    (hx : exec (.fifoPublish v) s = .next t) (h1 : x ≠ .unwritten) (h2 : x ≠ .full) :
    t.ghost.haz.has x = s.ghost.haz.has x := by
  by_cases hv : operandOr s.woff v < s.cfg.fifoCap
  · rw [exec_publish v hv] at hx
    cases hx
    exact doWrite_hazard (by rw [ghostWrite_publish c _ hv, ghostPublish_other _ _ _ _ h1 h2])
  · rw [exec_raises (.fifoPublish v) s _ (offsetFault_of_le (Nat.not_lt.1 hv))] at hx
    cases hx
    rw [State.raiseFault_ghost]

/-- R225 to R231: an operation leaves every hazard that is not of its own kind. -/
theorem exec_other_hazard {i : Instr} {s t : State} {x : Hazard} (hi : s.Inv) (hx : exec i s = .next t)
    (h : mayRaise i x = false) : t.ghost.haz.has x = s.ghost.haz.has x := by
  have c := cfgFacts hi.configured
  cases i with
  | rd8 a => exact checked_hazard hx (doRead_hazard fun v => by rw [ghostRead_narrow c (by omega)])
  | rd16 a => exact checked_hazard hx (doRead_hazard fun v => by rw [ghostRead_narrow c (by omega)])
  | rd32 a =>
    obtain ⟨h1, h2⟩ := not_or.1 (of_decide_eq_false h)
    exact checked_hazard hx (doRead_hazard fun v => ghostRead_other _ _ _ v _ _ h1 h2)
  | wr8 a d =>
    obtain ⟨h1, h2⟩ := not_or.1 (of_decide_eq_false h)
    exact checked_hazard hx (doWrite_hazard (ghostWrite_narrow c (by omega) _ h1 h2))
  | wr16 a d =>
    obtain ⟨h1, h2⟩ := not_or.1 (of_decide_eq_false h)
    exact checked_hazard hx (doWrite_hazard (ghostWrite_narrow c (by omega) _ h1 h2))
  | wr32 a d =>
    have hn := of_decide_eq_false h
    simp only [not_or] at hn
    obtain ⟨h1, h2, h3, h4⟩ := hn
    exact checked_hazard hx (doWrite_hazard (ghostWrite_other _ _ _ _ _ _ h3 h4 h1 h2))
  | hostcmd code =>
    cases hx
    rw [returnStatus, State.complete_ghost, doCommand_ghost]
  | errq =>
    cases hx
    rfl
  | errclr =>
    cases hx
    rfl
  | dlappend off w =>
    have hn := of_decide_eq_false h
    simp only [not_or] at hn
    obtain ⟨h1, h2, h3, h4, h5⟩ := hn
    exact checked_hazard hx (dlWrite_hazard off w s h1 h2 h3 h4 h5)
  | fifoWord off w =>
    obtain ⟨h1, h2⟩ := not_or.1 (of_decide_eq_false h)
    exact exec_append_hazard rfl hi hx h1 h2
  | fifoCmd off op ws =>
    obtain ⟨h1, h2⟩ := not_or.1 (of_decide_eq_false h)
    exact exec_append_hazard rfl hi hx h1 h2
  | fifoText off px py f o text =>
    obtain ⟨h1, h2⟩ := not_or.1 (of_decide_eq_false h)
    exact exec_append_hazard rfl hi hx h1 h2
  | fifoPublish v =>
    obtain ⟨h1, h2⟩ := not_or.1 (of_decide_eq_false h)
    exact exec_publish_hazard c hx h1 h2
  | fifoWaitEmpty d =>
    obtain ⟨h1, h2⟩ := not_or.1 (of_decide_eq_false h)
    cases hx
    exact unlessPoisoned_hazard (waitEmptyPass_hazard d s h1 h2)
  | fifoWaitOffset e d =>
    have hpass : (waitOffsetPass (operandOr s.woff e) d s).ghost.haz.has x = s.ghost.haz.has x := by
      rw [waitOffsetPass_ghost]
      exact doRead_hazard fun v => ghostRead_rp_other c _ v _ x (of_decide_eq_false h)
    exact checked_hazard hx (unlessPoisoned_hazard hpass)

/-- Settles O46: no hook clears a flag, and each sets only its own. -/
theorem hazardsAreSticky : Obligations.HazardsAreSticky :=
  ⟨fun _ _ _ hi hst h => step_keeps_hazard hi hst h, fun _ _ _ _ hi hx h => exec_other_hazard hi hx h⟩

end Sys2Proof.Machine
end

section
/-! PROOFS. No operation reads the ghost state, nor what the consumer has read: every operation and every step keeps the
relation `State.Alike` (10_state.md R38). -/

namespace Sys2Proof.Machine

section

variable {Q : Prop} {s s' : State}

theorem returnStatus_alike {p p' : Status × State} (h : p'.1 = p.1 ∧ p.2.Alike Q p'.2) :
    (returnStatus p).Alike Q (returnStatus p') := by
  unfold returnStatus
  rw [h.1]
  exact h.2.complete _ _

theorem returnRead_alike {p p' : (Status × Word) × State} (h : p'.1 = p.1 ∧ p.2.Alike Q p'.2) :
    (returnRead p).Alike Q (returnRead p') := by
  unfold returnRead
  rw [h.1]
  exact h.2.complete _ _

theorem readOp_alike (n : Nat) (a : Word) (h : s.Alike Q s') :
    ∃ t t', readOp n a s = .next t ∧ readOp n a s' = .next t' ∧ t.Alike Q t' :=
  checked_alike _ h (returnRead_alike (doRead_alike _ _ h))

theorem writeOp_alike (n : Nat) (a d : Word) (h : s.Alike Q s') :
    ∃ t t', writeOp n a d s = .next t ∧ writeOp n a d s' = .next t' ∧ t.Alike Q t' :=
  checked_alike _ h (returnStatus_alike (doWrite_alike _ _ _ h))

/-- R160: `DLAPPEND` as its overflow record and its access. -/
theorem execDlappend_eq (off w : Word) (s : State) :
    execDlappend off w s = checked (addrFault (dlAddr s.cfg off.toNat) 4) s
      ((dlWrite off w s).2.complete (dlWrite off w s).1 (.offset (off.toNat + 4))) := rfl

theorem dlChecked_alike (off : Word) (h : s.Alike Q s') : (dlChecked off s).Alike Q (dlChecked off s') := by
  have hg : dlOverflowCheck s'.cfg off.toNat s'.ghost = dlOverflowCheck s.cfg off.toNat s'.ghost := by rw [h.cfg]
  unfold dlChecked
  rw [hg]
  exact h.ghost (dlOverflowCheck s.cfg off.toNat) fun g x hx => dlOverflowCheck_haz _ _ _ _ hx

theorem dlWrite_alike (off w : Word) (h : s.Alike Q s') :
    (dlWrite off w s').1 = (dlWrite off w s).1 ∧ (dlWrite off w s).2.Alike Q (dlWrite off w s').2 := by
  unfold dlWrite
  rw [h.cfg]
  exact doWrite_alike _ _ _ (dlChecked_alike off h)

/-- R38: every operation ends in a next state, and from alike states in alike ones. -/
theorem exec_alike (i : Instr) (h : s.Alike Q s') : ∃ t t', exec i s = .next t ∧ exec i s' = .next t' ∧ t.Alike Q t' := by
  cases i with
  | rd8 a => exact readOp_alike 1 a h
  | rd16 a => exact readOp_alike 2 a h
  | rd32 a => exact readOp_alike 4 a h
  | wr8 a d => exact writeOp_alike 1 a d h
  | wr16 a d => exact writeOp_alike 2 a d h
  | wr32 a d => exact writeOp_alike 4 a d h
  | hostcmd c => exact ⟨_, _, rfl, rfl, returnStatus_alike (doCommand_alike _ h)⟩
  | errq =>
    refine ⟨_, _, rfl, rfl, ?_⟩
    rw [h.err]
    exact h.complete _ _
  | errclr => exact ⟨_, _, rfl, rfl, h.clearErr.complete _ _⟩
  | dlappend off w =>
    change ∃ t t', execDlappend off w s = .next t ∧ execDlappend off w s' = .next t' ∧ _
    rw [execDlappend_eq, execDlappend_eq, h.cfg, (dlWrite_alike off w h).1]
    exact checked_alike _ h ((dlWrite_alike off w h).2.complete _ _)
  | fifoWord off w =>
    have ha := appendWord_alike (startOffset off s) w h
    change ∃ t t', execFifoWord off w s = .next t ∧ execFifoWord off w s' = .next t' ∧ _
    unfold execFifoWord
    dsimp only
    rw [startOffset_alike off h, h.cfg, ha.1]
    exact ⟨_, _, rfl, rfl, returnAppend_alike _ _ ha.2⟩
  | fifoCmd off c ws => exact ⟨_, _, rfl, rfl, appendAll_alike off _ h⟩
  | fifoText off x y f o t =>
    change ∃ u u', execFifoText off x y f o t s = .next u ∧ execFifoText off x y f o t s' = .next u' ∧ _
    unfold execFifoText
    rw [h.cfg]
    exact checked_alike _ h (appendAll_alike off _ h)
  | fifoPublish v =>
    change ∃ t t', execFifoPublish v s = .next t ∧ execFifoPublish v s' = .next t' ∧ _
    unfold execFifoPublish
    rw [h.cfg, h.woff]
    exact checked_alike _ h (returnStatus_alike (doWrite_alike _ _ _ h))
  | fifoWaitEmpty d => exact ⟨_, _, rfl, rfl, unlessPoisoned_alike h (waitEmptyPass_alike d h)⟩
  | fifoWaitOffset e d =>
    change ∃ t t', execFifoWaitOffset e d s = .next t ∧ execFifoWaitOffset e d s' = .next t' ∧ _
    unfold execFifoWaitOffset
    rw [h.cfg, h.woff]
    exact checked_alike _ h (unlessPoisoned_alike h (waitOffsetPass_alike _ d h))

/-- R205: a step that goes on takes no request, or decodes the one on the port and runs it; and the block is not halted. -/
theorem step_next_cases {t : State} (h : step s = .next t) :
    s.fault = none ∧ (fetch s = none ∧ t = s.between ∨
      ∃ r i u, fetch s = some r ∧ decode r = .ok i ∧ exec i s = .next u ∧ t = u.between) := by
  unfold step at h
  cases hr : fetch s with
  | none =>
    cases hf : s.fault <;> simp only [hr, idle, hf, reduceCtorEq, Host.Outcome.next.injEq] at h
    exact ⟨rfl, .inl ⟨rfl, h.symm⟩⟩
  | some r =>
    cases hd : decode r with
    | error e => simp [hr, hd] at h
    | ok i =>
      cases hf : s.fault with
      | some f => simp [hr, hd, hf] at h
      | none =>
        cases hx : exec i s <;> simp only [hr, hd, hf, hx, thenConsumer, reduceCtorEq, Host.Outcome.next.injEq] at h
        exact ⟨rfl, .inr ⟨r, i, _, rfl, hd, hx, h.symm⟩⟩

/-- R38: a step that goes on goes on from any alike state, and ends in an alike one. -/
theorem step_alike {t : State} (h : s.Alike Q s') (hst : step s = .next t) : ∃ t', step s' = .next t' ∧ t.Alike Q t' := by
  obtain ⟨hf, ⟨hr, rfl⟩ | ⟨r, i, u, hr, hd, hx, rfl⟩⟩ := step_next_cases hst
  · refine ⟨s'.between, ?_, h.between⟩
    rw [step, show fetch s' = none by rw [fetch, h.port]; exact hr, idle, h.fault, hf]
  · obtain ⟨v, u', hv, hu', ha⟩ := exec_alike i h
    cases hx.symm.trans hv
    refine ⟨u'.between, ?_, ha.between⟩
    rw [step_of_decode (show s'.port.pending.head? = some r by rw [h.port]; exact hr) hd (h.fault.trans hf), hu',
      thenConsumer_next]

end

/-- Settles O47: two states that differ in what the block does not see are alike, and operations and steps keep that. -/
theorem ghostStateIsNeverRead : Obligations.GhostStateIsNeverRead := by
  refine ⟨fun i s g rd => ?_, fun s t g rd hst => ?_⟩
  · obtain ⟨t, t', hx, hx', ha⟩ := exec_alike i (s.alike_withUnseen g rd)
    refine ⟨t, t'.ghost, t'.env.reads, hx, ?_, ha.reads⟩
    rw [hx', ha.same]
    rfl
  · obtain ⟨t', hst', ha⟩ := step_alike (s.alike_withUnseen g rd) hst
    refine ⟨t'.ghost, t'.env.reads, ?_⟩
    rw [hst', ha.same]
    rfl

end Sys2Proof.Machine
end

section
/-! PROOFS. The consumer: one step of it, and how far RP moves over an operation (20_memory.md R80, R88, R89). -/

namespace Sys2Proof.Machine

/-! ### One step -/

/-- The bytes a step of the consumer reads at the offsets it passes (R89, R83). -/
def consumed (cfg : Cfg) (loose : Bool) (m : Memory) (offs : List Nat) (rd : ConsumerReads) : List (Nat × Option Byte) :=
  if loose then drawnBytes rd 0 offs else fifoBytes cfg m offs

theorem consumed_fst (cfg : Cfg) (loose : Bool) (m : Memory) (offs : List Nat) (rd : ConsumerReads) :
    (consumed cfg loose m offs rd).map Prod.fst = offs := by
  cases loose with
  | false => exact fifoBytes_fst cfg m offs
  | true => exact drawnBytes_fst rd 0 offs

theorem take_log (cfg : Cfg) (loose : Bool) (m : Memory) (offs : List Nat) (rd : ConsumerReads) :
    (rd.take cfg loose m offs).log = rd.log ++ consumed cfg loose m offs rd := by
  cases loose <;> rfl

/-- R89: before a hazard the consumer reads the device's bytes and draws none. -/
theorem mem_consumed_of_strict {cfg : Cfg} {m : Memory} {offs : List Nat} {rd : ConsumerReads} {o : Nat} {b : Option Byte}
    (h : (o, b) ∈ consumed cfg false m offs rd) : b = m.read (cfg.fifoBase + o) := by
  obtain ⟨o', -, heq⟩ := List.mem_map.1 h
  cases heq
  rfl

/-- R83, R232: after a hazard it reads the next of its draws. -/
theorem consumed_snd_of_loose {cfg : Cfg} {m : Memory} {offs : List Nat} {rd : ConsumerReads} {bs ds : List Byte}
    (hl : bs.length = offs.length) (h : rd.draws = bs ++ ds) :
    (consumed cfg true m offs rd).map Prod.snd = bs.map some ∧ (rd.take cfg true m offs).draws = ds := by
  refine ⟨drawnBytes_snd rd offs [] bs ds (by simpa using h) hl, ?_⟩
  change rd.draws.drop offs.length = ds
  rw [h, ← hl, List.drop_left]

/-- R88: a step that is not enabled. -/
theorem consumerStep_disabled {cfg : Cfg} {loose : Bool} {n r w : Nat} {e : Env} (hr : e.mem.readLE cfg.regRP 4 = some r)
    (hw : e.mem.readLE cfg.regWP 4 = some w) (h : r = w ∨ cfg.fifoCap ≤ w ∨ n = 0 ∨ dist cfg r w < n) :
    consumerStep cfg loose n e = e := by
  simp only [consumerStep, hr, hw]
  exact if_neg (by omega)

/-- R88: a step that is enabled. -/
theorem consumerStep_enabled {cfg : Cfg} {loose : Bool} {n r w : Nat} {e : Env} (hr : e.mem.readLE cfg.regRP 4 = some r)
    (hw : e.mem.readLE cfg.regWP 4 = some w) (hne : r ≠ w) (hwc : w < cfg.fifoCap) (hn : 0 < n) (hnd : n ≤ dist cfg r w) :
    consumerStep cfg loose n e =
      { e with
        mem := e.mem.writeBytes cfg.regRP (leBytes 4 (red cfg (r + n)))
        reads := e.reads.take cfg loose e.mem (ringOffsets cfg r (red cfg (r + n))) } := by
  simp only [consumerStep, hr, hw]
  exact if_pos ⟨hne, hwc, hn, hnd⟩

/-- Settles O53: an enabled step of `n` passes exactly the `n` offsets from RP on, all of them before WP. -/
theorem consumerStepIsBounded : Obligations.ConsumerStepIsBounded := by
  intro cfg loose n r w e hcfg hr hw
  have c := cfgFacts hcfg
  have hcap := c.cap_pos
  refine ⟨consumerStep_disabled hr hw, fun hne hwc hn hnd => ?_⟩
  have hdist : dist cfg r (red cfg (r + n)) = n :=
    dist_red_add hcap r n (lt_of_le_of_lt hnd (dist_lt hcap r w))
  have hfst := consumed_fst cfg loose e.mem (ringOffsets cfg r (red cfg (r + n))) e.reads
  refine ⟨_, _, consumed cfg loose e.mem (ringOffsets cfg r (red cfg (r + n))) e.reads,
    consumerStep_enabled hr hw hne hwc hn hnd, ?_, hdist, fun x hx => ?_, take_log _ _ _ _ _, ?_, fun o ho => ?_,
    fun o ho => ?_, fun hloose => ?_, fun hloose bs ds hbs hds => ?_⟩
  · exact Memory.readLE_writeBytes _ _ _ _ c.rp_in (c.offset_lt_word (red_lt hcap _))
  · simp only [onRP, within] at hx
    exact Memory.read_writeBytes_of_not_mem _ _ _ _ (by rw [leBytes_length]; omega)
  · rw [hfst, ringOffsets, hdist]
  · rw [hfst, mem_ringOffsets hcap]
    exact ⟨fun h => ⟨ho, h⟩, fun h => h.2⟩
  · rw [hfst, mem_ringOffsets hcap, inRing, decide_eq_true_eq, hdist] at ho
    rw [inRing, decide_eq_true_eq]
    exact ⟨lt_of_lt_of_le ho.2 hnd, ho.1⟩
  · subst hloose
    exact ⟨fun o b h => mem_consumed_of_strict h, rfl⟩
  · subst hloose
    exact consumed_snd_of_loose (by rw [ringOffsets_length, hdist, hbs]) hds

/-! ### Over an operation -/

/-- R88: RP, found at `r` with WP at `w`, now holds `v`: it has moved forward by at most the distance between them. -/
def RpForward (cfg : Cfg) (r w : Nat) (v : Option Nat) : Prop :=
  ∃ n ≤ dist cfg r w, (n = 0 → v = some r) ∧ (0 < n → w < cfg.fifoCap ∧ r ≠ w ∧ v = some (red cfg (r + n)))

theorem RpForward.still (cfg : Cfg) (r w : Nat) : RpForward cfg r w (some r) :=
  ⟨0, Nat.zero_le _, fun _ => rfl, fun h => absurd h (Nat.lt_irrefl 0)⟩

theorem RpForward.of_moves {cfg : Cfg} {r w : Nat} {v : Option Nat}
    (h : ∃ n, n ≤ dist cfg r w ∧
      (v = some r ∧ n = 0 ∨ r ≠ w ∧ w < cfg.fifoCap ∧ 0 < n ∧ v = some (red cfg (r + n)))) :
    RpForward cfg r w v := by
  obtain ⟨n, hn, ⟨hv, rfl⟩ | ⟨hne, hwc, hpos, hv⟩⟩ := h
  · exact hv ▸ .still cfg r w
  · exact ⟨n, hn, fun h => absurd h (by omega), fun _ => ⟨hwc, hne, hv⟩⟩

theorem OneWrite.mayStore_of_within {s : State} {i : Instr} {a n v : Nat} {val : Value} (h : OneWrite s i a n v val) {x : Nat}
    (hx : within a n x) : mayStore i s x := by
  cases h with
  | write h => cases h <;> exact hx
  | dlappend off w => exact hx
  | publish v => exact hx

/-- Only an operation of one write may store to WP: an append stores inside the window. -/
theorem oneWrite_or_not_onWP (i : Instr) {s : State} (c : CfgFacts s.cfg) :
    (∃ a n v val, OneWrite s i a n v val) ∨ ∀ x, mayStore i s x → ¬ onWP s.cfg x := by
  cases i with
  | wr8 a d => exact .inl ⟨_, _, _, _, .write (.wr8 a d)⟩
  | wr16 a d => exact .inl ⟨_, _, _, _, .write (.wr16 a d)⟩
  | wr32 a d => exact .inl ⟨_, _, _, _, .write (.wr32 a d)⟩
  | dlappend off w => exact .inl ⟨_, _, _, _, .dlappend off w⟩
  | fifoPublish v => exact .inl ⟨_, _, _, _, .publish v⟩
  | fifoWord off w => exact .inr fun x hx => (window_not_ptr c (onAppend_window c hx)).2
  | fifoCmd off op ws => exact .inr fun x hx => (window_not_ptr c (onAppend_window c hx)).2
  | fifoText off px py f o t => exact .inr fun x hx => (window_not_ptr c (onAppend_window c hx)).2
  | rd8 a => exact .inr fun x hx => hx.elim
  | rd16 a => exact .inr fun x hx => hx.elim
  | rd32 a => exact .inr fun x hx => hx.elim
  | hostcmd code => exact .inr fun x hx => hx.elim
  | errq => exact .inr fun x hx => hx.elim
  | errclr => exact .inr fun x hx => hx.elim
  | fifoWaitEmpty d => exact .inr fun x hx => hx.elim
  | fifoWaitOffset e d => exact .inr fun x hx => hx.elim

/-- One write that does not touch RP: the consumer moves before the bytes are committed, so by the WP found. -/
theorem exec_oneWrite_rp {i : Instr} {a n v r w : Nat} {val : Value} {s t : State} (h : OneWrite s i a n v val)
    (hr : raisedBy i s = none) (hi : s.Inv) (hrp : s.rp = some r) (hwp : s.wp = some w) (hx : exec i s = .next t)
    (hno : ∀ x, within a n x → ¬ onRP s.cfg x) : RpForward s.cfg r w (t.env.mem.readLE s.cfg.regRP 4) := by
  have c := cfgFacts hi.configured
  obtain ⟨hn, hb⟩ := h.bounds c hr
  obtain ⟨g, hg⟩ := exec_oneWrite h hr
  cases hg.symm.trans hx
  obtain ⟨m, j, hd, hj, hmem⟩ := doWrite_mem a n v { s with ghost := g } hi.tx_closed (by omega)
  rw [State.complete_env, hmem, Memory.readLE_congr _ m]
  · exact .of_moves (hd.forward c r w hrp hwp)
  · intro x hle hlt
    refine Memory.read_writeBytes_of_not_mem _ _ _ _ ?_
    by_contra hmid
    rw [List.length_take, leBytes_length] at hmid
    exact hno x ⟨by omega, by omega⟩ ⟨hle, hlt⟩

/-- Settles O54: an operation that stores to neither pointer moves RP as its accesses do; one that stores to WP makes a single
write, after the consumer's last turn. -/
theorem rpMovesForwardOnly : Obligations.RpMovesForwardOnly := by
  intro i s t r w hi hrp hwp hx
  have c := cfgFacts hi.configured
  have hstill : RpForward s.cfg r w s.rp := by
    rw [hrp]
    exact .still s.cfg r w
  rw [State.rp, State.wp, exec_cfg hi hx]
  rcases exec_quiet_or_ends hi hx with hq | ⟨s1, hr, ha, hends⟩
  · rw [hq.env]
    exact ⟨fun _ => hstill, fun _ => hwp⟩
  · obtain ⟨-, -, -, -, hmem, -⟩ := hends.same
    refine ⟨fun hno => ?_, fun hno => by rw [hmem]; exact (ha.mem.wp c hno).trans hwp⟩
    rcases oneWrite_or_not_onWP i c with ⟨a, n, v, val, h⟩ | hnw
    · exact exec_oneWrite_rp h hr hi hrp hwp hx fun x hx => hno x (h.mayStore_of_within hx)
    · rw [hmem]
      exact RpForward.of_moves (ha.mem.forward c (fun x hx => ⟨hno x hx, hnw x hx⟩) r w hrp hwp)

end Sys2Proof.Machine
end

section
/-! PROOFS. The waits: one pass of each, whatever the transport answers; a pass on an empty FIFO; and the deadline
(43_fifo_sync.md R190 to R195; 70_reset_and_hazards.md R233). -/

namespace Sys2Proof.Machine

/-! ### One pass -/

theorem pollPtr_cut (reg : Nat) (s : State) (hi : s.Inv) (he : s.err = .ok) :
    ∃ out l, ReadCut reg 4 out l s (pollPtr reg s) := by
  unfold pollPtr
  rw [(cfgFacts hi.configured).ptrBytes_eq]
  exact doRead_cut reg 4 s hi.tx_closed he

/-- R191: the bound of a wait has expired at the next reading of the clock. -/
def Expired (d : Option Nat) (s : State) : Prop :=
  (s.env.peekTick 0).cancel = true ∨ ∃ t, d = some t ∧ t ≤ s.env.clock + (s.env.peekTick 0).tick

/-- How a pass of a wait ends from the state `s1` after its polls: with the error of the last poll, with `OK` where they met the
condition `met`, or by the test of the bound. -/
structure PassDone (d : Option Nat) (met : Prop) (s s1 t : State) : Prop where
  acts : Acts (fun _ => False) s s1
  err : t.err = s1.err
  ghost : t.ghost = s1.ghost
  woff : t.woff = s.woff
  mem : MemKept s.cfg nowhere s.env.mem t.env.mem
  wire : t.env.wire = s1.env.wire
  failed : ∀ r, s1.err = .failed r → s.Returns t (.err r) .absent ∧ t.env.clock = s.env.clock
  returns : s1.err = .ok → met → s.Returns t .ok .absent ∧ t.env.clock = s.env.clock
  tests : s1.err = .ok → ¬ met → t.env.clock = s.env.clock + (s.env.peekTick 0).tick ∧
    (Expired d s → s.Returns t .timeout .absent) ∧ (¬ Expired d s → s.Polls t)
  ticks : s1.err = .ok → ¬ met → ∀ k, t.env.peekTick k = s.env.peekTick (k + 1)

theorem PassDone.of_failed {d : Option Nat} {met : Prop} {s s1 : State} {r : Reason} (hA : Acts (fun _ => False) s s1)
    (h : s1.err = .failed r) : PassDone d met s s1 (s1.complete (.err r) .absent) := by
  have hne : ¬ s1.err = .ok := by simp [h]
  refine ⟨hA, rfl, rfl, hA.woff, hA.mem.memKept, rfl, fun r' h' => ?_, fun h' => absurd h' hne, fun h' => absurd h' hne,
    fun h' => absurd h' hne⟩
  cases h.symm.trans h'
  exact ⟨hA.returns _ _, hA.kept.clock⟩

theorem PassDone.of_met {d : Option Nat} {met : Prop} {s s1 : State} (hA : Acts (fun _ => False) s s1) (h : s1.err = .ok)
    (hm : met) : PassDone d met s s1 (s1.complete .ok .absent) :=
  ⟨hA, rfl, rfl, hA.woff, hA.mem.memKept, rfl, fun r h' => absurd (h.symm.trans h') (by simp),
    fun _ _ => ⟨hA.returns _ _, hA.kept.clock⟩, fun _ hn => absurd hm hn, fun _ hn => absurd hm hn⟩

theorem PassDone.of_unmet {d : Option Nat} {met : Prop} {s s1 : State} (hA : Acts (fun _ => False) s s1) (h : s1.err = .ok)
    (hm : ¬ met) : PassDone d met s s1 (pollAgain d s1) := by
  obtain ⟨herr, hghost, hwoff, hmem, hwire, hclock, hret, hpolls⟩ := pollAgain_spec d hA h
  exact ⟨hA, herr.trans h.symm, hghost, hwoff, by rw [hmem]; exact hA.mem.memKept, hwire,
    fun r h' => absurd (h.symm.trans h') (by simp), fun _ hm' => absurd hm' hm, fun _ _ => ⟨hclock, hret, hpolls⟩,
    fun _ _ k => by
      rw [pollAgain_env, Env.peekTick_popTick]
      exact Env.peekTick_congr hA.kept.ticks hA.kept.tickNo _⟩

/-- R193: the pass of `FIFO_WAIT_OFFSET` ends by its one poll. -/
theorem waitOffsetPass_done (v : Nat) (d : Option Nat) (s : State) (hi : s.Inv) (he : s.err = .ok) :
    ∃ out l, ReadCut s.cfg.regRP 4 out l s (pollPtr s.cfg.regRP s) ∧
      PassDone d (∃ got, out = .ok got ∧ fromLE got = v) s (pollPtr s.cfg.regRP s).2 (waitOffsetPass v d s) := by
  obtain ⟨out, l, hcut⟩ := pollPtr_cut s.cfg.regRP s hi he
  refine ⟨out, l, hcut, ?_⟩
  have hA := hcut.acts
  unfold waitOffsetPass
  dsimp only
  cases out with
  | error r =>
    obtain ⟨hval, herr, -⟩ := hcut.error r rfl
    rw [hval]
    exact .of_failed hA herr
  | ok got =>
    obtain ⟨hval, herr, -⟩ := hcut.ok got rfl
    rw [hval]
    dsimp only
    rw [toNat_ofNat_fromLE hcut.trace.length_eq.le]
    split_ifs with hm
    · exact .of_met hA herr ⟨got, rfl, hm⟩
    · exact .of_unmet hA herr fun ⟨got', hgot, hm'⟩ => hm (by cases hgot; exact hm')

theorem ofNat_fromLE_inj {as bs : List Byte} (ha : as.length = 4) (hb : bs.length = 4) :
    BitVec.ofNat 32 (fromLE as) = BitVec.ofNat 32 (fromLE bs) ↔ as = bs := by
  refine ⟨fun h => ?_, fun h => by rw [h]⟩
  have hv := congrArg BitVec.toNat h
  rw [toNat_ofNat_fromLE ha.le, toNat_ofNat_fromLE hb.le] at hv
  rw [← leBytes_fromLE_of_length ha, ← leBytes_fromLE_of_length hb, hv]

/-- R192: the pass of `FIFO_WAIT_EMPTY` ends by its first poll, if that one fails, or by its second. -/
inductive WaitEmptyDone (d : Option Nat) (s t : State) : Prop
  | first (r : Reason) (l1 : List TxCall) (p : (Status × Word) × State) : ReadCut s.cfg.regRP 4 (.error r) l1 s p →
      PassDone d False s p.2 t → WaitEmptyDone d s t
  | second (got1 : List Byte) (out2 : Except Reason (List Byte)) (l1 l2 : List TxCall) (p q : (Status × Word) × State) :
      ReadCut s.cfg.regRP 4 (.ok got1) l1 s p → ReadCut s.cfg.regWP 4 out2 l2 p.2 q →
      PassDone d (out2 = .ok got1) s q.2 t → WaitEmptyDone d s t

theorem waitEmptyPass_done (d : Option Nat) (s : State) (hi : s.Inv) (he : s.err = .ok) :
    WaitEmptyDone d s (waitEmptyPass d s) := by
  obtain ⟨out, l, hcut⟩ := pollPtr_cut s.cfg.regRP s hi he
  unfold waitEmptyPass
  generalize pollPtr s.cfg.regRP s = p at hcut
  have hA := hcut.acts
  dsimp only
  cases out with
  | error r =>
    obtain ⟨hval, herr, -⟩ := hcut.error r rfl
    rw [hval]
    exact .first r l p hcut (.of_failed hA herr)
  | ok got =>
    obtain ⟨hval, herr, -⟩ := hcut.ok got rfl
    rw [hval, hA.cfg]
    obtain ⟨out2, l2, hcut2⟩ := pollPtr_cut s.cfg.regWP p.2 (hA.inv hi) herr
    generalize pollPtr s.cfg.regWP p.2 = q at hcut2
    have hB := hA.trans hcut2.acts
    dsimp only
    refine .second got out2 l l2 p q hcut hcut2 ?_
    cases out2 with
    | error r =>
      obtain ⟨hval2, herr2, -⟩ := hcut2.error r rfl
      rw [hval2]
      exact .of_failed hB herr2
    | ok got2 =>
      obtain ⟨hval2, herr2, -⟩ := hcut2.ok got2 rfl
      rw [hval2]
      dsimp only
      split_ifs with hm
      · rw [ofNat_fromLE_inj hcut.trace.length_eq hcut2.trace.length_eq] at hm
        exact .of_met hB herr2 (by rw [hm])
      · exact .of_unmet hB herr2 fun h => hm (by cases h; rfl)

end Sys2Proof.Machine

namespace Sys2Proof

open Machine

/-! ### The two statements on one pass -/

/-- Settles O48: the poll decides between the error, `OK` and the test of the bound. -/
theorem waitOffsetPass : Obligations.WaitOffsetPass := by
  intro e d s hi he hv
  have c := cfgFacts hi.configured
  obtain ⟨out, l, hcut, h⟩ := waitOffsetPass_done (operandOr s.woff e) d s hi he
  refine ⟨_, out, l, exec_waitOffset e d he hv, hcut.trace, h.wire.trans hcut.wire, fun r hr => ?_, fun got hgot => ?_,
    h.woff, h.mem⟩
  · obtain ⟨-, herr, -⟩ := hcut.error r hr
    obtain ⟨hret, hclock⟩ := h.failed r herr
    exact ⟨hret, h.err.trans herr, hclock⟩
  · obtain ⟨-, herr, hghost⟩ := hcut.ok got hgot
    refine ⟨h.err.trans herr, h.ghost.trans hghost, fun hm => h.returns herr ⟨got, hgot, hm⟩, fun hm => h.tests herr ?_⟩
    rintro ⟨got', hgot', hm'⟩
    cases hgot.symm.trans hgot'
    exact hm hm'

/-- Settles O49: the first poll that fails decides, or the comparison of the two values. -/
theorem waitEmptyPass : Obligations.WaitEmptyPass := by
  intro d s hi he
  have hx := exec_waitEmpty d he
  cases waitEmptyPass_done d s hi he with
  | first r l1 p hcut h =>
    obtain ⟨-, herr, -⟩ := hcut.error r rfl
    refine ⟨_, .error r, .error r, l1, l1, hx, hcut.trace, fun r' hr => ?_, fun got hgot => (by cases hgot), h.woff, h.mem⟩
    cases hr
    exact ⟨h.wire.trans hcut.wire, (h.failed r herr).1, h.err.trans herr⟩
  | second got1 out2 l1 l2 p q hcut hcut2 h =>
    have hcfg := hcut.acts.cfg
    obtain ⟨-, -, hghost⟩ := hcut.ok got1 rfl
    refine ⟨_, .ok got1, out2, l1, l2, hx, hcut.trace, fun r hr => (by cases hr), fun got hgot => ?_, h.woff, h.mem⟩
    cases hgot
    refine ⟨hcfg ▸ hcut2.trace, by rw [h.wire, hcut2.wire, hcut.wire], fun r hr => ?_, fun got2 hgot2 => ?_⟩
    · obtain ⟨-, herr2, -⟩ := hcut2.error r hr
      exact ⟨(h.failed r herr2).1, h.err.trans herr2⟩
    · obtain ⟨-, herr2, hghost2⟩ := hcut2.ok got2 hgot2
      rw [hcfg, hghost] at hghost2
      refine ⟨h.err.trans herr2, h.ghost.trans hghost2, fun hm => h.returns herr2 (by rw [hgot2, hm]),
        fun hm => h.tests herr2 fun h' => hm ?_⟩
      cases hgot2.symm.trans h'
      rfl

end Sys2Proof
end

section
/-! PROOFS. Waits that return: at once on an empty FIFO, and by their deadline (43_fifo_sync.md R191 to R195). -/

namespace Sys2Proof.Machine

/-! ### An empty FIFO -/

/-- Both pointer registers hold `w`, and nothing stops the block from polling them. -/
structure Drained (w n : Nat) (s : State) : Prop where
  atomic : s.cfg.atomicPtrRead = true
  rp : s.rp = some w
  wp : s.wp = some w
  ready : s.Ready n

/-- A poll that answers `w` and leaves both registers at it. -/
structure DrainedPoll (reg w n : Nat) (s s1 : State) : Prop where
  polled : pollPtr reg s = ((.ok, BitVec.ofNat 32 w), s1)
  acts : Acts (fun _ => False) s s1
  wire : s1.env.wire = s.env.wire ++
    [.write (readRequestBytes s.cfg (BitVec.ofNat 22 reg)) none, .read 4 (leBytes 4 w) none, .flush none]
  drained : Drained w n s1

theorem Drained.word_lt {w n : Nat} {s : State} (h : Drained w n s) : w < 256 ^ 4 :=
  ((Memory.readLE_eq_some_iff _ _ _ _).1 h.wp).1

/-- On an empty FIFO the consumer does not move, so a poll of either register answers its value. -/
theorem Drained.poll {reg w n : Nat} {s : State} (h : Drained w (n + 3) s) (hreg : reg = s.cfg.regRP ∨ reg = s.cfg.regWP) :
    ∃ s1, DrainedPoll reg w n s s1 := by
  obtain ⟨hi, he, hworks⟩ := h.ready
  have c := cfgFacts hi.configured
  have hin : reg < addrLimit := by
    have hrp := c.rp_in
    have hwp := c.wp_in
    omega
  have hA := pollPtr_acts reg s hi.tx_closed
  obtain ⟨m1, got, hd1, -, hp, hok, hd2, hwire, hcalls, hval⟩ :=
    pollPtr_works reg s hi he h.atomic hin (Env.works_fewer hworks (by omega))
  have hrp1 : m1.readLE s.cfg.regRP 4 = some w := hd1.still c h.rp h.wp
  have hwp1 : m1.readLE s.cfg.regWP 4 = some w := (hd1.wp c).trans h.wp
  have hgot : got = leBytes 4 w := by
    rcases hreg with rfl | rfl
    · exact hval w hrp1
    · exact hval w hwp1
  rw [hgot, fromLE_leBytes, Nat.mod_eq_of_lt h.word_lt] at hp
  rw [hgot] at hwire
  refine ⟨_, hp, hA, hwire, by rw [hA.cfg]; exact h.atomic, ?_, ?_, hA.inv hi, hok, Env.works_shift hworks hcalls le_rfl⟩
  · rw [State.rp, hA.cfg]
    exact hd2.still c hrp1 hwp1
  · rw [State.wp, hA.cfg]
    exact (hd2.wp c).trans hwp1

/-- Settles O50: each poll answers the one value both registers keep. -/
theorem waitsReturnWhenDrained : Obligations.WaitsReturnWhenDrained := by
  intro d s w hat hrp hwp
  refine ⟨fun hready => ?_, fun e he hw hready => ?_⟩
  · have h : Drained w (3 + 3) s := ⟨hat, hrp, hwp, hready⟩
    obtain ⟨s1, hp⟩ := h.poll (.inl rfl)
    obtain ⟨s2, hq⟩ := Drained.poll (n := 0) hp.drained (.inr rfl)
    have hA := hp.acts.trans hq.acts
    have hpass : waitEmptyPass d s = s2.complete .ok .absent := by
      simp only [waitEmptyPass, hp.polled, hq.polled, if_true]
    have hwire := hq.wire
    rw [hp.acts.cfg, hp.wire, List.append_assoc] at hwire
    exact ⟨_, (exec_waitEmpty d hready.2.1).trans (next_congr hpass), hA.returns _ _, hwire, hq.drained.ready.2.1, hA.woff,
      hA.mem.memKept, hq.drained.rp, hA.kept.clock⟩
  · have h : Drained w (0 + 3) s := ⟨hat, hrp, hwp, hready⟩
    obtain ⟨s1, hp⟩ := h.poll (.inl rfl)
    have hA := hp.acts
    have hpass : waitOffsetPass w d s = s1.complete .ok .absent := by
      simp only [waitOffsetPass, hp.polled, word_toNat_ofNat h.word_lt, if_true]
    have hx := exec_waitOffset e d hready.2.1 (by rw [he]; exact hw)
    rw [he] at hx
    exact ⟨_, hx.trans (next_congr hpass), hA.returns _ _, hp.wire, hp.drained.ready.2.1, hA.woff, hA.mem.memKept,
      hp.drained.rp, hA.kept.clock⟩

/-! ### A deadline -/

/-- R191: what the clock reads after its next reading and `k` more. -/
theorem Env.clockAfter_succ {e e' : Env} (hc : e'.clock = e.clock + (e.peekTick 0).tick)
    (ht : ∀ k, e'.peekTick k = e.peekTick (k + 1)) (k : Nat) : e'.clockAfter k = e.clockAfter (k + 1) := by
  induction k with
  | zero => exact hc
  | succ k ih =>
    change e'.clockAfter k + (e'.peekTick k).tick = e.clockAfter (k + 1) + (e.peekTick (k + 1)).tick
    rw [ih, ht]

/-- A clock that advances at every reading. -/
theorem Env.clockRuns.add_le {e : Env} {n : Nat} (h : e.clockRuns n) : e.clock + n ≤ e.clockAfter n := by
  induction n with
  | zero => exact le_rfl
  | succ n ih =>
    have hle := ih fun k hk => h k (by omega)
    have hpos := h n (by omega)
    rw [Env.clockAfter]
    omega

/-- The fault check of an operation looks at `CFG` and `WOFF`. -/
theorem raisedBy_congr {s t : State} (hc : t.cfg = s.cfg) (hw : t.woff = s.woff) (i : Instr) :
    raisedBy i t = raisedBy i s := by
  cases i <;> simp only [raisedBy, hc, hw]

/-- The port offers the wait `i` with the deadline `d`, which does not fault; the block is not halted. -/
structure Timed (i : Instr) (d : Nat) (s : State) : Prop where
  offered : ∃ r, s.port.pending.head? = some r ∧ decode r = .ok i
  waits : i = .fifoWaitEmpty (some d) ∨ ∃ e, i = .fifoWaitOffset e (some d)
  running : s.fault = none
  passes : raisedBy i s = none
  inv : s.Inv

/-- A pass of a wait with the deadline `d` that goes on: the clock has been read, and the deadline is still ahead. -/
structure PassGoesOn (d : Nat) (s t : State) : Prop where
  polls : s.Polls t
  woff : t.woff = s.woff
  clock : t.env.clock = s.env.clock + (s.env.peekTick 0).tick
  ahead : t.env.clock < d
  ticks : ∀ k, t.env.peekTick k = s.env.peekTick (k + 1)

theorem PassDone.returns_or_goesOn {d : Nat} {met : Prop} {s s1 t : State} (h : PassDone (some d) met s s1 t) :
    t.reqIdx = s.reqIdx + 1 ∨ PassGoesOn d s t := by
  cases herr : s1.err with
  | failed r => exact .inl (h.failed r herr).1.reqIdx
  | ok =>
    by_cases hm : met
    · exact .inl (h.returns herr hm).1.reqIdx
    · obtain ⟨hclock, hret, hpolls⟩ := h.tests herr hm
      by_cases hx : Expired (some d) s
      · exact .inl (hret hx).reqIdx
      · refine .inr ⟨hpolls hx, h.woff, hclock, ?_, h.ticks herr hm⟩
        rw [hclock]
        exact Nat.lt_of_not_le fun hle => hx (.inr ⟨d, rfl, hle⟩)

theorem Timed.exec_cases {i : Instr} {d : Nat} {s : State} (h : Timed i d s) :
    ∃ t, exec i s = .next t ∧ (t.reqIdx = s.reqIdx + 1 ∨ PassGoesOn d s t) := by
  have hpass := h.passes
  cases he : s.err with
  | failed r =>
    rcases h.waits with rfl | ⟨e, rfl⟩
    · exact ⟨_, exec_poisoned he hpass (by simp) (by simp) rfl (by simp), .inl rfl⟩
    · exact ⟨_, exec_poisoned he hpass (by simp) (by simp) rfl (by simp), .inl rfl⟩
  | ok =>
    rcases h.waits with rfl | ⟨e, rfl⟩
    · refine ⟨_, exec_waitEmpty (some d) he, ?_⟩
      cases waitEmptyPass_done (some d) s h.inv he with
      | first r l1 p _ hdone => exact hdone.returns_or_goesOn
      | second got1 out2 l1 l2 p q _ _ hdone => exact hdone.returns_or_goesOn
    · have hv : operandOr s.woff e < s.cfg.fifoCap := by
        by_contra hge
        exact absurd (hpass.symm.trans (offsetFault_of_le (Nat.not_lt.1 hge))) (by simp)
      obtain ⟨out, l, -, hdone⟩ := waitOffsetPass_done (operandOr s.woff e) (some d) s h.inv he
      exact ⟨_, exec_waitOffset e (some d) he hv, hdone.returns_or_goesOn⟩

/-- A step of the wait returns, or the wait is on the port again with the deadline ahead. -/
theorem Timed.step_cases {i : Instr} {d : Nat} {s : State} (h : Timed i d s) :
    ∃ t, step s = .next t ∧ (t.reqIdx = s.reqIdx + 1 ∨ Timed i d t ∧ t.reqIdx = s.reqIdx ∧
      t.env.clock = s.env.clock + (s.env.peekTick 0).tick ∧ t.env.clock < d ∧
      ∀ k, t.env.peekTick k = s.env.peekTick (k + 1)) := by
  obtain ⟨r, hr, hd⟩ := h.offered
  obtain ⟨t, hx, ht⟩ := h.exec_cases
  obtain ⟨hclock, -, -, hticks⟩ := between_kept t
  refine ⟨t.between, by rw [step_of_decode hr hd h.running, hx, thenConsumer_next], ?_⟩
  rcases ht with hret | hgo
  · exact .inl hret
  · refine .inr ⟨⟨⟨r, by rw [State.between_port, hgo.polls.port]; exact hr, hd⟩, h.waits, hgo.polls.fault.trans h.running,
      ?_, between_inv (exec_inv h.inv hx)⟩, hgo.polls.reqIdx, hclock.trans hgo.clock, hclock.trans_lt hgo.ahead,
      fun k => (hticks k).trans (hgo.ticks k)⟩
    rw [raisedBy_congr (s := s) (t := t.between) hgo.polls.cfg hgo.woff]
    exact h.passes

/-- The wait has returned by the reading of the clock that reaches the deadline. -/
theorem Timed.returns_by {i : Instr} {d : Nat} (n : Nat) {s : State} (h : Timed i d s) (hn : 0 < n)
    (hd : d ≤ s.env.clockAfter n) : ∃ k ≤ n, ∃ u, runFor k s = some u ∧ u.reqIdx = s.reqIdx + 1 := by
  induction n generalizing s with
  | zero => exact absurd hn (Nat.lt_irrefl 0)
  | succ n ih =>
    obtain ⟨t, hst, hret | ⟨ht, hidx, hclock, hahead, hticks⟩⟩ := h.step_cases
    · exact ⟨1, by omega, t, runFor_succ hst 0, hret⟩
    · rw [← Env.clockAfter_succ hclock hticks] at hd
      have hpos : 0 < n := Nat.pos_of_ne_zero fun h0 => by
        subst h0
        exact absurd hd (Nat.not_le.2 hahead)
      obtain ⟨k, hk, u, hu, hu'⟩ := ih ht hpos hd
      exact ⟨k + 1, by omega, u, by rw [runFor_succ hst, hu], by rw [hu', hidx]⟩

/-- Settles O52: a pass that goes on has read a clock short of the deadline; a clock that runs gains one at each reading. -/
theorem deadlineBoundsTheWait : Obligations.DeadlineBoundsTheWait := by
  intro s r i d hi hr hdec hf hpass hwait
  have h : Timed i d s := ⟨⟨r, hr, hdec⟩, hwait, hf, hpass, hi⟩
  refine ⟨fun n hn hd => h.returns_by n hn hd, fun hruns => h.returns_by _ (by omega) ?_⟩
  have hle := hruns.add_le
  omega

end Sys2Proof.Machine
end
